-- ==== Sys2Proof/Word.lean ====
section
/-! DEFINITION. The machine word: the `u32` of 00_scope.md R12, which is also the width of the bus (R7, `W` = 32). -/

namespace Sys2Proof

/-- An unsigned 32-bit word (00_scope.md R12 `u32`); bit 0 is the least significant bit. -/
abbrev Word := BitVec 32

end Sys2Proof
end

