-- ==== Sys2Proof/Syntax.lean ====
section
/-! DEFINITION. The commands of NCE-1 (30_encoding.md R96): one constructor per row of the opcode map. -/

namespace Sys2Proof

/-- A register index: a 4-bit field of a command word, every value legal (10_state.md R21, 30_encoding.md R95). -/
abbrev Reg := Fin 16

/-- The 15 commands (30_encoding.md R96). `imm16` is an unsigned number (R95), checked by `WellFormed`;
`neg` is `fn[0]` of `JACOBI` (R91). -/
inductive Instr where
  | nop
  | mov (rd rs1 : Reg)
  | ldi (rd : Reg) (imm16 : Nat)
  | seed (imm16 : Nat)
  | next (rd : Reg)
  | randbits (rd : Reg) (imm16 : Nat)
  | sample (rd rs1 rs2 : Reg)
  | montmul (rd rs1 rs2 rs3 : Reg)
  | tomont (rd rs1 rs3 : Reg)
  | frommont (rd rs1 rs3 : Reg)
  | mulmod (rd rs1 rs2 rs3 : Reg)
  | modexp (rd rs1 rs2 rs3 : Reg)
  | gcd (rd rs1 rs2 : Reg)
  | jacobi (rd rs1 rs3 : Reg) (neg : Bool)
  | ptest (rd rs3 : Reg)
deriving DecidableEq, Repr

end Sys2Proof
end

