-- ==== Sys2Proof/WellFormed.lean ====
section
/-! DEFINITION. Well-formed commands: the terms of `Instr` that a command word can spell (30_encoding.md R95). -/

namespace Sys2Proof

/-- `imm16` is a number 0 to 65535 (30_encoding.md R95). -/
abbrev Imm16Ok (imm16 : Nat) : Prop := imm16 < 65536

/-- Every register index and flag is legal by its type; the immediate of the three format I commands
(30_encoding.md R93) has 16 bits. -/
def wellFormed : Instr → Bool
  | .nop => true
  | .mov _ _ => true
  | .ldi _ imm16 => decide (Imm16Ok imm16)
  | .seed imm16 => decide (Imm16Ok imm16)
  | .next _ => true
  | .randbits _ imm16 => decide (Imm16Ok imm16)
  | .sample _ _ _ => true
  | .montmul _ _ _ _ => true
  | .tomont _ _ _ => true
  | .frommont _ _ _ => true
  | .mulmod _ _ _ _ => true
  | .modexp _ _ _ _ => true
  | .gcd _ _ _ => true
  | .jacobi _ _ _ _ => true
  | .ptest _ _ => true

/-- The check as a proposition. -/
abbrev WellFormed (i : Instr) : Prop := wellFormed i = true

end Sys2Proof
end

