-- ==== Sys2Proof/Decode.lean ====
section
/-! DEFINITION. Command words: fields, decoder, encoder and the match/mask table (30_encoding.md R90 to R103). -/

namespace Sys2Proof

/-- The field `cw[lo+width-1 : lo]` as an unsigned number (00_scope.md R12). -/
def field (lo width : Nat) (cw : Word) : Nat := cw.toNat / 2 ^ lo % 2 ^ width

/-- A 4-bit register field (30_encoding.md R91). -/
def regField (lo : Nat) (cw : Word) : Reg := ⟨field lo 4 cw, Nat.mod_lt _ (by decide)⟩

/-- `opcode = cw[7:0]` (30_encoding.md R91). -/
def opcodeOf (cw : Word) : Nat := field 0 8 cw
/-- `rd = cw[11:8]`. -/
def rdOf (cw : Word) : Reg := regField 8 cw
/-- `rs1 = cw[15:12]`. -/
def rs1Of (cw : Word) : Reg := regField 12 cw
/-- `rs2 = cw[19:16]`. -/
def rs2Of (cw : Word) : Reg := regField 16 cw
/-- `rs3 = cw[23:20]`. -/
def rs3Of (cw : Word) : Reg := regField 20 cw
/-- `NEG = fn[0] = cw[24]`. -/
def negOf (cw : Word) : Bool := decide (field 24 1 cw = 1)
/-- `imm16 = cw[31:16]`, never sign-extended (30_encoding.md R95). -/
def imm16Of (cw : Word) : Nat := field 16 16 cw

/-- Why a word spells no command (30_encoding.md R98). Executing such a word is the fault `Illegal`. -/
inductive DecodeError where
  /-- `opcode` is outside the 15 of R96. -/
  | unknownOpcode (opcode : Nat)
  /-- A listed opcode with a non-zero bit in a must-be-zero field of R97. -/
  | nonzeroField (opcode : Nat)
deriving DecidableEq, Repr

/-- The command `i`, provided every must-be-zero field (given as its low bit and width) is zero (30_encoding.md R97). -/
def spelled (cw : Word) (mustBeZero : List (Nat × Nat)) (i : Instr) : Except DecodeError Instr :=
  if mustBeZero.all (fun f => field f.1 f.2 cw == 0) then .ok i else .error (.nonzeroField (opcodeOf cw))

/-- The decoder, total on 32-bit words and reading nothing else (30_encoding.md R103), written field by field
from R96 and the must-be-zero column of R97. -/
def decode (cw : Word) : Except DecodeError Instr :=
  if opcodeOf cw = 0x00 then spelled cw [(8, 24)] .nop
  else if opcodeOf cw = 0x01 then spelled cw [(16, 4), (20, 4), (24, 8)] (.mov (rdOf cw) (rs1Of cw))
  else if opcodeOf cw = 0x02 then spelled cw [(12, 4)] (.ldi (rdOf cw) (imm16Of cw))
  else if opcodeOf cw = 0x10 then spelled cw [(8, 4), (12, 4)] (.seed (imm16Of cw))
  else if opcodeOf cw = 0x11 then spelled cw [(12, 4), (16, 4), (20, 4), (24, 8)] (.next (rdOf cw))
  else if opcodeOf cw = 0x12 then spelled cw [(12, 4)] (.randbits (rdOf cw) (imm16Of cw))
  else if opcodeOf cw = 0x13 then spelled cw [(20, 4), (24, 8)] (.sample (rdOf cw) (rs1Of cw) (rs2Of cw))
  else if opcodeOf cw = 0x20 then spelled cw [(24, 8)] (.montmul (rdOf cw) (rs1Of cw) (rs2Of cw) (rs3Of cw))
  else if opcodeOf cw = 0x21 then spelled cw [(16, 4), (24, 8)] (.tomont (rdOf cw) (rs1Of cw) (rs3Of cw))
  else if opcodeOf cw = 0x22 then spelled cw [(16, 4), (24, 8)] (.frommont (rdOf cw) (rs1Of cw) (rs3Of cw))
  else if opcodeOf cw = 0x23 then spelled cw [(24, 8)] (.mulmod (rdOf cw) (rs1Of cw) (rs2Of cw) (rs3Of cw))
  else if opcodeOf cw = 0x30 then spelled cw [(24, 8)] (.modexp (rdOf cw) (rs1Of cw) (rs2Of cw) (rs3Of cw))
  else if opcodeOf cw = 0x40 then spelled cw [(20, 4), (24, 8)] (.gcd (rdOf cw) (rs1Of cw) (rs2Of cw))
  else if opcodeOf cw = 0x41 then spelled cw [(16, 4), (25, 7)] (.jacobi (rdOf cw) (rs1Of cw) (rs3Of cw) (negOf cw))
  else if opcodeOf cw = 0x50 then spelled cw [(12, 4), (16, 4), (24, 8)] (.ptest (rdOf cw) (rs3Of cw))
  else .error (.unknownOpcode (opcodeOf cw))

/-- Format R: `{fn, rs3, rs2, rs1, rd, opcode}` (30_encoding.md R92, R103). -/
def packR (opcode : Nat) (rd rs1 rs2 rs3 : Reg) (fn : Nat) : Word :=
  BitVec.ofNat 32 (opcode + rd.val * 2 ^ 8 + rs1.val * 2 ^ 12 + rs2.val * 2 ^ 16 + rs3.val * 2 ^ 20 + fn * 2 ^ 24)

/-- Format I: `{imm16, 0000, rd, opcode}` (30_encoding.md R93, R103). -/
def packI (opcode : Nat) (rd : Reg) (imm16 : Nat) : Word :=
  BitVec.ofNat 32 (opcode + rd.val * 2 ^ 8 + imm16 * 2 ^ 16)

/-- Format Z: 24 zero bits above the opcode (30_encoding.md R94). -/
def packZ (opcode : Nat) : Word := BitVec.ofNat 32 opcode

/-- The encoder (30_encoding.md R103), unused fields 0. -/
def encode : Instr → Word
  | .nop => packZ 0x00
  | .mov rd rs1 => packR 0x01 rd rs1 0 0 0
  | .ldi rd imm16 => packI 0x02 rd imm16
  | .seed imm16 => packI 0x10 0 imm16
  | .next rd => packR 0x11 rd 0 0 0 0
  | .randbits rd imm16 => packI 0x12 rd imm16
  | .sample rd rs1 rs2 => packR 0x13 rd rs1 rs2 0 0
  | .montmul rd rs1 rs2 rs3 => packR 0x20 rd rs1 rs2 rs3 0
  | .tomont rd rs1 rs3 => packR 0x21 rd rs1 0 rs3 0
  | .frommont rd rs1 rs3 => packR 0x22 rd rs1 0 rs3 0
  | .mulmod rd rs1 rs2 rs3 => packR 0x23 rd rs1 rs2 rs3 0
  | .modexp rd rs1 rs2 rs3 => packR 0x30 rd rs1 rs2 rs3 0
  | .gcd rd rs1 rs2 => packR 0x40 rd rs1 rs2 0 0
  | .jacobi rd rs1 rs3 neg => packR 0x41 rd rs1 0 rs3 neg.toNat
  | .ptest rd rs3 => packR 0x50 rd 0 0 rs3 0

/-- A row of the match/mask table (30_encoding.md R97). -/
structure OpcodeRow where
  mnemonic : String
  pattern : Word
  mask : Word
deriving DecidableEq, Repr

/-- `cw & mask == match` (30_encoding.md R97). -/
abbrev OpcodeRow.spells (r : OpcodeRow) (cw : Word) : Prop := cw &&& r.mask = r.pattern

/-- The rows of 30_encoding.md R97 in table order; the decoder above does not use them, a statement compares the two. -/
def opcodeRows : List OpcodeRow := [
  ⟨"NOP", 0x00000000, 0xFFFFFFFF⟩,
  ⟨"MOV", 0x00000001, 0xFFFF00FF⟩,
  ⟨"LDI", 0x00000002, 0x0000F0FF⟩,
  ⟨"SEED", 0x00000010, 0x0000FFFF⟩,
  ⟨"NEXT", 0x00000011, 0xFFFFF0FF⟩,
  ⟨"RANDBITS", 0x00000012, 0x0000F0FF⟩,
  ⟨"SAMPLE", 0x00000013, 0xFFF000FF⟩,
  ⟨"MONTMUL", 0x00000020, 0xFF0000FF⟩,
  ⟨"TOMONT", 0x00000021, 0xFF0F00FF⟩,
  ⟨"FROMMONT", 0x00000022, 0xFF0F00FF⟩,
  ⟨"MULMOD", 0x00000023, 0xFF0000FF⟩,
  ⟨"MODEXP", 0x00000030, 0xFF0000FF⟩,
  ⟨"GCD", 0x00000040, 0xFFF000FF⟩,
  ⟨"JACOBI", 0x00000041, 0xFE0F00FF⟩,
  ⟨"PTEST", 0x00000050, 0xFF0FF0FF⟩]

/-- The mnemonic of a command (30_encoding.md R96). -/
def mnemonicOf : Instr → String
  | .nop => "NOP"
  | .mov _ _ => "MOV"
  | .ldi _ _ => "LDI"
  | .seed _ => "SEED"
  | .next _ => "NEXT"
  | .randbits _ _ => "RANDBITS"
  | .sample _ _ _ => "SAMPLE"
  | .montmul _ _ _ _ => "MONTMUL"
  | .tomont _ _ _ => "TOMONT"
  | .frommont _ _ _ => "FROMMONT"
  | .mulmod _ _ _ _ => "MULMOD"
  | .modexp _ _ _ _ => "MODEXP"
  | .gcd _ _ _ => "GCD"
  | .jacobi _ _ _ _ => "JACOBI"
  | .ptest _ _ => "PTEST"

/-- The host's question about a table word: the command read from a word of `nbits` bits, the bits above them 0.
A command is one 32-bit word (30_encoding.md R90), so a value that needs more spells nothing. -/
def decodeTableWord (nbits w : Nat) : Option Instr :=
  if w % 2 ^ nbits < 2 ^ 32 then (decode (BitVec.ofNat 32 (w % 2 ^ nbits))).toOption else none

end Sys2Proof
end

