-- ==== Sys2Proof/Config.lean ====
section
/-! DEFINITION. The configuration record of the engine (00_scope.md R7): what an implementation fixes. -/

namespace Sys2Proof

/-- The generator's algorithm `PRNG_ALG` (00_scope.md R7, 40_prng.md R121): a parameter with one instance.
What a name of this type stands for (a seeding function and a next-word function) is in
Machine/Generator.lean. DESIGN CHOICE (log 2): a name, so that State stays plain data. -/
inductive PrngAlg where
  /-- MT19937 with array seeding (40_prng.md R121 to R126). -/
  | mt19937
deriving DecidableEq, Repr

/-- The parameters of 00_scope.md R7. `W` = 32 and `NREG` = 16 are fixed and appear as types.
DESIGN CHOICE (log 1): State carries this record, no step changes it, so a statement about every state is a
statement about every configuration. -/
structure Config where
  /-- `L`, the words of an operand register. -/
  L : Nat
  /-- `SEEDMAX`, the depth of the seed buffer in words. -/
  seedMax : Nat
  /-- `PRNG_ALG`. -/
  prngAlg : PrngAlg
deriving DecidableEq, Repr

/-- `XLEN`, the width of an operand register in bits: `32 * L` (00_scope.md R7). -/
abbrev Config.xlen (c : Config) : Nat := 32 * c.L

/-- `R = 2^XLEN`, the Montgomery radix (00_scope.md R7, 42_montgomery.md R160); a register holds numbers below it. -/
abbrev Config.radix (c : Config) : Nat := 2 ^ c.xlen

/-- The constraints column of 00_scope.md R7: `1 ≤ L ≤ 64` and `1 ≤ SEEDMAX ≤ 64`. -/
abbrev Config.legal (c : Config) : Prop :=
  (1 ≤ c.L ∧ c.L ≤ 64) ∧ (1 ≤ c.seedMax ∧ c.seedMax ≤ 64)

/-- The default column of 00_scope.md R7: `XLEN` = 256 (`L` = 8), `SEEDMAX` = 16, MT19937. -/
def Config.default : Config := { L := 8, seedMax := 16, prngAlg := .mt19937 }

/-- `NREG`, fixed at 16 (00_scope.md R7). -/
def Config.nreg : Nat := 16

/-- The command set version, fixed at 1 (00_scope.md R3). -/
def Config.version : Nat := 1

/-- `ID`, the constant `0x4D4F4E54` (10_state.md R38). -/
def Config.idWord : Word := 0x4D4F4E54

end Sys2Proof
end

