-- ==== Sys2Proof/Machine/State.lean ====
section
/-! DEFINITION. The architectural state of the engine (10_state.md R20), the host's inputs, and reset (R47). -/

namespace Sys2Proof.Machine

/-- The reasons a step could stop the machine. There is none: "Nothing in this engine is fatal to the process"
(60_exceptions.md, preamble). A command outside its domain takes an engine fault (`FaultCode`), which is a next
state, and a command that never completes is a next state in which BUSY stays 1 (70_reset_and_hazards.md R273).
Raised by nobody; safe (log 14). -/
inductive Fault where
deriving DecidableEq, Repr

/-- The reasons a step could refuse an instruction. -/
inductive Refusal where
  /-- The interface's name for an arm of `exec` without a meaning. No arm has it; safe (log 14). -/
  | notModelled (mnemonic : String)
deriving DecidableEq, Repr

/-- The nine fault causes of 60_exceptions.md R231, in the order of their codes. -/
inductive FaultCode where
  | illegal
  | unseeded
  | seedEmpty
  | seedLen
  | zeroModulus
  | evenModulus
  | range
  | operand
  | limit
deriving DecidableEq, Repr

/-- `STATUS` (10_state.md R26). Bits 31:8 read as zero and ignore writes, so they have no storage (log 6). -/
structure Status where
  /-- Bit 0, R27. -/
  busy : Bool
  /-- Bit 1, R28. -/
  done : Bool
  /-- Bit 2, R29. -/
  err : Bool
  /-- Bit 3, R30. -/
  drop : Bool
  /-- Bit 4, R31. -/
  seeded : Bool
  /-- Bit 5, R32. -/
  prime : Bool
  /-- Bits 7:6, R33. -/
  jsym : BitVec 2
deriving DecidableEq, Repr

/-- `CTRL` (10_state.md R34). The reserved bits and `SRST` read 0, so they have no storage (log 6). -/
structure Ctrl where
  /-- Bit 0. -/
  ieDone : Bool
  /-- Bit 1. -/
  ieErr : Bool
deriving DecidableEq, Repr

/-- The PRNG state (10_state.md R43, 40_prng.md R122): `mt[0..623]` and `mti`, 0 to 624. -/
structure Prng where
  mt : Vector Word 624
  mti : Fin 625
deriving DecidableEq, Repr

/-- One access of the port (20_memory.md R61): `sel = 1` with `we`, `addr` (a word index) and `wdata`. -/
inductive Access where
  | read (addr : BitVec 11)
  | write (addr : BitVec 11) (wdata : Word)
deriving DecidableEq, Repr

/-- What one rising edge of `clk` samples (20_memory.md R61, 70_reset_and_hazards.md R260), and whether a command
in flight completes at it: the busy time is "any value" (93_implementation_defined.md I8; log 7). -/
structure Edge where
  /-- The input `rst`. -/
  rst : Bool
  /-- The access of this cycle; `none` is `sel = 0`. -/
  access : Option Access
  /-- A command that was in flight before this edge completes at it. -/
  finish : Bool
deriving DecidableEq, Repr

/-- An edge at which the host does nothing and a command in flight completes. DESIGN CHOICE (log 8): the edge
sampled when `sched` is empty. -/
def Edge.quiet : Edge := { rst := false, access := none, finish := true }

/-- The complete architectural state (10_state.md R20), with two fields of the model's own: the configuration,
which no step changes (log 1), and the host's pending inputs (log 7). `ID` and `PARAM` are constants (R38, R39) and
are computed by the bus read. -/
structure State where
  /-- The configuration (00_scope.md R7). The model's own field. -/
  cfg : Config
  /-- `x[0]` to `x[15]`: unsigned integers below `2^XLEN` (R21). DESIGN CHOICE (log 5): numbers, since the width is a
  parameter; `Invariant` holds them below `2^XLEN`. -/
  x : Vector Nat 16
  /-- `seedbuf[0 .. SEEDMAX-1]` (R42). -/
  seedbuf : List Word
  /-- `mt`, `mti` (R43). -/
  prng : Prng
  /-- `STATUS` (R26). -/
  status : Status
  /-- `CTRL` (R34). -/
  ctrl : Ctrl
  /-- `CONF` (R35). -/
  conf : Word
  /-- `LIMIT` (R36). -/
  limit : Word
  /-- `ERRCODE` (R37). -/
  errcode : BitVec 8
  /-- `ERRCMD` (R37). -/
  errcmd : Word
  /-- `ROUNDS` (R40). -/
  rounds : Word
  /-- `PRNGCNT` (R41). -/
  prngcnt : Word
  /-- `cmdreg`, the latched command (R25). -/
  cmdreg : Word
  /-- The host's pending inputs, the next edge first. The model's own field. -/
  sched : List Edge
deriving DecidableEq, Repr

/-- The reset state of 10_state.md R47 for a configuration. `mt`, `mti` and `cmdreg` are "unspecified, unobservable"
there: zero, DESIGN CHOICE (log 3, log 4), unsafe. -/
def State.resetWith (cfg : Config) : State where
  cfg := cfg
  x := Vector.replicate 16 0
  seedbuf := List.replicate cfg.seedMax 0
  prng := { mt := Vector.replicate 624 0, mti := 0 }
  status := { busy := false, done := false, err := false, drop := false, seeded := false, prime := false, jsym := 0 }
  ctrl := { ieDone := false, ieErr := false }
  conf := 32
  limit := 0
  errcode := 0
  errcmd := 0
  rounds := 0
  prngcnt := 0
  cmdreg := 0
  sched := []

/-- The machine right after reset (10_state.md R47), with the default parameters of 00_scope.md R7. -/
def State.reset : State := State.resetWith Config.default

end Sys2Proof.Machine
end

