-- ==== Sys2Proof/Machine/Ops.lean ====
section
/-! DEFINITION. The named operations over registers, and the completion of a command: normal, by a fault
(60_exceptions.md R236), or never (00_scope.md R10); the return from the fault state (R240) and reset (R261). -/

namespace Sys2Proof.Machine

/-- `x[r]` as an unsigned integer (00_scope.md R16). -/
def readReg (s : State) (r : Reg) : Nat := s.x[r.val]

/-- `x[r] <- v`: the write stores `XLEN` bits (00_scope.md R8, R16). -/
def writeReg (r : Reg) (v : Nat) (s : State) : State := { s with x := s.x.set r.val (v % s.cfg.radix) }

/-- Word `i` of an operand register: `v[32i+31 : 32i]` (00_scope.md R12, 20_memory.md R65). -/
def wordOf (v i : Nat) : Word := BitVec.ofNat 32 (v / 2 ^ (32 * i))

/-- `v` with word `i` replaced, the other words unchanged (10_state.md R22). -/
def putWord (v i : Nat) (w : Word) : Nat :=
  v / 2 ^ (32 * (i + 1)) * 2 ^ (32 * (i + 1)) + w.toNat * 2 ^ (32 * i) + v % 2 ^ (32 * i)

/-- The outcome of a command, as 00_scope.md R10 lists them. -/
inductive Result where
  /-- `ok(state')`: `s` holds the writes of the command's rule. -/
  | ok (s : State)
  /-- `fault(code, state')`: `s` differs from the state at acceptance by the generator's advance only. -/
  | fault (code : FaultCode) (s : State)
  /-- `diverge`: the command never completes. -/
  | diverge
deriving DecidableEq, Repr

/-- The codes of 60_exceptions.md R231. -/
def FaultCode.code : FaultCode → BitVec 8
  | .illegal => 1
  | .unseeded => 2
  | .seedEmpty => 3
  | .seedLen => 4
  | .zeroModulus => 5
  | .evenModulus => 6
  | .range => 7
  | .operand => 8
  | .limit => 9

/-- Fault entry (60_exceptions.md R236), all at once: BUSY falls, ERR rises, the code and the faulting command word are
recorded. Control goes nowhere. -/
def takeFault (code : FaultCode) (s : State) : State :=
  { s with
    status := { s.status with busy := false, err := true }
    errcode := code.code
    errcmd := s.cmdreg }

/-- Completion without fault (10_state.md R27, R28): BUSY falls, DONE rises. -/
def completeOk (s : State) : State := { s with status := { s.status with busy := false, done := true } }

/-- What the outcome of a command makes of the state at acceptance `s`. A command that diverges leaves everything as
it is: BUSY stays 1 (70_reset_and_hazards.md R273; log 10). -/
def finish (s : State) : Result → Host.Outcome State Fault Refusal
  | .ok s' => .next (completeOk s')
  | .fault code s' => .next (takeFault code s')
  | .diverge => .next s

/-- The first check that fails decides (60_exceptions.md R237): with a failed check the command faults and has written
nothing, else it goes on as `k`. -/
def guardThen (check : Option FaultCode) (s : State) (k : Result) : Result :=
  match check with
  | some code => .fault code s
  | none => k

/-- The return from the fault state is the host's write of 1 to STATUS bit 2 (60_exceptions.md R240, 20_memory.md R70):
ERR falls, ERRCODE and ERRCMD keep their values. -/
def clearErr (s : State) : State := { s with status := { s.status with err := false } }

/-- The effect of reset (70_reset_and_hazards.md R261): every piece of state takes its reset value. The configuration
and the host's inputs still to come are no state of the engine and stay. -/
def resetEngine (s : State) : State := { State.resetWith s.cfg with sched := s.sched }

end Sys2Proof.Machine
end

