-- ==== Sys2Proof/Machine/Flags.lean ====
section
/-! DEFINITION. STATUS and CTRL as words, the symbol's encoding, the interrupt line, and the flag side of a host write
(10_state.md R26 to R34, R46; 20_memory.md R68 to R71). -/

namespace Sys2Proof.Machine

/-- `STATUS` as the host reads it (10_state.md R26): bits 31:8 are zero. -/
def Status.word (f : Status) : Word :=
  BitVec.ofNat 32 (f.busy.toNat + f.done.toNat * 2 + f.err.toNat * 4 + f.drop.toNat * 8 + f.seeded.toNat * 16
    + f.prime.toNat * 32 + f.jsym.toNat * 64)

/-- `CTRL` as the host reads it (10_state.md R34): bits 30:2 and `SRST` read 0. -/
def Ctrl.word (c : Ctrl) : Word := BitVec.ofNat 32 (c.ieDone.toNat + c.ieErr.toNat * 2)

/-- A symbol as 2-bit two's complement: 0 is `0b00`, +1 is `0b01`, -1 is `0b11` (10_state.md R33). -/
def jsymBits (j : Int) : BitVec 2 := BitVec.ofInt 2 j

/-- `irq = (DONE & IE_DONE) | (ERR & IE_ERR)` (10_state.md R46). -/
def State.irq (s : State) : Bool := (s.status.done && s.ctrl.ieDone) || (s.status.err && s.ctrl.ieErr)

/-- A dropped host write sets DROP and changes nothing else (10_state.md R30, 20_memory.md R68, R69). -/
def markDrop (s : State) : State := { s with status := { s.status with drop := true } }

/-- A host write to `STATUS` (20_memory.md R70): write 1 to clear bits 1, 2, 3; every other bit is ignored. -/
def writeStatus (wdata : Word) (s : State) : State :=
  { s with status := { s.status with
      done := s.status.done && !wdata.getLsbD 1
      err := s.status.err && !wdata.getLsbD 2
      drop := s.status.drop && !wdata.getLsbD 3 } }

/-- A host write to `CTRL` (20_memory.md R71): bit 31 resets the engine and the other bits are discarded, else the two
enables are written. -/
def writeCtrl (wdata : Word) (s : State) : State :=
  if wdata.getLsbD 31 then resetEngine s
  else { s with ctrl := { ieDone := wdata.getLsbD 0, ieErr := wdata.getLsbD 1 } }

/-- Acceptance of a command word (20_memory.md R69): latched, BUSY rises, DONE falls. -/
def acceptCommand (wdata : Word) (s : State) : State :=
  { s with cmdreg := wdata, status := { s.status with busy := true, done := false } }

end Sys2Proof.Machine
end

