-- ==== Sys2Proof/Machine/Bus.lean ====
section
/-! DEFINITION. The register space and the host's accesses to it (20_memory.md R60 to R72). -/

namespace Sys2Proof.Machine

/-- What a word of the register space is (20_memory.md R62). -/
inductive Target where
  | cmd
  | status
  | ctrl
  | conf
  | limit
  | errcode
  | errcmd
  | rounds
  | prngcnt
  | id
  | param
  /-- `seedbuf[i]`. -/
  | seed (i : Nat)
  /-- Word `i` of `x[r]`. -/
  | xword (r : Reg) (i : Nat)
  | reserved
deriving DecidableEq, Repr

/-- The registers at byte offsets 0x0000 to 0x0028, one a word (20_memory.md R62). -/
def namedTargets : List Target :=
  [.cmd, .status, .ctrl, .conf, .limit, .errcode, .errcmd, .rounds, .prngcnt, .id, .param]

/-- Byte offset `0x0100 + 4*i` (20_memory.md R62). -/
def seedTarget (cfg : Config) (i : Nat) : Target := if i < cfg.seedMax then .seed i else .reserved

/-- Byte offset `0x1000 + 0x100*r + 4*i` (20_memory.md R62). -/
def xwordTarget (cfg : Config) (r i : Nat) : Target := if i < cfg.L then .xword (Fin.ofNat 16 r) i else .reserved

/-- The address map (20_memory.md R62), by word index: the byte offset is `4 * addr` (R61). -/
def target (cfg : Config) (addr : BitVec 11) : Target :=
  if addr.toNat < 0x040 then namedTargets.getD addr.toNat .reserved
  else if addr.toNat < 0x080 then seedTarget cfg (addr.toNat - 0x040)
  else if addr.toNat < 0x400 then .reserved
  else xwordTarget cfg ((addr.toNat - 0x400) / 64) ((addr.toNat - 0x400) % 64)

/-- `PARAM` (10_state.md R39). -/
def paramWord (cfg : Config) : Word :=
  BitVec.ofNat 32 (cfg.L % 2 ^ 8 + cfg.seedMax % 2 ^ 8 * 2 ^ 8 + Config.nreg * 2 ^ 16 + Config.version * 2 ^ 24)

/-- The value a host read of a word returns (20_memory.md R62, R63). It changes no state (R67). -/
def busRead (s : State) (addr : BitVec 11) : Word :=
  match target s.cfg addr with
  | .cmd => 0
  | .status => s.status.word
  | .ctrl => s.ctrl.word
  | .conf => s.conf
  | .limit => s.limit
  | .errcode => BitVec.ofNat 32 s.errcode.toNat
  | .errcmd => s.errcmd
  | .rounds => s.rounds
  | .prngcnt => s.prngcnt
  | .id => Config.idWord
  | .param => paramWord s.cfg
  | .seed i => s.seedbuf.getD i 0
  | .xword r i => wordOf (readReg s r) i
  | .reserved => 0

/-- A write that BUSY blocks (20_memory.md R68). -/
def writeUnlessBusy (s s' : State) : State := if s.status.busy then markDrop s else s'

/-- A host write of `wdata` to `CMD` (20_memory.md R69). -/
def writeCmd (wdata : Word) (s : State) : State :=
  if s.status.busy || s.status.err then markDrop s else acceptCommand wdata s

/-- A host write (20_memory.md R62, R63, R68 to R71). -/
def busWrite (s : State) (addr : BitVec 11) (wdata : Word) : State :=
  match target s.cfg addr with
  | .cmd => writeCmd wdata s
  | .status => writeStatus wdata s
  | .ctrl => writeCtrl wdata s
  | .conf => writeUnlessBusy s { s with conf := wdata }
  | .limit => writeUnlessBusy s { s with limit := wdata }
  | .errcode => s
  | .errcmd => s
  | .rounds => s
  | .prngcnt => s
  | .id => s
  | .param => s
  | .seed i => writeUnlessBusy s { s with seedbuf := s.seedbuf.set i wdata }
  | .xword r i => writeUnlessBusy s { s with x := s.x.set r.val (putWord (readReg s r) i wdata) }
  | .reserved => s

/-- The state after the access of an edge. -/
def busAccess (s : State) : Option Access → State
  | none => s
  | some (.read _) => s
  | some (.write addr wdata) => busWrite s addr wdata

/-- The edge the next step samples: the head of the host's inputs, and `Edge.quiet` when there is none (log 8). -/
def State.edge (s : State) : Edge := s.sched.headD Edge.quiet

/-- The output `rdata` in the cycle of a read, combinational from the state (20_memory.md R61); 0 while `rst` is 1
(70_reset_and_hazards.md R260); `none` in a cycle without a read, in which the spec gives it no value. -/
def State.rdata (s : State) : Option Word :=
  match s.edge.access with
  | some (.read addr) => some (if s.edge.rst then 0 else busRead s addr)
  | _ => none

end Sys2Proof.Machine
end

