-- ==== Sys2Proof/Machine/Operands.lean ====
section
/-! DEFINITION. The operand forms of the commands (30_encoding.md R95): the immediate, the seed words, the signed first
argument of JACOBI; and the operand checks that several commands share (60_exceptions.md R231, R237). -/

namespace Sys2Proof.Machine

/-- `zext_XLEN(v)` (00_scope.md R13, 46_system.md R222): zero extension leaves the number as it is. -/
def zext (v : Nat) : Nat := v

/-- `seedbuf[0 .. len-1]` (40_prng.md R129). -/
def seedKey (s : State) (len : Nat) : List Word := s.seedbuf.take len

/-- The first argument of the symbol: `-x[rs1]` with `NEG`, else `x[rs1]` (44_jacobi_gcd.md R196). -/
def symbolArg (neg : Bool) (v : Nat) : Int := if neg then -(v : Int) else (v : Int)

/-- `Unseeded`, tested first by the four commands of the PRNG class (60_exceptions.md R233). -/
def unseededCheck (s : State) : Option FaultCode := if s.status.seeded then none else some .unseeded

/-- `SeedEmpty` then `SeedLen` (40_prng.md R129). -/
def seedLenCheck (s : State) (len : Nat) : Option FaultCode :=
  if len = 0 then some .seedEmpty else if s.cfg.seedMax < len then some .seedLen else none

/-- `Operand` when `RANDBITS` asks for more than `XLEN` bits (40_prng.md R131). -/
def bitCountCheck (s : State) (k : Nat) : Option FaultCode := if s.cfg.xlen < k then some .operand else none

/-- `ZeroModulus` (42_montgomery.md R164, 43_modexp.md R181, 44_jacobi_gcd.md R196). -/
def zeroModulusCheck (n : Nat) : Option FaultCode := if n = 0 then some .zeroModulus else none

/-- `ZeroModulus` then `EvenModulus` (42_montgomery.md R161). -/
def oddModulusCheck (n : Nat) : Option FaultCode :=
  if n = 0 then some .zeroModulus else if n % 2 = 0 then some .evenModulus else none

/-- `ZeroModulus` then `Operand` (44_jacobi_gcd.md R196): with `NEG` only 0 and 1 are legal. -/
def jacobiCheck (neg : Bool) (a n : Nat) : Option FaultCode :=
  if n = 0 then some .zeroModulus else if neg && decide (1 < a) then some .operand else none

/-- `Unseeded` before `Operand` (60_exceptions.md R237). -/
def randbitsCheck (s : State) (k : Nat) : Option FaultCode := (unseededCheck s).or (bitCountCheck s k)

end Sys2Proof.Machine
end

