-- ==== Sys2Proof/Machine/Arith.lean ====
section
/-! DEFINITION. The exact integer arithmetic inside a command (00_scope.md R8, R14): bit length, modular power, the
inverse of the Montgomery radix (42_montgomery.md R160), and the Jacobi symbol by the clause list (44_jacobi_gcd.md R192). -/

namespace Sys2Proof.Machine

/-- `bitlen(v)` (00_scope.md R14): `bitlen(0) = 0`, else the `k` with `2^(k-1) ≤ v < 2^k`. -/
def bitlen (v : Nat) : Nat := if v = 0 then 0 else Nat.log2 v + 1

/-- Square-and-multiply from the low bit of the exponent: `acc * base^e mod n`. The recursion runs on a bit count. -/
def powModLoop (n : Nat) : Nat → Nat → Nat → Nat → Nat
  | 0, acc, _, _ => acc % n
  | bits + 1, acc, base, e =>
    powModLoop n bits (if e % 2 = 1 then acc * base % n else acc) (base * base % n) (e / 2)

/-- `a^e mod n` (43_modexp.md R181), with `a^0 = 1`. Any method that returns this number conforms (R183); Laws prove
that this one does. -/
def powMod (a e n : Nat) : Nat := powModLoop n (bitlen e) 1 (a % n) e

/-- `Rinv(n)` for odd `n` (42_montgomery.md R160): `(n+1)/2` is the inverse of 2 modulo `n`, so its `XLEN`-th power is the
inverse of `R = 2^XLEN`. For `n = 1` it is 0. -/
def rinv (cfg : Config) (n : Nat) : Nat := powMod ((n + 1) / 2) cfg.xlen n

/-- The Montgomery product `a * b * Rinv(n) mod n` (42_montgomery.md R160). -/
def montProduct (cfg : Config) (a b n : Nat) : Nat := a * b * rinv cfg n % n

/-- The Montgomery form `a * R mod n` (42_montgomery.md R160, R162). -/
def toMont (cfg : Config) (a n : Nat) : Nat := a * cfg.radix % n

/-- The number whose Montgomery form is `a`: `a * Rinv(n) mod n` (42_montgomery.md R163). -/
def fromMont (cfg : Config) (a n : Nat) : Nat := a * rinv cfg n % n

/-- `j mod n` with the non-negative residue of 00_scope.md R14 (44_jacobi_gcd.md R197). -/
def symbolMod (j : Int) (n : Nat) : Nat := (j % (n : Int)).toNat

/-- Clause c4 of 44_jacobi_gcd.md R192: `J(2, n)`. -/
def jacobiTwo (n : Nat) : Int :=
  if n % 8 = 1 ∨ n % 8 = 7 then 1 else if n % 8 = 3 ∨ n % 8 = 5 then -1 else 0

/-- The clause list of 44_jacobi_gcd.md R192, c1 to c8 in order; `none` when the evaluation never ends. In c7 and c8 the
call `J(n, a)` with `a = n` is the very call being evaluated, so it never ends (R194; log 12). The first argument of
the recursion is a bound on its depth, which `jacobi` chooses large enough (log 12). -/
def jacobiClauses : Nat → Int → Nat → Option Int
  | 0, _, _ => none
  | depth + 1, a, n =>
    if a = 0 then some (if n = 1 then 1 else 0)
    else if a = 1 then some 1
    else if a = -1 then some (if n % 2 = 0 then 1 else -1)
    else if a = 2 then some (jacobiTwo n)
    else if a > (n : Int) then jacobiClauses depth (a % (n : Int)) n
    else if a % 2 = 0 then (jacobiClauses depth (a / 2) n).map (fun j => jacobiTwo n * j)
    else if a = (n : Int) then none
    else if a % 4 = 3 ∧ n % 4 = 3 then (jacobiClauses depth (n : Int) a.toNat).map (fun j => -j)
    else jacobiClauses depth (n : Int) a.toNat

/-- `J(a, n)` (44_jacobi_gcd.md R192). Every clause that recurses decreases `2(a+n)`, or keeps `a+n` and makes the first
argument the larger one, so the depth `2(a+n)+2` is never used up. -/
def jacobi (a : Int) (n : Nat) : Option Int := jacobiClauses (2 * (a.toNat + n) + 2) a n

end Sys2Proof.Machine
end

