-- ==== Sys2Proof/Machine/JacobiGcd.lean ====
section
/-! DEFINITION. The GCD and Jacobi symbol family: GCD, JACOBI (44_jacobi_gcd.md R191, R196). -/

namespace Sys2Proof.Machine

/-- `GCD rd, rs1, rs2` (44_jacobi_gcd.md R191); `gcd(0, 0) = 0` (R190). -/
def execGcd (rd rs1 rs2 : Reg) (s : State) : Host.Outcome State Fault Refusal :=
  finish s (.ok (writeReg rd (Nat.gcd (readReg s rs1) (readReg s rs2)) s))

/-- What the symbol makes of `JACOBI rd` (44_jacobi_gcd.md R196): the residue to `x[rd]`, the symbol to `JSYM`. -/
def jacobiResult (rd : Reg) (n : Nat) (s : State) : Option Int → Result
  | some j =>
    .ok (writeReg rd (symbolMod j n) { s with status := { s.status with jsym := jsymBits j } })
  | none => .diverge

/-- `JACOBI rd, rs1, rs3` with `NEG` (44_jacobi_gcd.md R196). -/
def execJacobi (rd rs1 rs3 : Reg) (neg : Bool) (s : State) : Host.Outcome State Fault Refusal :=
  let n := readReg s rs3
  finish s (guardThen (jacobiCheck neg (readReg s rs1) n) s
    (jacobiResult rd n s (jacobi (symbolArg neg (readReg s rs1)) n)))

end Sys2Proof.Machine
end

