-- ==== Sys2Proof/Machine/Modexp.lean ====
section
/-! DEFINITION. The modular exponentiation family: MODEXP (43_modexp.md R181). -/

namespace Sys2Proof.Machine

/-- `MODEXP rd, rs1, rs2, rs3` (43_modexp.md R181): `x[rd] <- a^e mod n`. -/
def execModexp (rd rs1 rs2 rs3 : Reg) (s : State) : Host.Outcome State Fault Refusal :=
  let n := readReg s rs3
  finish s (guardThen (zeroModulusCheck n) s
    (.ok (writeReg rd (powMod (readReg s rs1) (readReg s rs2) n) s)))

end Sys2Proof.Machine
end

