-- ==== Sys2Proof/Machine/Montgomery.lean ====
section
/-! DEFINITION. The Montgomery multiplier family: MONTMUL, TOMONT, FROMMONT, MULMOD (42_montgomery.md R161 to R164). -/

namespace Sys2Proof.Machine

/-- `MONTMUL rd, rs1, rs2, rs3` (42_montgomery.md R161): `x[rd] <- a * b * Rinv(n) mod n`. -/
def execMontmul (rd rs1 rs2 rs3 : Reg) (s : State) : Host.Outcome State Fault Refusal :=
  let n := readReg s rs3
  finish s (guardThen (oddModulusCheck n) s
    (.ok (writeReg rd (montProduct s.cfg (readReg s rs1) (readReg s rs2) n) s)))

/-- `TOMONT rd, rs1, rs3` (42_montgomery.md R162): `x[rd] <- a * R mod n`. -/
def execTomont (rd rs1 rs3 : Reg) (s : State) : Host.Outcome State Fault Refusal :=
  let n := readReg s rs3
  finish s (guardThen (oddModulusCheck n) s
    (.ok (writeReg rd (toMont s.cfg (readReg s rs1) n) s)))

/-- `FROMMONT rd, rs1, rs3` (42_montgomery.md R163): `x[rd] <- a * Rinv(n) mod n`. -/
def execFrommont (rd rs1 rs3 : Reg) (s : State) : Host.Outcome State Fault Refusal :=
  let n := readReg s rs3
  finish s (guardThen (oddModulusCheck n) s
    (.ok (writeReg rd (fromMont s.cfg (readReg s rs1) n) s)))

/-- `MULMOD rd, rs1, rs2, rs3` (42_montgomery.md R164): `x[rd] <- a * b mod n`, any `n ≥ 1`. -/
def execMulmod (rd rs1 rs2 rs3 : Reg) (s : State) : Host.Outcome State Fault Refusal :=
  let n := readReg s rs3
  finish s (guardThen (zeroModulusCheck n) s
    (.ok (writeReg rd (readReg s rs1 * readReg s rs2 % n) s)))

end Sys2Proof.Machine
end

