-- ==== Sys2Proof/Machine/Generator.lean ====
section
/-! DEFINITION. The generator MT19937 (40_prng.md R122 to R126), the parameter PRNG_ALG over it (R121), the k-bit draw
(R128) and the ranged sampler (41_sampler.md R141). -/

namespace Sys2Proof.Machine

/-- `init_genrand(s)` (40_prng.md R123), the words only. -/
def initGenrand (s : Word) : Vector Word 624 :=
  Nat.fold 623
    (fun j _ (mt : Vector Word 624) =>
      mt.set (j + 1) (1812433253 * (mt[j] ^^^ (mt[j] >>> 30)) + BitVec.ofNat 32 (j + 1)))
    ((Vector.replicate 624 (0 : Word)).set 0 s)

/-- The working state of the loops of `init_by_array` (40_prng.md R124). -/
structure MixState where
  mt : Vector Word 624
  i : Fin 624
  j : Nat
deriving DecidableEq, Repr

/-- `i <- i + 1; if i >= 624: mt[0] <- mt[623]; i <- 1` (40_prng.md R124). -/
def mixAdvance (mt : Vector Word 624) (i : Fin 624) : Vector Word 624 × Fin 624 :=
  if i.val + 1 ≥ 624 then (mt.set 0 mt[623], 1) else (mt, i + 1)

/-- `mt[i-1] ^ (mt[i-1] >> 30)` (40_prng.md R124). -/
def mixPrevious (mt : Vector Word 624) (i : Fin 624) : Word :=
  let p := mt[(i - 1).val]
  p ^^^ (p >>> 30)

/-- One pass of the first loop (40_prng.md R124). -/
def mixKeyStep (key : List Word) (m : MixState) : MixState :=
  let v := (m.mt[m.i.val] ^^^ (mixPrevious m.mt m.i * 1664525)) + key.getD m.j 0 + BitVec.ofNat 32 m.j
  let (mt, i) := mixAdvance (m.mt.set m.i.val v) m.i
  { mt := mt, i := i, j := if m.j + 1 ≥ key.length then 0 else m.j + 1 }

/-- One pass of the second loop (40_prng.md R124). -/
def mixIndexStep (m : MixState) : MixState :=
  let v := (m.mt[m.i.val] ^^^ (mixPrevious m.mt m.i * 1566083941)) - BitVec.ofNat 32 m.i.val
  let (mt, i) := mixAdvance (m.mt.set m.i.val v) m.i
  { m with mt := mt, i := i }

/-- `init_by_array(key, len)` with `len = key.length ≥ 1` (40_prng.md R124). -/
def initByArray (key : List Word) : Prng :=
  let start : MixState := { mt := initGenrand 19650218, i := 1, j := 0 }
  let keyed := (mixKeyStep key)^[max 624 key.length] start
  let mixed := mixIndexStep^[623] keyed
  { mt := mixed.mt.set 0 0x80000000, mti := 624 }

/-- `twist()` (40_prng.md R125): `k` runs upward over already updated words. -/
def twist (mt : Vector Word 624) : Vector Word 624 :=
  Nat.fold 624
    (fun k _ (mt : Vector Word 624) =>
      let y := (mt[k] &&& 0x80000000) ||| (mt[(k + 1) % 624]'(Nat.mod_lt _ (by decide)) &&& 0x7FFFFFFF)
      mt.set k ((mt[(k + 397) % 624]'(Nat.mod_lt _ (by decide))) ^^^ (y >>> 1)
        ^^^ (if y.getLsbD 0 then 0x9908B0DF else 0)))
    mt

/-- The tempering of `next_u32()` (40_prng.md R126). -/
def temper (y : Word) : Word :=
  let y := y ^^^ (y >>> 11)
  let y := y ^^^ ((y <<< 7) &&& 0x9D2C5680)
  let y := y ^^^ ((y <<< 15) &&& 0xEFC60000)
  y ^^^ (y >>> 18)

/-- `y <- mt[mti]; mti <- mti + 1` and the tempering (40_prng.md R126). -/
def takeWord (mt : Vector Word 624) (i : Fin 624) : Word × Prng :=
  (temper mt[i.val], { mt := mt, mti := i.succ })

/-- `next_u32()` of MT19937 (40_prng.md R126), without the count. -/
def nextWord (g : Prng) : Word × Prng :=
  if h : g.mti.val < 624 then takeWord g.mt ⟨g.mti.val, h⟩ else takeWord (twist g.mt) 0

/-- PRNG_ALG, first function: seed words to state (40_prng.md R121). -/
def seedGenerator : PrngAlg → List Word → Prng
  | .mt19937, key => initByArray key

/-- PRNG_ALG, second function: state to word and next state (40_prng.md R121). -/
def generatorNext : PrngAlg → Prng → Word × Prng
  | .mt19937, g => nextWord g

/-- How many values the generator's state has: 624 words of 32 bits and an index 0 to 624 (40_prng.md R122). Irreducible, so
that no tactic tries to write the number out. -/
@[irreducible] def generatorStates : PrngAlg → Nat
  | .mt19937 => 625 * 2 ^ (32 * 624)

/-- The generator's state and `PRNGCNT`, which every `next_u32()` advances together (10_state.md R41). -/
structure Stream where
  gen : Prng
  cnt : Word
deriving DecidableEq, Repr

/-- The stream of a state. -/
def State.stream (s : State) : Stream := { gen := s.prng, cnt := s.prngcnt }

/-- A state with the stream moved on. -/
def setStream (t : Stream) (s : State) : State := { s with prng := t.gen, prngcnt := t.cnt }

/-- `next_u32()` (40_prng.md R126): the word, the advanced generator, and 1 added to `PRNGCNT` mod 2^32. -/
def nextU32 (alg : PrngAlg) (t : Stream) : Word × Stream :=
  ((generatorNext alg t.gen).1, { gen := (generatorNext alg t.gen).2, cnt := t.cnt + 1 })

/-- The loop of `drawbits` (40_prng.md R128): `todo` words still to draw, the next is word `i`, `v` is drawn so far. The
last word keeps its top `k mod 32` bits. -/
def drawWords (alg : PrngAlg) (k : Nat) : Nat → Nat → Nat → Stream → Nat × Stream
  | 0, _, v, t => (v, t)
  | todo + 1, i, v, t =>
    let w := (nextU32 alg t).1.toNat
    let w := if todo = 0 ∧ k % 32 ≠ 0 then w >>> (32 - k % 32) else w
    drawWords alg k todo (i + 1) (v + w * 2 ^ (32 * i)) (nextU32 alg t).2

/-- `drawbits(k)` (40_prng.md R128); `k = 0` returns 0 and consumes nothing. -/
def drawBits (alg : PrngAlg) (k : Nat) (t : Stream) : Nat × Stream :=
  if k = 0 then (0, t) else drawWords alg k ((k + 31) / 32) 0 0 t

/-- How `sample` ends (41_sampler.md R141). -/
inductive Sampled where
  /-- A value, and the stream after the words it consumed. -/
  | value (v : Nat) (t : Stream)
  /-- The fault `Range`, before any word (R143). -/
  | range
  /-- The fault `Limit`; the words stay consumed (R144). -/
  | limit (t : Stream)
  /-- No draw is ever accepted (R145). -/
  | never
deriving DecidableEq, Repr

/-- The loop of `sample` (41_sampler.md R141), bounded by `bound` passes. -/
def sampleLoop (alg : PrngAlg) (limit low width k : Nat) : Nat → Nat → Stream → Sampled
  | 0, _, _ => .never
  | bound + 1, attempts, t =>
    if limit ≠ 0 ∧ attempts = limit then .limit t
    else if (drawBits alg k t).1 < width then .value (low + (drawBits alg k t).1) (drawBits alg k t).2
    else sampleLoop alg limit low width k bound (attempts + 1) (drawBits alg k t).2

/-- `sample(low, high)` (41_sampler.md R141). Without a cap the loop stops looking after as many rejected draws as the
generator has states: by then a state has come back and no draw is ever accepted, DEDUCED (log 11). -/
def sample (alg : PrngAlg) (limit low : Nat) (high : Int) (t : Stream) : Sampled :=
  let width := high - (low : Int) + 1
  if width ≤ 0 then .range
  else sampleLoop alg limit low width.toNat (bitlen width.toNat) (generatorStates alg + 1) 0 t

end Sys2Proof.Machine
end

