-- ==== Sys2Proof/Machine/Primality.lean ====
section
/-! DEFINITION. The Solovay-Strassen primality tester family: PTEST (45_primality.md R211, R212). -/

namespace Sys2Proof.Machine

/-- How the round loop ends (45_primality.md R212). -/
inductive Tested where
  /-- The verdict, the number of rounds that passed, and the stream after the words drawn. -/
  | verdict (prime : Bool) (rounds : Nat) (t : Stream)
  /-- A round's `sample` faulted; the words drawn so far stay drawn. -/
  | fault (code : FaultCode) (t : Stream)
  /-- A round never ends (45_primality.md R216). -/
  | never
deriving DecidableEq, Repr

/-- The two checks of a round with base `a` (45_primality.md R212): `gcd(a, n) ≤ 1` and `J(a, n) mod n = a^((n-1) div 2) mod n`;
`none` when the symbol's evaluation never ends (it does not for a drawn `a`, R194). -/
def roundPasses (a n : Nat) : Option Bool :=
  if Nat.gcd a n > 1 then some false
  else (jacobi (a : Int) n).map (fun j => decide (symbolMod j n = powMod a ((n - 1) / 2) n))

/-- The round loop (45_primality.md R212): `todo` rounds still to run, `i` rounds passed. -/
def testRounds (alg : PrngAlg) (limit n : Nat) : Nat → Nat → Stream → Tested
  | 0, i, t => .verdict true i t
  | todo + 1, i, t =>
    match sample alg limit 1 ((n : Int) - 2) t with
    | .range => .fault .range t
    | .limit t' => .fault .limit t'
    | .never => .never
    | .value a t' =>
      match roundPasses a n with
      | some true => testRounds alg limit n todo (i + 1) t'
      | some false => .verdict false i t'
      | none => .never

/-- What the loop makes of `PTEST rd` (45_primality.md R211, R212). -/
def testResult (rd : Reg) (s : State) : Tested → Result
  | .verdict prime rounds t =>
    .ok (writeReg rd prime.toNat
      { setStream t s with
        status := { s.status with prime := prime }
        rounds := BitVec.ofNat 32 rounds })
  | .fault code t => .fault code (setStream t s)
  | .never => .diverge

/-- `PTEST rd, rs3` (45_primality.md R211). -/
def execPtest (rd rs3 : Reg) (s : State) : Host.Outcome State Fault Refusal :=
  finish s (guardThen (unseededCheck s) s
    (testResult rd s
      (testRounds s.cfg.prngAlg s.limit.toNat (readReg s rs3) s.conf.toNat 0 s.stream)))

end Sys2Proof.Machine
end

