-- ==== Sys2Proof/Machine/Prng.lean ====
section
/-! DEFINITION. The PRNG family: SEED, NEXT, RANDBITS (40_prng.md R129 to R131). -/

namespace Sys2Proof.Machine

/-- `SEED len` (40_prng.md R129). -/
def execSeed (len : Nat) (s : State) : Host.Outcome State Fault Refusal :=
  finish s (guardThen (seedLenCheck s len) s
    (.ok { s with
      prng := seedGenerator s.cfg.prngAlg (seedKey s len)
      prngcnt := 0
      status := { s.status with seeded := true } }))

/-- `NEXT rd` (40_prng.md R130). -/
def execNext (rd : Reg) (s : State) : Host.Outcome State Fault Refusal :=
  let draw := nextU32 s.cfg.prngAlg s.stream
  finish s (guardThen (unseededCheck s) s
    (.ok (writeReg rd (zext draw.1.toNat) (setStream draw.2 s))))

/-- `RANDBITS rd, k` (40_prng.md R131). -/
def execRandbits (rd : Reg) (k : Nat) (s : State) : Host.Outcome State Fault Refusal :=
  let draw := drawBits s.cfg.prngAlg k s.stream
  finish s (guardThen (randbitsCheck s k) s
    (.ok (writeReg rd draw.1 (setStream draw.2 s))))

end Sys2Proof.Machine
end

