-- ==== Sys2Proof/Machine/Sampler.lean ====
section
/-! DEFINITION. The ranged sampler family: SAMPLE (41_sampler.md R147). -/

namespace Sys2Proof.Machine

/-- What `sample` makes of `SAMPLE rd` (41_sampler.md R147). -/
def sampleResult (rd : Reg) (s : State) : Sampled → Result
  | .value v t => .ok (writeReg rd v (setStream t s))
  | .range => .fault .range s
  | .limit t => .fault .limit (setStream t s)
  | .never => .diverge

/-- `SAMPLE rd, rs1, rs2` (41_sampler.md R147): `x[rd] <- sample(x[rs1], x[rs2])`. -/
def execSample (rd rs1 rs2 : Reg) (s : State) : Host.Outcome State Fault Refusal :=
  finish s (guardThen (unseededCheck s) s
    (sampleResult rd s
      (sample s.cfg.prngAlg s.limit.toNat (readReg s rs1) (readReg s rs2 : Int) s.stream)))

end Sys2Proof.Machine
end

