-- ==== Sys2Proof/Machine/System.lean ====
section
/-! DEFINITION. The system family: NOP, MOV, LDI (46_system.md R220 to R222). -/

namespace Sys2Proof.Machine

/-- `NOP` (46_system.md R220). -/
def execNop (s : State) : Host.Outcome State Fault Refusal := finish s (.ok s)

/-- `MOV rd, rs1` (46_system.md R221): `x[rd] <- x[rs1]`. -/
def execMov (rd rs1 : Reg) (s : State) : Host.Outcome State Fault Refusal :=
  finish s (.ok (writeReg rd (readReg s rs1) s))

/-- `LDI rd, imm16` (46_system.md R222): `x[rd] <- zext_XLEN(imm16)`. -/
def execLdi (rd : Reg) (imm16 : Nat) (s : State) : Host.Outcome State Fault Refusal :=
  finish s (.ok (writeReg rd (zext imm16) s))

end Sys2Proof.Machine
end

