-- ==== Sys2Proof/Machine/Dispatch.lean ====
section
/-! DEFINITION. The dispatch of a command to its meaning, one arm per constructor of Instr. -/

namespace Sys2Proof.Machine

/-- The completion of a command: `exec(state, cw)` of 00_scope.md R10 with the writes of its outcome made. -/
def exec (i : Instr) (s : State) : Host.Outcome State Fault Refusal :=
  match i with
  | .nop => Sys2Proof.Machine.execNop s
  | .mov rd rs1 => Sys2Proof.Machine.execMov rd rs1 s
  | .ldi rd imm16 => Sys2Proof.Machine.execLdi rd imm16 s
  | .seed imm16 => Sys2Proof.Machine.execSeed imm16 s
  | .next rd => Sys2Proof.Machine.execNext rd s
  | .randbits rd imm16 => Sys2Proof.Machine.execRandbits rd imm16 s
  | .sample rd rs1 rs2 => Sys2Proof.Machine.execSample rd rs1 rs2 s
  | .montmul rd rs1 rs2 rs3 => Sys2Proof.Machine.execMontmul rd rs1 rs2 rs3 s
  | .tomont rd rs1 rs3 => Sys2Proof.Machine.execTomont rd rs1 rs3 s
  | .frommont rd rs1 rs3 => Sys2Proof.Machine.execFrommont rd rs1 rs3 s
  | .mulmod rd rs1 rs2 rs3 => Sys2Proof.Machine.execMulmod rd rs1 rs2 rs3 s
  | .modexp rd rs1 rs2 rs3 => Sys2Proof.Machine.execModexp rd rs1 rs2 rs3 s
  | .gcd rd rs1 rs2 => Sys2Proof.Machine.execGcd rd rs1 rs2 s
  | .jacobi rd rs1 rs3 neg => Sys2Proof.Machine.execJacobi rd rs1 rs3 neg s
  | .ptest rd rs3 => Sys2Proof.Machine.execPtest rd rs3 s

end Sys2Proof.Machine
end

