-- ==== Sys2Proof/Machine/Clock.lean ====
section
/-! DEFINITION. One rising edge of the clock: reset, the host's access, the completion of the command in flight
(20_memory.md R61, R70; 10_state.md R25; 70_reset_and_hazards.md R260, R263). -/

namespace Sys2Proof.Machine

/-- The completion of the latched command (10_state.md R25): a word that spells a command has the command's effect, any
other takes the fault `Illegal` (60_exceptions.md R232) and nothing is read from the register file. -/
def completeCommand (s : State) : Host.Outcome State Fault Refusal :=
  match decode s.cmdreg with
  | .ok i => exec i s
  | .error _ => .next (takeFault .illegal s)

/-- One edge from the state `s` before it. Reset by `rst` ignores the access (70_reset_and_hazards.md R260). Otherwise the
access sees the state before the edge (20_memory.md R61), so it is judged first; then a command that was in flight before
the edge completes, if this is its instant, and its flag writes win over a W1C of the same edge (R70). A soft reset of
the same edge has abandoned the command (70_reset_and_hazards.md R263). DEDUCED (log 9). -/
def clockEdge (e : Edge) (s : State) : Host.Outcome State Fault Refusal :=
  if e.rst then .next (resetEngine s)
  else if e.finish && s.status.busy && (busAccess s e.access).status.busy then completeCommand (busAccess s e.access)
  else .next (busAccess s e.access)

/-- The host's inputs after the next edge. -/
def State.popEdge (s : State) : State := { s with sched := s.sched.tail }

/-- A state in which the command word `cw` has been accepted (20_memory.md R69) and completes at the very next edge, at
which the host does nothing. ERR is 0 because no command is accepted while it is 1 (10_state.md R29). -/
def State.withCommand (s : State) (cw : Word) : State :=
  { s with
    cmdreg := cw
    status := { s.status with busy := true, done := false, err := false }
    sched := Edge.quiet :: s.sched }

end Sys2Proof.Machine
end

