-- ==== Sys2Proof/Machine/Step.lean ====
section
/-! DEFINITION. One step of the machine: one rising edge of the clock (20_memory.md R61), with the inputs the host has
for it. -/

namespace Sys2Proof.Machine

/-- One step: the next edge is taken from the host's inputs and applied. -/
def step (s : State) : Host.Outcome State Fault Refusal := clockEdge s.edge s.popEdge

/-- `s` with the word `w` (its bits above `nbits` zero) as the accepted command that the very next step completes: the
engine fetches nothing (20_memory.md R79), its "fetch" is the latch `cmdreg` (log 15). -/
def State.withFetchWord (s : State) (nbits w : Nat) : State := s.withCommand (BitVec.ofNat 32 (w % 2 ^ nbits))

end Sys2Proof.Machine
end

