-- ==== Sys2Proof/Machine/Asm.lean ====
section
/-! DEFINITION. The assembler text of a command (30_encoding.md R101), the pseudo-instructions and the host actions of
R102. Nothing in the machine reads this file. -/

namespace Sys2Proof.Machine

/-- `register := "X" decimal` (30_encoding.md R101). -/
def asmReg (r : Reg) : String := "X" ++ toString r.val

/-- `mnemonic [ operand , ... ]` (30_encoding.md R101). -/
def asmLine (mnemonic : String) (operands : List String) : String :=
  if operands.isEmpty then mnemonic else mnemonic ++ " " ++ ", ".intercalate operands

/-- The printer (30_encoding.md R101): destination first, then `rs1`, `rs2`, `rs3` as used; `JACOBI` with `NEG = 1` is
`JACOBIN`. -/
def asmText : Instr → String
  | .nop => asmLine "NOP" []
  | .mov rd rs1 => asmLine "MOV" [asmReg rd, asmReg rs1]
  | .ldi rd imm16 => asmLine "LDI" [asmReg rd, toString imm16]
  | .seed imm16 => asmLine "SEED" [toString imm16]
  | .next rd => asmLine "NEXT" [asmReg rd]
  | .randbits rd imm16 => asmLine "RANDBITS" [asmReg rd, toString imm16]
  | .sample rd rs1 rs2 => asmLine "SAMPLE" [asmReg rd, asmReg rs1, asmReg rs2]
  | .montmul rd rs1 rs2 rs3 => asmLine "MONTMUL" [asmReg rd, asmReg rs1, asmReg rs2, asmReg rs3]
  | .tomont rd rs1 rs3 => asmLine "TOMONT" [asmReg rd, asmReg rs1, asmReg rs3]
  | .frommont rd rs1 rs3 => asmLine "FROMMONT" [asmReg rd, asmReg rs1, asmReg rs3]
  | .mulmod rd rs1 rs2 rs3 => asmLine "MULMOD" [asmReg rd, asmReg rs1, asmReg rs2, asmReg rs3]
  | .modexp rd rs1 rs2 rs3 => asmLine "MODEXP" [asmReg rd, asmReg rs1, asmReg rs2, asmReg rs3]
  | .gcd rd rs1 rs2 => asmLine "GCD" [asmReg rd, asmReg rs1, asmReg rs2]
  | .jacobi rd rs1 rs3 neg => asmLine (if neg then "JACOBIN" else "JACOBI") [asmReg rd, asmReg rs1, asmReg rs3]
  | .ptest rd rs3 => asmLine "PTEST" [asmReg rd, asmReg rs3]

/-- The pseudo-instructions (30_encoding.md R102). -/
inductive Pseudo where
  | clr (d : Reg)
  | one (d : Reg)
  | jacobin (d a n : Reg)
  | sqrmod (d a n : Reg)
  | reduce (d a n : Reg)
deriving DecidableEq, Repr

/-- Their expansions (30_encoding.md R102). `REDUCE` is two commands and needs `d ≠ a` and `d ≠ n`. -/
def Pseudo.expand : Pseudo → List Instr
  | .clr d => [.ldi d 0]
  | .one d => [.ldi d 1]
  | .jacobin d a n => [.jacobi d a n true]
  | .sqrmod d a n => [.mulmod d a a n]
  | .reduce d a n => [.ldi d 1, .mulmod d a d n]

/-- `WR offset, value` (30_encoding.md R102) as one edge; the byte offset is a multiple of 4 (20_memory.md R64). -/
def hostWrite (offset : Nat) (value : Word) : Edge :=
  { rst := false, access := some (.write (BitVec.ofNat 11 (offset / 4)) value), finish := false }

/-- `RD offset` (30_encoding.md R102). -/
def hostRead (offset : Nat) : Edge :=
  { rst := false, access := some (.read (BitVec.ofNat 11 (offset / 4))), finish := false }

/-- `LOAD Xr, value`: the `L` word writes, least significant word first (30_encoding.md R102, 20_memory.md R62). -/
def hostLoad (cfg : Config) (r : Reg) (value : Nat) : List Edge :=
  (List.range cfg.L).map (fun i => hostWrite (0x1000 + 0x100 * r.val + 4 * i) (wordOf value i))

/-- Issue a command: the write of its word to `CMD`. -/
def hostIssue (i : Instr) : Edge := hostWrite 0 (encode i)

/-- `WAIT` (30_encoding.md R102): polls of `STATUS` until `BUSY = 0`, when `busyPolls` of them read `BUSY = 1`. A read returns the state
before its edge (20_memory.md R61), so the command in flight completes at the edge of the last of these, and one more poll reads
`BUSY = 0`. The busy time is any value (log 7), so `busyPolls` is. -/
def hostWait : Nat → List Edge
  | 0 => [hostRead 4]
  | busyPolls + 1 => List.replicate busyPolls (hostRead 4) ++ [{ hostRead 4 with finish := true }, hostRead 4]

end Sys2Proof.Machine
end

