-- ==== Sys2Proof/Safety.lean ====
section
/-! DEFINITION. What a good state is (10_state.md R48 and the widths of R21, R42): the invariants the claims use. -/

namespace Sys2Proof.Machine

/-- The widths and sizes of the state: a legal configuration (00_scope.md R7), operand registers of `XLEN` bits
(10_state.md R21), a seed buffer of `SEEDMAX` words (R42). -/
structure Sized (s : State) : Prop where
  cfg : s.cfg.legal
  regs : ∀ r : Reg, readReg s r < s.cfg.radix
  seedbuf : s.seedbuf.length = s.cfg.seedMax

/-- The invariants of the flags (10_state.md R48, R33; 60_exceptions.md R231: "Codes 10 to 255 are never written"). -/
structure FlagsOk (s : State) : Prop where
  doneBusy : ¬ (s.status.done = true ∧ s.status.busy = true)
  busyErr : s.status.busy = true → s.status.err = false
  jsym : s.status.jsym ≠ 0b10
  errcode : s.errcode.toNat ≤ 9
  errcodeSet : s.status.err = true → s.errcode ≠ 0

/-- The generator after `n` words from a seed (40_prng.md R127). -/
def generatorAfter (alg : PrngAlg) (key : List Word) (n : Nat) : Prng :=
  (fun g => (generatorNext alg g).2)^[n] (seedGenerator alg key)

/-- 10_state.md R48, R41: with `SEEDED = 1` the generator was produced by a seed of legal length followed by some number of
`next_u32()`, and `PRNGCNT` is that number mod 2^32. -/
def StreamOk (s : State) : Prop :=
  s.status.seeded = true →
    ∃ (key : List Word) (n : Nat), 1 ≤ key.length ∧ key.length ≤ s.cfg.seedMax ∧
      s.prng = generatorAfter s.cfg.prngAlg key n ∧ s.prngcnt = BitVec.ofNat 32 n

/-- The invariant of the machine. -/
structure Invariant (s : State) : Prop where
  sized : Sized s
  flags : FlagsOk s
  stream : StreamOk s

/-! ### next states, as the claims write them -/

/-- A completion without fault that writes `v` to all `XLEN` bits of `x[rd]`: BUSY falls, DONE rises, nothing else changes
(10_state.md R22, R27, R28). -/
def State.withResult (s : State) (rd : Reg) (v : Nat) : State :=
  { s with x := s.x.set rd.val v, status := { s.status with busy := false, done := true } }

/-- A completion with a fault (60_exceptions.md R236): BUSY falls, ERR rises, the code and the command word are recorded,
nothing else changes. -/
def State.withFault (s : State) (code : BitVec 8) : State :=
  { s with status := { s.status with busy := false, err := true }, errcode := code, errcmd := s.cmdreg }

/-- The state to which a completion at the next edge is applied: the host's input of that edge is taken, and its access made
(20_memory.md R61, R70). -/
def State.atCompletion (s : State) : State := busAccess s.popEdge s.edge.access

/-- The command in flight completes at the next edge: no reset there, and the completion instant is this one. -/
structure Completes (s : State) : Prop where
  rst : s.edge.rst = false
  finish : s.edge.finish = true
  busy : s.status.busy = true
  kept : s.atCompletion.status.busy = true

/-- The fields of a command word as 30_encoding.md R91 places them, for the fields the command uses (R97). -/
def FieldsMatch (cw : Word) (i : Instr) : Prop :=
  let at_ (lo : Nat) (r : Reg) : Prop := (cw.extractLsb' lo 4).toNat = r.val
  match i with
  | .nop => True
  | .mov rd rs1 => at_ 8 rd ∧ at_ 12 rs1
  | .ldi rd imm16 => at_ 8 rd ∧ (cw.extractLsb' 16 16).toNat = imm16
  | .seed imm16 => (cw.extractLsb' 16 16).toNat = imm16
  | .next rd => at_ 8 rd
  | .randbits rd imm16 => at_ 8 rd ∧ (cw.extractLsb' 16 16).toNat = imm16
  | .sample rd rs1 rs2 => at_ 8 rd ∧ at_ 12 rs1 ∧ at_ 16 rs2
  | .montmul rd rs1 rs2 rs3 => at_ 8 rd ∧ at_ 12 rs1 ∧ at_ 16 rs2 ∧ at_ 20 rs3
  | .tomont rd rs1 rs3 => at_ 8 rd ∧ at_ 12 rs1 ∧ at_ 20 rs3
  | .frommont rd rs1 rs3 => at_ 8 rd ∧ at_ 12 rs1 ∧ at_ 20 rs3
  | .mulmod rd rs1 rs2 rs3 => at_ 8 rd ∧ at_ 12 rs1 ∧ at_ 16 rs2 ∧ at_ 20 rs3
  | .modexp rd rs1 rs2 rs3 => at_ 8 rd ∧ at_ 12 rs1 ∧ at_ 16 rs2 ∧ at_ 20 rs3
  | .gcd rd rs1 rs2 => at_ 8 rd ∧ at_ 12 rs1 ∧ at_ 16 rs2
  | .jacobi rd rs1 rs3 neg => at_ 8 rd ∧ at_ 12 rs1 ∧ at_ 20 rs3 ∧ cw.getLsbD 24 = neg
  | .ptest rd rs3 => at_ 8 rd ∧ at_ 20 rs3

/-! ### the word stream, as the sampler's claims speak of it -/

/-- The stream after `n` calls of `next_u32()` (40_prng.md R126). -/
def advance (alg : PrngAlg) (n : Nat) (t : Stream) : Stream := (fun u => (nextU32 alg u).2)^[n] t

/-- The words `next_u32()` returns from a stream, the first one first (40_prng.md R127). -/
def words (alg : PrngAlg) (n : Nat) (t : Stream) : List Word :=
  (List.range n).map (fun i => (nextU32 alg (advance alg i t)).1)

/-- `ceil(k/32)`, the words one `k`-bit draw consumes (40_prng.md R128). -/
abbrev drawCost (k : Nat) : Nat := (k + 31) / 32

/-- Draw number `j` (from 0) of successive `k`-bit draws from a stream (41_sampler.md R141). -/
def attemptDraw (alg : PrngAlg) (k j : Nat) (t : Stream) : Nat :=
  (drawBits alg k (advance alg (j * drawCost k) t)).1

/-- `width = high - low + 1` for a non-empty interval of registers (41_sampler.md R141). -/
abbrev intervalWidth (low high : Nat) : Nat := high - low + 1

/-! ### the clause list of the symbol -/

/-- The first arguments that clauses c1 to c4 name (44_jacobi_gcd.md R192). -/
abbrev NamedArg (a : Int) : Prop := a = 0 ∨ a = 1 ∨ a = -1 ∨ a = 2

/-- `J(a, n) = j` by finitely many uses of the clauses of 44_jacobi_gcd.md R192, each clause with the condition that none
before it applies. A call that never ends has no value. -/
inductive ClauseValue : Int → Nat → Int → Prop where
  | c1 {n : Nat} : ClauseValue 0 n (if n = 1 then 1 else 0)
  | c2 {n : Nat} : ClauseValue 1 n 1
  | c3 {n : Nat} : ClauseValue (-1) n (if n % 2 = 0 then 1 else -1)
  | c4 {n : Nat} :
      ClauseValue 2 n (if n % 8 = 1 ∨ n % 8 = 7 then 1 else if n % 8 = 3 ∨ n % 8 = 5 then -1 else 0)
  | c5 {a : Int} {n : Nat} {j : Int} (named : ¬ NamedArg a) (gt : a > (n : Int))
      (value : ClauseValue (a % (n : Int)) n j) : ClauseValue a n j
  | c6 {a : Int} {n : Nat} {j k : Int} (named : ¬ NamedArg a) (le : a ≤ (n : Int)) (even : a % 2 = 0)
      (two : ClauseValue 2 n j) (half : ClauseValue (a / 2) n k) : ClauseValue a n (j * k)
  | c7 {a : Int} {n : Nat} {j : Int} (named : ¬ NamedArg a) (le : a ≤ (n : Int)) (odd : a % 2 = 1)
      (both : a % 4 = 3 ∧ n % 4 = 3) (value : ClauseValue (n : Int) a.toNat j) : ClauseValue a n (-j)
  | c8 {a : Int} {n : Nat} {j : Int} (named : ¬ NamedArg a) (le : a ≤ (n : Int)) (odd : a % 2 = 1)
      (other : ¬ (a % 4 = 3 ∧ n % 4 = 3)) (value : ClauseValue (n : Int) a.toNat j) : ClauseValue a n j

/-! ### the rounds of the tester -/

/-- A round with base `a` passes both checks of 45_primality.md R212. -/
def RoundPasses (a n : Nat) : Prop :=
  ¬ Nat.gcd a n > 1 ∧ ∃ j : Int, ClauseValue (a : Int) n j ∧ j % (n : Int) = ((a ^ ((n - 1) / 2) % n : Nat) : Int)

/-- Rounds `0 .. k-1` of a test of `n` draw the bases `base i` from the streams `at i` and pass (45_primality.md R212). -/
def PassingRounds (s : State) (n k : Nat) (base : Nat → Nat) (strm : Nat → Stream) : Prop :=
  strm 0 = s.stream ∧ ∀ i, i < k →
    sample s.cfg.prngAlg s.limit.toNat 1 ((n : Int) - 2) (strm i) = .value (base i) (strm (i + 1)) ∧
    RoundPasses (base i) n

/-! ### the reach of the completions -/

/-- The three rows of 70_reset_and_hazards.md R273: the commands that may not complete. -/
def MayNotComplete (i : Instr) (s : State) : Prop :=
  match i with
  | .jacobi _ rs1 rs3 neg =>
    neg = false ∧ readReg s rs1 = readReg s rs3 ∧ readReg s rs1 % 2 = 1 ∧ 3 ≤ readReg s rs1
  | .sample _ _ _ => s.limit = 0
  | .ptest _ rs3 => s.limit = 0 ∧ s.conf ≠ 0 ∧ 3 ≤ readReg s rs3
  | _ => False

/-- The destination field of a command, for the commands that have one (30_encoding.md R97). -/
def destOf : Instr → Option Reg
  | .nop => none
  | .mov rd _ => some rd
  | .ldi rd _ => some rd
  | .seed _ => none
  | .next rd => some rd
  | .randbits rd _ => some rd
  | .sample rd _ _ => some rd
  | .montmul rd _ _ _ => some rd
  | .tomont rd _ _ => some rd
  | .frommont rd _ _ => some rd
  | .mulmod rd _ _ _ => some rd
  | .modexp rd _ _ _ => some rd
  | .gcd rd _ _ => some rd
  | .jacobi rd _ _ _ => some rd
  | .ptest rd _ => some rd

/-- An edge that resets the engine: `rst`, or a write to `CTRL` with bit 31 set (70_reset_and_hazards.md R260). -/
def ResetsEngine (cfg : Config) (e : Edge) : Prop :=
  e.rst = true ∨ ∃ addr wdata, e.access = some (.write addr wdata) ∧ target cfg addr = .ctrl ∧ wdata.getLsbD 31 = true

/-- Two states that differ at most in the generator's hidden state `mt`, `mti` (10_state.md R43). -/
def SameButGenerator (s t : State) : Prop := { s with prng := t.prng } = t

/-- Two states that differ at most in the latch `cmdreg` (10_state.md R25). -/
def SameButLatch (s t : State) : Prop := { s with cmdreg := t.cmdreg } = t

end Sys2Proof.Machine
end

