-- ==== Sys2Proof/Certificates/Slice0/Obligations.lean ====
section
/-! DEFINITION. The statements for the provers, taken from the numbered rules of spec/ file by file. -/

open Sys2Proof Sys2Proof.Machine

/-! ### encoding (30_encoding.md) -/

/-- Every well-formed command, with every operand at every value its encoding admits, decodes from its own word
(R103, "Encoding is the inverse"). -/
def Obligations.DecodeOfEncodeIsTheCommand : Prop :=
  ∀ i : Instr, WellFormed i → decode (encode i) = .ok i

/-- A word that decodes is the encoding of what it decodes to: no word has two commands, no command two words
(R103, "`encode(decode(cw)) = cw` for every legal `cw`"). -/
def Obligations.EncodeOfDecodeIsTheWord : Prop :=
  ∀ (cw : Word) (i : Instr), decode cw = .ok i → WellFormed i ∧ encode i = cw

/-- R97: `cw` spells a command of the table exactly when `cw & mask == match` holds of the command's row. -/
def Obligations.DecoderAgreesWithTheMatchMaskTable : Prop :=
  ∀ cw : Word, ∀ r ∈ opcodeRows, (r.spells cw ↔ ∃ i, decode cw = .ok i ∧ mnemonicOf i = r.mnemonic)

/-- R91, R95: a decoded command has the fields of its word, each at its place, the immediate unsigned. -/
def Obligations.DecodedCommandHasTheWordsFields : Prop :=
  ∀ (cw : Word) (i : Instr), decode cw = .ok i → FieldsMatch cw i

/-- Words written out from R92 to R97 and R101 decode to the commands they stand for, one or more per family; two words of R98 decode to
none. -/
def Obligations.WrittenOutWordsDecode : Prop :=
  decode 0x00000000 = .ok .nop ∧
  decode 0x00001201 = .ok (.mov 2 1) ∧
  decode 0x00010502 = .ok (.ldi 5 1) ∧
  decode 0x00080010 = .ok (.seed 8) ∧
  decode 0x00000F11 = .ok (.next 15) ∧
  decode 0x00021313 = .ok (.sample 3 1 2) ∧
  decode 0x00721320 = .ok (.montmul 3 1 2 7) ∧
  decode 0x00701321 = .ok (.tomont 3 1 7) ∧
  decode 0x00701322 = .ok (.frommont 3 1 7) ∧
  decode 0x00721323 = .ok (.mulmod 3 1 2 7) ∧
  decode 0x00721330 = .ok (.modexp 3 1 2 7) ∧
  decode 0x00021340 = .ok (.gcd 3 1 2) ∧
  decode 0x01201341 = .ok (.jacobi 3 1 2 true) ∧
  decode 0x00700050 = .ok (.ptest 0 7) ∧
  decode 0x00000100 = .error (.nonzeroField 0) ∧
  decode 0x000000FF = .error (.unknownOpcode 0xFF)

/-- R98: an idle engine without `ERR` accepts a word that matches no row; its execution completes with `Illegal`:
`ERRCODE = 1`, `ERRCMD = cw`, no other change. That an access of the completion edge is made before the completion is the model's order
within an edge (log 9), read from R61, R70 and R270. -/
def Obligations.IllegalWordIsAcceptedAndFaults : Prop :=
  ∀ s : State,
    (∀ (addr : BitVec 11) (cw : Word), (∀ r ∈ opcodeRows, ¬ r.spells cw) → target s.cfg addr = .cmd →
      s.status.busy = false → s.status.err = false →
      busWrite s addr cw = { s with cmdreg := cw, status := { s.status with busy := true, done := false } }) ∧
    (Completes s → (∀ r ∈ opcodeRows, ¬ r.spells s.cmdreg) →
      step s = .next { s.atCompletion with
        status := { s.atCompletion.status with busy := false, err := true }, errcode := 1, errcmd := s.cmdreg })

/-! ### the step -/

/-- R25, R10: at the completion of a word that decodes to `i`, the step is `exec i` at the state in which the host's input of
that edge has been taken; an edge without an access changes nothing else. That the access comes before the command is the model's
order within an edge (log 9), read from R61 and R70. -/
def Obligations.StepRunsTheDecodedCommand : Prop :=
  ∀ (s : State) (i : Instr), Completes s → decode s.cmdreg = .ok i →
    step s = exec i s.atCompletion ∧ (s.edge.access = none → s.atCompletion = { s with sched := s.sched.tail })

/-- The host's interface: a word of the opcode table placed as the accepted command is what the next step runs (log 15). -/
def Obligations.PlacedTableWordRunsNext : Prop :=
  ∀ (s : State) (nbits w : Nat) (i : Instr), decodeTableWord nbits w = some i →
    step (s.withFetchWord nbits w) =
      exec i { s with
        cmdreg := BitVec.ofNat 32 (w % 2 ^ nbits), status := { s.status with busy := true, done := false, err := false } }

/-- R69, R25, R102 (the model's edges, log 7): a command issued to an idle engine without `ERR` is accepted at its edge, and completes
at a later one as `exec` of that command. While the host waits for it, whatever the busy time, each poll of `STATUS` up to the completion
reads `BUSY = 1`, and the poll after it reads `BUSY` as the completion left it. -/
def Obligations.IssuedCommandCompletesAsExec : Prop :=
  ∀ (s : State) (i : Instr) (rest : List Edge), WellFormed i → s.status.busy = false → s.status.err = false →
    let accepted : State := { s with cmdreg := encode i, status := { s.status with busy := true, done := false }, sched := rest }
    Host.Core.run Sys2Proof.core 2 { s with sched := hostIssue i :: Edge.quiet :: rest } = exec i accepted ∧
    ∀ n : Nat,
      let issued : State := { s with sched := hostIssue i :: (hostWait (n + 1) ++ rest) }
      let completing : State := { accepted with sched := hostRead 4 :: rest }
      (∀ k, k ≤ n → ∃ u v, Host.Core.run Sys2Proof.core (k + 1) issued = .next u ∧ u.rdata = some v ∧ v.getLsbD 0 = true) ∧
      Host.Core.run Sys2Proof.core (n + 2) issued = exec i completing ∧
      (∀ t, exec i completing = .next t → ∃ v, t.rdata = some v ∧ v.getLsbD 0 = t.status.busy)

/-- 60_exceptions.md, preamble ("Nothing in this engine is fatal to the process") and R10: every command and every edge has a
next state. That no fault or refusal of the model is ever answered is log 14, and that a command that never completes answers a next
state, with `BUSY` still 1, is log 10: both are the model's reading. -/
def Obligations.EveryStepHasANextState : Prop :=
  (∀ (i : Instr) (s : State), ∃ t, exec i s = .next t) ∧ ∀ s : State, ∃ t, step s = .next t

/-! ### system family (46_system.md) -/

/-- R220, R221, R222: `NOP` completes with no effect, `MOV` copies all bits, `LDI` zero-extends; nothing else changes. -/
def Obligations.SystemCommandResults : Prop :=
  ∀ s : State, Sized s →
    exec .nop s = .next { s with status := { s.status with busy := false, done := true } } ∧
    (∀ rd rs1 : Reg, exec (.mov rd rs1) s = .next (s.withResult rd (readReg s rs1))) ∧
    (∀ (rd : Reg) (imm16 : Nat), imm16 < 65536 → exec (.ldi rd imm16) s = .next (s.withResult rd imm16))

/-! ### PRNG family (40_prng.md) -/

/-- R129, R267, R234: a `SEED` of legal length writes the generator, `PRNGCNT`, `SEEDED` and nothing else; a length of 0 or above
`SEEDMAX` is refused with its code and leaves the generator, `SEEDED` and `PRNGCNT` as they were. -/
def Obligations.SeedCommandResults : Prop :=
  ∀ (s : State) (len : Nat),
    (1 ≤ len → len ≤ s.cfg.seedMax →
      exec (.seed len) s = .next { s with
        prng := seedGenerator s.cfg.prngAlg (s.seedbuf.take len)
        prngcnt := 0
        status := { s.status with busy := false, done := true, seeded := true } }) ∧
    (len = 0 → exec (.seed len) s = .next (s.withFault 3)) ∧
    (s.cfg.seedMax < len → exec (.seed len) s = .next (s.withFault 4))

/-- R130, R131: `NEXT` writes the next word, `RANDBITS` a `k`-bit draw, each with the stream moved on. -/
def Obligations.NextAndRandbitsResults : Prop :=
  ∀ s : State, Sized s → s.status.seeded = true →
    (∀ rd : Reg, exec (.next rd) s =
      .next ((setStream (advance s.cfg.prngAlg 1 s.stream) s).withResult rd (nextU32 s.cfg.prngAlg s.stream).1.toNat)) ∧
    (∀ (rd : Reg) (k : Nat), k ≤ s.cfg.xlen → exec (.randbits rd k) s =
      .next ((setStream (advance s.cfg.prngAlg (drawCost k) s.stream) s).withResult rd (drawBits s.cfg.prngAlg k s.stream).1))

/-- R128: a `k`-bit draw is `ceil(k/32)` words, the first the least significant, the last shifted right to its top `k mod 32`
bits; it is below `2^k`, and `k = 0` draws nothing. -/
def Obligations.DrawbitsAssemblesWords : Prop :=
  ∀ (alg : PrngAlg) (k : Nat) (t : Stream),
    drawBits alg k t =
      (∑ i ∈ Finset.range (drawCost k),
        ((nextU32 alg (advance alg i t)).1.toNat / 2 ^ (if i + 1 = drawCost k ∧ k % 32 ≠ 0 then 32 - k % 32 else 0)) * 2 ^ (32 * i),
        advance alg (drawCost k) t) ∧
    (drawBits alg k t).1 < 2 ^ k ∧ drawBits alg 0 t = (0, t)

/-- R123 to R125: the words of `init_genrand` satisfy its recurrence; the words of `init_by_array` come from `init_genrand(19650218)` by
the passes `p` of its two loops, one after the other, with `i = p mod 623 + 1` and `j = p mod len`, each pass writing one word, and
`mt[0]` too when `i = 623`; it ends with `mt[0] = 0x80000000`, `mti = 624`; each word of `twist()` is made from the old words above it and the new words below it. -/
def Obligations.GeneratorRecurrences : Prop :=
  (∀ w : Word, (initGenrand w)[0] = w ∧
    ∀ i (h : i + 1 < 624), (initGenrand w)[i + 1] =
      1812433253 * ((initGenrand w)[i] ^^^ ((initGenrand w)[i] >>> 30)) + BitVec.ofNat 32 (i + 1)) ∧
  (∀ key : List Word, (initByArray key).mt[0] = 0x80000000 ∧ (initByArray key).mti = 624) ∧
  (∀ key : List Word, key ≠ [] →
    let passes := max 624 key.length
    ∃ mt : Nat → Vector Word 624, mt 0 = initGenrand 19650218 ∧
      (∀ p, p < passes + 623 →
        let before : Word := (mt p)[p % 623]'(by omega)
        let mixed (factor : Word) : Word := (mt p)[p % 623 + 1]'(by omega) ^^^ ((before ^^^ (before >>> 30)) * factor)
        let v : Word :=
          if p < passes then mixed 1664525 + key.getD (p % key.length) 0 + BitVec.ofNat 32 (p % key.length)
          else mixed 1566083941 - BitVec.ofNat 32 (p % 623 + 1)
        mt (p + 1) =
          if p % 623 + 1 = 623 then ((mt p).set (p % 623 + 1) v (by omega)).set 0 v else (mt p).set (p % 623 + 1) v (by omega)) ∧
      (initByArray key).mt = (mt (passes + 623)).set 0 0x80000000) ∧
  (∀ (mt : Vector Word 624) (k : Nat) (hk : k < 624),
    let above : Word := if h : k + 1 < 624 then mt[k + 1] else (twist mt)[0]
    let far : Word := if h : k + 397 < 624 then mt[k + 397] else (twist mt)[k - 227]'(by omega)
    let y : Word := (mt[k] &&& 0x80000000) ||| (above &&& 0x7FFFFFFF)
    (twist mt)[k] = far ^^^ (y >>> 1) ^^^ (if y.getLsbD 0 then 0x9908B0DF else 0))

/-- R126, R41: `next_u32()` takes the tempered word at `mti`, after a `twist()` when all 624 are used, moves `mti` on and adds 1 to
`PRNGCNT` mod 2^32; the tempering is the four lines of R126. -/
def Obligations.NextWordTakesTheWordAtMti : Prop :=
  ∀ t : Stream,
    (∀ h : t.gen.mti.val < 624, (nextU32 .mt19937 t).1 = temper t.gen.mt[t.gen.mti.val] ∧
      (nextU32 .mt19937 t).2.gen.mt = t.gen.mt ∧ (nextU32 .mt19937 t).2.gen.mti.val = t.gen.mti.val + 1) ∧
    (t.gen.mti.val = 624 → (nextU32 .mt19937 t).1 = temper (twist t.gen.mt)[0] ∧
      (nextU32 .mt19937 t).2.gen.mt = twist t.gen.mt ∧ (nextU32 .mt19937 t).2.gen.mti.val = 1) ∧
    (nextU32 .mt19937 t).2.cnt = t.cnt + 1 ∧
    (∀ y y1 y2 y3 : Word, y1 = y ^^^ (y >>> 11) → y2 = y1 ^^^ ((y1 <<< 7) &&& 0x9D2C5680) → y3 = y2 ^^^ ((y2 <<< 15) &&& 0xEFC60000) →
      temper y = y3 ^^^ (y3 >>> 18))

/-! ### sampler family (41_sampler.md) -/

/-- R141, R147: with `x[rs1] ≤ x[rs2]`, if `bitlen(width)`-bit draw number `j` is the first below `width`, and the cap admits it,
`SAMPLE` writes `low + draw` and has consumed the words of exactly `j + 1` draws. -/
def Obligations.SampleReturnsTheFirstAcceptedDraw : Prop :=
  ∀ s : State, Sized s → s.status.seeded = true → ∀ rd rs1 rs2 : Reg, readReg s rs1 ≤ readReg s rs2 →
    let w := intervalWidth (readReg s rs1) (readReg s rs2)
    let k := bitlen w
    ∀ j : Nat, (∀ i, i < j → w ≤ attemptDraw s.cfg.prngAlg k i s.stream) → attemptDraw s.cfg.prngAlg k j s.stream < w →
      (s.limit = 0 ∨ j < s.limit.toNat) →
      exec (.sample rd rs1 rs2) s =
        .next ((setStream (advance s.cfg.prngAlg ((j + 1) * drawCost k) s.stream) s).withResult rd
          (readReg s rs1 + attemptDraw s.cfg.prngAlg k j s.stream))

/-- R144, R147: when `LIMIT ≠ 0` and `LIMIT` draws have all been rejected, `SAMPLE` takes the fault `Limit`, and the words it has
drawn stay drawn. -/
def Obligations.SampleFaultsAtTheCap : Prop :=
  ∀ s : State, s.status.seeded = true → ∀ rd rs1 rs2 : Reg, readReg s rs1 ≤ readReg s rs2 →
    let w := intervalWidth (readReg s rs1) (readReg s rs2)
    let k := bitlen w
    s.limit ≠ 0 → (∀ i, i < s.limit.toNat → w ≤ attemptDraw s.cfg.prngAlg k i s.stream) →
      exec (.sample rd rs1 rs2) s =
        .next ((setStream (advance s.cfg.prngAlg (s.limit.toNat * drawCost k) s.stream) s).withFault 9)

/-- R141, R143, R144, R145 for the function itself, which `PTEST` also calls: an empty interval, the first accepted draw, the cap, and
no result exactly when there is no cap and no draw is ever accepted. The last clause rests on the model's bound on the search
(log 11), an inference from the number of generator states. -/
def Obligations.SampleFunctionOutcomes : Prop :=
  ∀ (alg : PrngAlg) (limit : Word) (low : Nat) (high : Int) (t : Stream),
    let w := (high - (low : Int) + 1).toNat
    let k := bitlen w
    let result := sample alg limit.toNat low high t
    (high < (low : Int) → result = .range) ∧
    ((low : Int) ≤ high →
      (∀ j : Nat, (∀ i, i < j → w ≤ attemptDraw alg k i t) → attemptDraw alg k j t < w → (limit = 0 ∨ j < limit.toNat) →
        result = .value (low + attemptDraw alg k j t) (advance alg ((j + 1) * drawCost k) t)) ∧
      (limit ≠ 0 → (∀ i, i < limit.toNat → w ≤ attemptDraw alg k i t) →
        result = .limit (advance alg (limit.toNat * drawCost k) t)) ∧
      (result = .never ↔ limit = 0 ∧ ∀ i, w ≤ attemptDraw alg k i t))

/-! ### Montgomery family (42_montgomery.md) -/

/-- R160 to R163: for odd `n` there is exactly one `Rinv < n` with `R * Rinv ≡ 1 (mod n)`, and `MONTMUL`, `TOMONT`, `FROMMONT` write the
fully reduced residues `a*b*Rinv mod n`, `a*R mod n`, `a*Rinv mod n`, for all `a`, `b`. -/
def Obligations.MontgomeryCommandResults : Prop :=
  ∀ s : State, Sized s → ∀ rd rs1 rs2 rs3 : Reg,
    let a := readReg s rs1
    let b := readReg s rs2
    let n := readReg s rs3
    n % 2 = 1 →
    ∃ r, (r < n ∧ s.cfg.radix * r % n = 1 % n) ∧ (∀ q, q < n → s.cfg.radix * q % n = 1 % n → q = r) ∧
      exec (.montmul rd rs1 rs2 rs3) s = .next (s.withResult rd (a * b * r % n)) ∧
      exec (.tomont rd rs1 rs3) s = .next (s.withResult rd (a * s.cfg.radix % n)) ∧
      exec (.frommont rd rs1 rs3) s = .next (s.withResult rd (a * r % n))

/-- R164: `MULMOD` writes `a*b mod n` for every `n ≥ 1`, even moduli too; the product is exact. -/
def Obligations.MulmodResult : Prop :=
  ∀ s : State, Sized s → ∀ rd rs1 rs2 rs3 : Reg, readReg s rs3 ≠ 0 →
    exec (.mulmod rd rs1 rs2 rs3) s = .next (s.withResult rd (readReg s rs1 * readReg s rs2 % readReg s rs3))

/-- The six identities that the spec infers from R160 to R164 ("Identities that follow from rules R160 to R164 for odd `n ≥ 1` and all
`a`, `b`"), of the functions the three commands compute. -/
def Obligations.MontgomeryIdentities : Prop :=
  ∀ (cfg : Config) (a b n : Nat), n % 2 = 1 →
    fromMont cfg (toMont cfg a n) n = a % n ∧
    montProduct cfg (toMont cfg a n) (toMont cfg b n) n = toMont cfg (a * b) n ∧
    fromMont cfg (montProduct cfg (toMont cfg a n) (toMont cfg b n) n) n = a * b % n ∧
    (montProduct cfg a (cfg.radix ^ 2 % n) n = toMont cfg a n ∧ cfg.radix ^ 2 % n = toMont cfg (toMont cfg 1 n) n) ∧
    montProduct cfg a 1 n = fromMont cfg a n ∧
    montProduct cfg a b n = montProduct cfg b a n

/-! ### exponentiation family (43_modexp.md) -/

/-- R181, and every row of R182: `MODEXP` writes `a^e mod n` with `a^0 = 1` for every `n ≥ 1`, and faults for `n = 0`. -/
def Obligations.ModexpResultAndCorners : Prop :=
  ∀ s : State, Sized s → ∀ rd rs1 rs2 rs3 : Reg,
    let a := readReg s rs1
    let e := readReg s rs2
    let n := readReg s rs3
    let result := exec (.modexp rd rs1 rs2 rs3) s
    (n ≠ 0 → result = .next (s.withResult rd (a ^ e % n))) ∧
    (e = 0 → 2 ≤ n → result = .next (s.withResult rd 1)) ∧
    (e = 0 → n = 1 → result = .next (s.withResult rd 0)) ∧
    (n = 1 → result = .next (s.withResult rd 0)) ∧
    (a = 0 → 1 ≤ e → n ≠ 0 → result = .next (s.withResult rd 0)) ∧
    (a = 1 → n ≠ 0 → result = .next (s.withResult rd (1 % n))) ∧
    (e = 1 → n ≠ 0 → result = .next (s.withResult rd (a % n))) ∧
    (n ≠ 0 → n ≤ a → result = .next (s.withResult rd ((a % n) ^ e % n))) ∧
    (n = 0 → result = .next (s.withFault 5))

/-! ### gcd and Jacobi family (44_jacobi_gcd.md) -/

/-- R190, R191: `GCD` writes the common divisor that every common divisor divides, so `gcd(a, 0) = a`, `gcd(0, 0) = 0`. -/
def Obligations.GcdResult : Prop :=
  ∀ s : State, Sized s → ∀ rd rs1 rs2 : Reg,
    ∃ g, exec (.gcd rd rs1 rs2) s = .next (s.withResult rd g) ∧ g ∣ readReg s rs1 ∧ g ∣ readReg s rs2 ∧
      ∀ d, d ∣ readReg s rs1 → d ∣ readReg s rs2 → d ∣ g

/-- R192: the evaluated symbol is the value of the clause list, clauses tested in order, for `a = -1` or `a ≥ 0` and `n ≥ 1`; the value
is -1, 0 or +1. -/
def Obligations.JacobiFollowsTheClauseList : Prop :=
  ∀ (a : Int) (n : Nat), -1 ≤ a → 1 ≤ n →
    ∀ j : Int, (jacobi a n = some j ↔ ClauseValue a n j) ∧ (ClauseValue a n j → j = -1 ∨ j = 0 ∨ j = 1)

/-- 44_jacobi_gcd.md, Termination ("terminates **unless `a = n` and `n` is odd and `n ≥ 3`**"), and 70_reset_and_hazards.md R273, first
row: in that case `JACOBI` leaves everything as it was, BUSY included (log 10, log 12); the tester's `a ≤ n - 2` never meets it. -/
def Obligations.ClauseListEndsExceptAtSelf : Prop :=
  (∀ (a : Int) (n : Nat), 0 ≤ a → 1 ≤ n → ((∃ j, ClauseValue a n j) ↔ ¬ (a = (n : Int) ∧ n % 2 = 1 ∧ 3 ≤ n))) ∧
  (∀ (s : State) (rd rs1 rs3 : Reg), Completes s → decode s.cmdreg = .ok (.jacobi rd rs1 rs3 false) →
    let a := readReg s.atCompletion rs1
    a = readReg s.atCompletion rs3 → a % 2 = 1 → 3 ≤ a → step s = .next s.atCompletion ∧ s.atCompletion.status.busy = true)

/-- R196, R197, 10_state.md R33: `JACOBI` writes the residue of the symbol to `x[rd]` and the symbol to `JSYM`. -/
def Obligations.JacobiCommandResult : Prop :=
  ∀ s : State, Sized s → ∀ (rd rs1 rs3 : Reg) (neg : Bool) (j : Int),
    let v := readReg s rs1
    let n := readReg s rs3
    n ≠ 0 → (neg = true → v ≤ 1) → ClauseValue (if neg then -(v : Int) else (v : Int)) n j →
    exec (.jacobi rd rs1 rs3 neg) s =
      .next ({ s with status := { s.status with jsym := if j = 0 then 0b00 else if j = 1 then 0b01 else 0b11 } }.withResult rd
        (if j = 0 then 0 else if j = 1 then 1 % n else n - 1))

/-- The spec's comparison with the textbook symbol ("For odd `n ≥ 1` and `a ≥ 0` with `a ≠ n`, `J(a, n)` equals the mathematical Jacobi
symbol `(a/n)`"): there the clause list has the textbook value. -/
def Obligations.JacobiIsTheTextbookSymbol : Prop :=
  ∀ (a : Int) (n : Nat), 0 ≤ a → n % 2 = 1 → a ≠ (n : Int) → jacobi a n = some (jacobiSym a n)

/-! ### primality family (45_primality.md) -/

/-- R211, R212: when all `CONF` rounds pass, `PTEST` writes 1, `PRIME = 1`, `ROUNDS = CONF`; when round `k` is the first that fails it
writes 0, `PRIME = 0`, `ROUNDS = k`; the stream has moved on by the draws of those rounds and no more. -/
def Obligations.PtestVerdict : Prop :=
  ∀ s : State, Sized s → s.status.seeded = true → ∀ rd rs3 : Reg,
    let n := readReg s rs3
    ∀ (k : Nat) (base : Nat → Nat) (strm : Nat → Stream), PassingRounds s n k base strm →
      (k = s.conf.toNat →
        exec (.ptest rd rs3) s =
          .next ({ setStream (strm k) s with status := { s.status with prime := true }, rounds := s.conf }.withResult rd 1)) ∧
      (k < s.conf.toNat → ∀ (a : Nat) (t : Stream),
        sample s.cfg.prngAlg s.limit.toNat 1 ((n : Int) - 2) (strm k) = .value a t → ¬ RoundPasses a n →
        exec (.ptest rd rs3) s =
          .next ({ setStream t s with
            status := { s.status with prime := false }, rounds := BitVec.ofNat 32 k }.withResult rd 0))

/-- R211, R213: `n ≤ 2` with `CONF ≥ 1` is the fault `Range` before any draw; a round whose sampler meets the cap is the fault `Limit`,
and the words drawn stay drawn. -/
def Obligations.PtestFaults : Prop :=
  ∀ s : State, s.status.seeded = true → ∀ rd rs3 : Reg,
    let n := readReg s rs3
    (n ≤ 2 → s.conf ≠ 0 → exec (.ptest rd rs3) s = .next (s.withFault 7)) ∧
    (∀ (k : Nat) (base : Nat → Nat) (strm : Nat → Stream) (t : Stream), PassingRounds s n k base strm → k < s.conf.toNat →
      sample s.cfg.prngAlg s.limit.toNat 1 ((n : Int) - 2) (strm k) = .limit t →
      exec (.ptest rd rs3) s = .next ((setStream t s).withFault 9))

/-- 45_primality.md, What the verdict means ("false "composite" verdicts never occur"): `PTEST` of a prime `n ≥ 3` that completes without
fault has the verdict 1, with every round passed. -/
def Obligations.PtestNeverRejectsAPrime : Prop :=
  ∀ s : State, Sized s → s.status.seeded = true → s.status.done = false → ∀ rd rs3 : Reg,
    (readReg s rs3).Prime → 3 ≤ readReg s rs3 →
    ∃ t, exec (.ptest rd rs3) s = .next t ∧
      (t.status.done = true → readReg t rd = 1 ∧ t.status.prime = true ∧ t.rounds = s.conf)

/-- 70_reset_and_hazards.md R273 ("every command not in it completes for every input"): outside its three rows every command ends
BUSY. -/
def Obligations.CommandsOutsideTheListComplete : Prop :=
  ∀ (i : Instr) (s : State), ¬ MayNotComplete i s → ∃ t, exec i s = .next t ∧ t.status.busy = false

/-! ### faults and frames (60_exceptions.md, 10_state.md) -/

/-- R236: a faulting completion writes BUSY, ERR, ERRCODE and ERRCMD; nothing else changes but the generator's advance, and that only
under `Limit`. The codes are 1 to 9 (R231). -/
def Obligations.FaultWritesOnlyTheFaultRecord : Prop :=
  ∀ s t : State, completeCommand s = .next t → s.status.err = false → t.status.err = true →
    ∃ n : Nat,
      t = { setStream (advance s.cfg.prngAlg n s.stream) s with
        status := { s.status with busy := false, err := true }, errcode := t.errcode, errcmd := s.cmdreg } ∧
      (n ≠ 0 → t.errcode = 9) ∧ 1 ≤ t.errcode.toNat ∧ t.errcode.toNat ≤ 9

/-- R233: the four commands of the PRNG class test `SEEDED` first, whatever their operands. -/
def Obligations.UnseededIsTestedFirst : Prop :=
  ∀ s : State, s.status.seeded = false → ∀ rd rs1 rs2 : Reg,
    exec (.next rd) s = .next (s.withFault 2) ∧
    (∀ k : Nat, exec (.randbits rd k) s = .next (s.withFault 2)) ∧
    exec (.sample rd rs1 rs2) s = .next (s.withFault 2) ∧
    exec (.ptest rd rs1) s = .next (s.withFault 2)

/-- R231, R237: the operand faults of every command that has one, and their order: `SeedEmpty` and `SeedLen` of `SEED`; `Operand` and
`Range` of the seeded PRNG class, `PTEST` among it; `ZeroModulus` before `EvenModulus` and before `Operand`. -/
def Obligations.OperandFaultsInOrder : Prop :=
  ∀ (s : State) (rd rs1 rs2 rs3 : Reg),
    let n := readReg s rs3
    (exec (.seed 0) s = .next (s.withFault 3) ∧
      ∀ len : Nat, s.cfg.seedMax < len → exec (.seed len) s = .next (s.withFault 4)) ∧
    (s.status.seeded = true → n ≤ 2 → s.conf ≠ 0 → exec (.ptest rd rs3) s = .next (s.withFault 7)) ∧
    (∀ k : Nat, s.status.seeded = true → s.cfg.xlen < k → exec (.randbits rd k) s = .next (s.withFault 8)) ∧
    (s.status.seeded = true → readReg s rs2 < readReg s rs1 → exec (.sample rd rs1 rs2) s = .next (s.withFault 7)) ∧
    (n = 0 → exec (.montmul rd rs1 rs2 rs3) s = .next (s.withFault 5) ∧ exec (.tomont rd rs1 rs3) s = .next (s.withFault 5) ∧
      exec (.frommont rd rs1 rs3) s = .next (s.withFault 5) ∧ exec (.mulmod rd rs1 rs2 rs3) s = .next (s.withFault 5) ∧
      exec (.modexp rd rs1 rs2 rs3) s = .next (s.withFault 5) ∧
      ∀ neg : Bool, exec (.jacobi rd rs1 rs3 neg) s = .next (s.withFault 5)) ∧
    (n ≠ 0 → n % 2 = 0 → exec (.montmul rd rs1 rs2 rs3) s = .next (s.withFault 6) ∧
      exec (.tomont rd rs1 rs3) s = .next (s.withFault 6) ∧ exec (.frommont rd rs1 rs3) s = .next (s.withFault 6)) ∧
    (n ≠ 0 → 1 < readReg s rs1 → exec (.jacobi rd rs1 rs3 true) s = .next (s.withFault 8))

/-- 10_state.md R22 and R23: a completion changes no operand register but the one its `rd` names, and that only without fault; the seed
buffer, `CONF`, `LIMIT`, `CTRL`, `DROP` and the latch keep their values, and so does every word the host can read that is neither of
`x[rd]` nor a register the completion reports in. -/
def Obligations.CommandWritesOnlyItsDestination : Prop :=
  ∀ (i : Instr) (s t : State), exec i s = .next t →
    (∀ r : Reg, destOf i ≠ some r → readReg t r = readReg s r) ∧
    (s.status.err = false → t.status.err = true → t.x = s.x) ∧
    t.seedbuf = s.seedbuf ∧ t.conf = s.conf ∧ t.limit = s.limit ∧ t.ctrl = s.ctrl ∧ t.status.drop = s.status.drop ∧
    t.cmdreg = s.cmdreg ∧ t.cfg = s.cfg ∧ t.sched = s.sched ∧
    (∀ addr : BitVec 11, (∀ r w, target s.cfg addr = .xword r w → destOf i ≠ some r) →
      target s.cfg addr ∉ [Target.status, .errcode, .errcmd, .rounds, .prngcnt] → busRead t addr = busRead s addr)

/-- 10_state.md R31, R32, R33, R37, R40, R41: only `PTEST` writes `PRIME` and `ROUNDS`, only `JACOBI` writes `JSYM`, only `SEED` writes
`SEEDED`, only the PRNG class and `SEED` move the generator and `PRNGCNT`, and only a fault writes `ERRCODE` and `ERRCMD`. -/
def Obligations.FlagsHaveOneWriter : Prop :=
  ∀ (i : Instr) (s t : State), exec i s = .next t →
    (mnemonicOf i ≠ "PTEST" → t.status.prime = s.status.prime ∧ t.rounds = s.rounds) ∧
    (mnemonicOf i ≠ "JACOBI" → t.status.jsym = s.status.jsym) ∧
    (mnemonicOf i ≠ "SEED" → t.status.seeded = s.status.seeded) ∧
    (mnemonicOf i ∉ ["SEED", "NEXT", "RANDBITS", "SAMPLE", "PTEST"] → t.prng = s.prng ∧ t.prngcnt = s.prngcnt) ∧
    (t.status.err = false → t.errcode = s.errcode ∧ t.errcmd = s.errcmd)

/-- 10_state.md R28 ("Exactly one of `DONE`, `ERR` is set by each completion"), for a command in flight, in states with the flag
invariants of R48; a command that does not complete leaves the state as it is (log 10). -/
def Obligations.CompletionSetsOneOfDoneAndErr : Prop :=
  ∀ s : State, FlagsOk s → s.status.busy = true → ∃ t, completeCommand s = .next t ∧
    (t = s ∨ (t.status.busy = false ∧
      ((t.status.done = true ∧ t.status.err = false) ∨ (t.status.done = false ∧ t.status.err = true))))

/-! ### invariants (10_state.md R48) -/

/-- The invariant holds of the reset state of every legal configuration, and of the default one (R47). -/
def Obligations.ResetSatisfiesTheInvariant : Prop :=
  (∀ cfg : Config, cfg.legal → Invariant (State.resetWith cfg)) ∧ Invariant State.reset

/-- Every step from a state with the invariant leads to a state with it: widths, flag exclusions, `JSYM ≠ 0b10`, codes 0 to 9, and a seeded
generator that is some number of `next_u32()` from a seed, `PRNGCNT` being that number (R48, R41, R8). -/
def Obligations.StepKeepsTheInvariant : Prop :=
  ∀ s t : State, Invariant s → step s = .next t → Invariant t

/-- R48, R31: `SEEDED` returns from 1 to 0 by reset only; the configuration never changes (R11; a field of the model, log 1). -/
def Obligations.SeededFallsOnlyByReset : Prop :=
  ∀ s t : State, step s = .next t →
    (s.status.seeded = true → t.status.seeded = false → ResetsEngine s.cfg s.edge) ∧
    t.cfg = s.cfg ∧ t.sched = s.sched.tail

/-- R29, R241: `ERR` falls only by the host's write of 1 to bit 2 or by reset, and that write keeps `ERRCODE` and `ERRCMD`; while it is 1
an idle engine accepts no command. -/
def Obligations.ErrIsStickyAndBlocksCommands : Prop :=
  ∀ s t : State, step s = .next t → s.status.err = true → ¬ ResetsEngine s.cfg s.edge →
    (t.status.err = false →
      (∃ addr w, s.edge.access = some (.write addr w) ∧ target s.cfg addr = .status ∧ w.getLsbD 2 = true) ∧
      t.errcode = s.errcode ∧ t.errcmd = s.errcmd) ∧
    (s.status.busy = false → t.status.busy = false ∧ t.cmdreg = s.cmdreg)

/-- R27, R30 and 20_memory.md R68, R72: during a busy period nothing but `DONE`, `ERR`, `DROP` and the enables can change, and every
offset but `STATUS` and `CTRL` reads as before. -/
def Obligations.BusyPeriodKeepsTheState : Prop :=
  ∀ s : State, s.status.busy = true → s.edge.finish = false → ¬ ResetsEngine s.cfg s.edge →
    ∃ t, step s = .next t ∧
      t = { s with sched := s.sched.tail, ctrl := t.ctrl,
                   status := { s.status with done := t.status.done, err := t.status.err, drop := t.status.drop } } ∧
      (s.status.done = false → t.status.done = false) ∧
      (∀ addr : BitVec 11, target s.cfg addr ∉ [Target.status, .ctrl] → busRead t addr = busRead s addr)

/-! ### reset (70_reset_and_hazards.md) -/

/-- R260, R261: an edge with `rst = 1` resets the engine whatever the access, which is ignored; a read there returns 0. The values the
model gives `mt`, `mti`, `cmdreg` are its own (log 3, log 4). -/
def Obligations.RstEdgeResets : Prop :=
  ∀ s : State, s.edge.rst = true →
    step s = .next { State.resetWith s.cfg with sched := s.sched.tail } ∧
    (∀ addr, s.edge.access = some (.read addr) → s.rdata = some 0)

/-- R262: a write to `CTRL` with bit 31 set resets the engine at its edge in every state and whatever the other bits; `SRST` reads 0;
while busy the only other writes with an effect besides `DROP` are those to `STATUS` and `CTRL`. The values the model gives `mt`, `mti`,
`cmdreg` at the reset are its own (log 3, log 4). -/
def Obligations.SoftReset : Prop :=
  ∀ (s : State) (addr : BitVec 11) (w : Word),
    (s.edge.rst = false → s.edge.access = some (.write addr w) → target s.cfg addr = .ctrl → w.getLsbD 31 = true →
      step s = .next { State.resetWith s.cfg with sched := s.sched.tail }) ∧
    (target s.cfg addr = .ctrl → (busRead s addr).getLsbD 31 = false) ∧
    (s.status.busy = true → target s.cfg addr ∉ [Target.status, .ctrl] →
      busWrite s addr w = s ∨ busWrite s addr w = { s with status := { s.status with drop := true } })

/-- R47: what the host reads after reset, at every offset, and `irq`. The registers no read shows (`mt`, `mti`, `cmdreg`) have values of the
model's own (log 3, log 4) and are not in the statement. -/
def Obligations.ResetReadValues : Prop :=
  ∀ cfg : Config, (∀ addr : BitVec 11, busRead (State.resetWith cfg) addr =
    (if target cfg addr = .conf then 32
     else if target cfg addr = .id then 0x4D4F4E54
     else if target cfg addr = .param then paramWord cfg
     else 0)) ∧
    (State.resetWith cfg).irq = false

/-! ### the register space (20_memory.md) -/

/-- R62: what every byte offset `4 * addr` names. -/
def Obligations.AddressMapFollowsTheTable : Prop :=
  ∀ cfg : Config, cfg.legal →
    [0x0000, 0x0004, 0x0008, 0x000C, 0x0010, 0x0014, 0x0018, 0x001C, 0x0020, 0x0024, 0x0028].map
        (fun offset => target cfg (BitVec.ofNat 11 (offset / 4))) =
      [.cmd, .status, .ctrl, .conf, .limit, .errcode, .errcmd, .rounds, .prngcnt, .id, .param] ∧
    ∀ addr : BitVec 11,
      (0x002C ≤ 4 * addr.toNat → 4 * addr.toNat ≤ 0x00FC → target cfg addr = .reserved) ∧
      (∀ i, 4 * addr.toNat = 0x0100 + 4 * i → i < cfg.seedMax → target cfg addr = .seed i) ∧
      (∀ i, 4 * addr.toNat = 0x0100 + 4 * i → cfg.seedMax ≤ i → i < 64 → target cfg addr = .reserved) ∧
      (0x0200 ≤ 4 * addr.toNat → 4 * addr.toNat ≤ 0x0FFC → target cfg addr = .reserved) ∧
      (∀ (r : Reg) (i : Nat), 4 * addr.toNat = 0x1000 + 0x100 * r.val + 4 * i → i < cfg.L → target cfg addr = .xword r i) ∧
      (∀ (r : Reg) (i : Nat), 4 * addr.toNat = 0x1000 + 0x100 * r.val + 4 * i → cfg.L ≤ i → i < 64 →
        target cfg addr = .reserved)

/-- R68 and 10_state.md R22: in an idle engine a word of an operand register, of the seed buffer, `CONF` or `LIMIT` reads back what was
written to it, and every other offset of the register space reads as before. -/
def Obligations.WriteThenReadAnyWord : Prop :=
  ∀ (s : State) (addr : BitVec 11) (w : Word), Sized s → s.status.busy = false →
    ((∃ r i, target s.cfg addr = .xword r i) ∨ (∃ i, target s.cfg addr = .seed i) ∨ target s.cfg addr = .conf ∨
      target s.cfg addr = .limit) →
    busRead (busWrite s addr w) addr = w ∧ ∀ other, other ≠ addr → busRead (busWrite s addr w) other = busRead s other

/-- 30_encoding.md R102 (`LOAD`), R65, R274: the `L` word writes, least significant word first, put `value` into `x[r]` and change nothing
else. -/
def Obligations.HostLoadWritesTheRegister : Prop :=
  ∀ (s : State) (r : Reg) (value : Nat) (rest : List Edge), Sized s → s.status.busy = false → value < s.cfg.radix →
    Host.Core.run Sys2Proof.core s.cfg.L { s with sched := hostLoad s.cfg r value ++ rest } =
      .next { s with x := s.x.set r.val value, sched := rest }

/-- R68: a write to a word of an operand register, of the seed buffer, to `CONF` or to `LIMIT` is dropped while BUSY, else it writes its
target. -/
def Obligations.OperandWriteRule : Prop :=
  ∀ (s : State) (addr : BitVec 11) (w : Word),
    let t := busWrite s addr w
    ((∃ r i, target s.cfg addr = .xword r i) ∨ (∃ i, target s.cfg addr = .seed i) ∨ target s.cfg addr = .conf ∨
      target s.cfg addr = .limit → s.status.busy = true → t = { s with status := { s.status with drop := true } }) ∧
    (s.status.busy = false →
      (∀ r i, target s.cfg addr = .xword r i → t = { s with x := s.x.set r.val (putWord (readReg s r) i w) }) ∧
      (∀ i, target s.cfg addr = .seed i → t = { s with seedbuf := s.seedbuf.set i w }) ∧
      (target s.cfg addr = .conf → t = { s with conf := w }) ∧
      (target s.cfg addr = .limit → t = { s with limit := w }))

/-- R69: a write to `CMD` is dropped while BUSY or ERR, else it is accepted, whatever the value; a word that spells no command then
completes with `Illegal`; `CMD` reads 0. -/
def Obligations.CommandWriteRule : Prop :=
  ∀ (s : State) (addr : BitVec 11) (w : Word), target s.cfg addr = .cmd →
    let accepted : State := { s with cmdreg := w, status := { s.status with busy := true, done := false } }
    (s.status.busy = true ∨ s.status.err = true → busWrite s addr w = { s with status := { s.status with drop := true } }) ∧
    (s.status.busy = false → s.status.err = false → busWrite s addr w = accepted ∧
      (∀ e, decode w = .error e → completeCommand accepted = .next (accepted.withFault 1))) ∧
    busRead s addr = 0

/-- R70: a write to `STATUS` clears bits 1, 2, 3 where it has a 1 and does nothing else, busy or not; a completion at the same edge
comes after the clearing, so its bit ends up 1. -/
def Obligations.StatusWriteRule : Prop :=
  ∀ (s : State) (addr : BitVec 11) (w : Word), target s.cfg addr = .status →
    busWrite s addr w = { s with status := { s.status with
      done := if w.getLsbD 1 then false else s.status.done
      err := if w.getLsbD 2 then false else s.status.err
      drop := if w.getLsbD 3 then false else s.status.drop } } ∧
    (Completes s → s.edge.access = some (.write addr w) →
      step s = completeCommand (busWrite s.popEdge addr w) ∧
      ∀ t, completeCommand (busWrite s.popEdge addr w) = .next t → t.status.busy = false →
        t.status.done = true ∨ t.status.err = true)

/-- R71: a write to `CTRL` with bit 31 resets the engine, else it writes the two enables, busy or not. The values the model gives `mt`,
`mti`, `cmdreg` at the reset are its own (log 3, log 4). -/
def Obligations.ControlWriteRule : Prop :=
  ∀ (s : State) (addr : BitVec 11) (w : Word), target s.cfg addr = .ctrl →
    busWrite s addr w =
      if w.getLsbD 31 then { State.resetWith s.cfg with sched := s.sched }
      else { s with ctrl := { ieDone := w.getLsbD 0, ieErr := w.getLsbD 1 } }

/-- R63: a reserved offset reads 0 and ignores writes, and so do the read-only registers, without `DROP`. -/
def Obligations.ReservedAndReadOnlyIgnoreWrites : Prop :=
  ∀ (s : State) (addr : BitVec 11) (w : Word),
    (target s.cfg addr = .reserved → busRead s addr = 0 ∧ busWrite s addr w = s) ∧
    (target s.cfg addr ∈ [Target.errcode, .errcmd, .rounds, .prngcnt, .id, .param] → busWrite s addr w = s)

/-- R61, R67: a read returns the value of the state before its edge and changes nothing: the step is that of the edge without it. -/
def Obligations.ReadsHaveNoSideEffects : Prop :=
  ∀ (s : State) (addr : BitVec 11) (finish : Bool) (rest : List Edge),
    step { s with sched := ⟨false, some (.read addr), finish⟩ :: rest } = step { s with sched := ⟨false, none, finish⟩ :: rest } ∧
    { s with sched := ⟨false, some (.read addr), finish⟩ :: rest : State }.rdata = some (busRead s addr)

/-- R270, an inference of the spec ("a write sampled at the very clock edge at which the command completes still sees `BUSY = 1`"; the
model's order within an edge, log 9): the write is dropped, and the command completes. -/
def Obligations.WriteAtTheCompletionEdgeIsDropped : Prop :=
  ∀ (s : State) (addr : BitVec 11) (w : Word), s.edge = ⟨false, some (.write addr w), true⟩ → s.status.busy = true →
    ((∃ r i, target s.cfg addr = .xword r i) ∨ (∃ i, target s.cfg addr = .seed i) ∨ target s.cfg addr = .conf ∨
      target s.cfg addr = .limit ∨ target s.cfg addr = .cmd) →
    step s = completeCommand { s with sched := s.sched.tail, status := { s.status with drop := true } }

/-- 10_state.md R26, R34, R46: the bits of `STATUS` and `CTRL` as the host reads them, and `irq` as a function of them. -/
def Obligations.StatusControlAndIrqBits : Prop :=
  ∀ (s : State) (as ac : BitVec 11), target s.cfg as = .status → target s.cfg ac = .ctrl →
    let f := busRead s as
    let c := busRead s ac
    f.getLsbD 0 = s.status.busy ∧ f.getLsbD 1 = s.status.done ∧ f.getLsbD 2 = s.status.err ∧ f.getLsbD 3 = s.status.drop ∧
    f.getLsbD 4 = s.status.seeded ∧ f.getLsbD 5 = s.status.prime ∧ f.extractLsb' 6 2 = s.status.jsym ∧ f >>> 8 = 0 ∧
    c.getLsbD 0 = s.ctrl.ieDone ∧ c.getLsbD 1 = s.ctrl.ieErr ∧ c >>> 2 = 0 ∧
    s.irq = ((f.getLsbD 1 && c.getLsbD 0) || (f.getLsbD 2 && c.getLsbD 1))

/-- 10_state.md R38, R39: `ID` is its constant, `PARAM` shows `L`, `SEEDMAX`, `NREG = 16` and version 1 a byte each, `0x01101008` with the
default parameters; writes to both are ignored without `DROP`. -/
def Obligations.IdAndParamAreConstants : Prop :=
  (∀ (s : State) (addr : BitVec 11) (w : Word), s.cfg.legal →
    (target s.cfg addr = .id → busRead s addr = 0x4D4F4E54 ∧ busWrite s addr w = s) ∧
    (target s.cfg addr = .param →
      ((busRead s addr).extractLsb' 0 8).toNat = s.cfg.L ∧ ((busRead s addr).extractLsb' 8 8).toNat = s.cfg.seedMax ∧
      (busRead s addr).extractLsb' 16 8 = 16 ∧ (busRead s addr).extractLsb' 24 8 = 1 ∧ busWrite s addr w = s)) ∧
  paramWord Config.default = 0x01101008

/-! ### what the host cannot learn -/

/-- 10_state.md R43, R47: while unseeded, the generator's hidden state is unobservable: two engines that differ in it alone, given the
same inputs, drive the same `rdata` and `irq` after any number of edges. So the value the model gives it at reset (log 3) cannot be
seen. -/
def Obligations.UnseededGeneratorIsUnobservable : Prop :=
  ∀ s t : State, SameButGenerator s t → s.status.seeded = false →
    ∀ k : Nat, ∃ s' t', Host.Core.run Sys2Proof.core k s = .next s' ∧ Host.Core.run Sys2Proof.core k t = .next t' ∧
      s'.rdata = t'.rdata ∧ s'.irq = t'.irq

/-- 10_state.md R25, R45, R47: with no command in flight the latch is unobservable: two idle engines that differ in it alone, given the
same inputs, drive the same `rdata` and `irq` after any number of edges. So its value at reset (log 4) cannot be seen. -/
def Obligations.IdleLatchIsUnobservable : Prop :=
  ∀ s t : State, SameButLatch s t → s.status.busy = false →
    ∀ k : Nat, ∃ s' t', Host.Core.run Sys2Proof.core k s = .next s' ∧ Host.Core.run Sys2Proof.core k t = .next t' ∧
      s'.rdata = t'.rdata ∧ s'.irq = t'.irq
end

