-- ==== Sys2Proof/Laws/Arith.lean ====
section
/-! SUPPORT. The integer functions inside a command: each computes the number the spec's formula names. -/

namespace Sys2Proof.Machine

/-! ### bit length -/

theorem bitlen_zero : bitlen 0 = 0 := rfl

theorem bitlen_pos {v : Nat} (h : 0 < v) : 0 < bitlen v := by
  unfold bitlen; split <;> omega

/-- 00_scope.md R14: the upper bound. -/
theorem lt_two_pow_bitlen (v : Nat) : v < 2 ^ bitlen v := by
  unfold bitlen
  split
  · omega
  · exact Nat.lt_log2_self

/-- 00_scope.md R14: the lower bound. -/
theorem two_pow_bitlen_le {v : Nat} (h : 0 < v) : 2 ^ (bitlen v - 1) ≤ v := by
  have h0 : v ≠ 0 := by omega
  simp only [bitlen, h0, if_false, Nat.add_sub_cancel]
  exact Nat.log2_self_le h0

/-! ### modular power -/

theorem powModLoop_eq (n : Nat) :
    ∀ bits acc base e : Nat, e < 2 ^ bits → powModLoop n bits acc base e = acc * base ^ e % n := by
  intro bits
  induction bits with
  | zero =>
    intro acc base e he
    have h0 : e = 0 := by simpa using he
    simp [powModLoop, h0]
  | succ b ih =>
    intro acc base e he
    have hhalf : e / 2 < 2 ^ b := by rw [pow_succ] at he; omega
    have hpow : (base * base % n) ^ (e / 2) ≡ base ^ (2 * (e / 2)) [MOD n] := by
      rw [pow_mul, pow_two]; exact (Nat.mod_modEq _ _).pow _
    rw [powModLoop, ih _ _ _ hhalf]
    rcases Nat.mod_two_eq_zero_or_one e with h | h
    · have hn : ¬ e % 2 = 1 := by omega
      have he2 : 2 * (e / 2) = e := by omega
      rw [if_neg hn]
      rw [he2] at hpow
      exact (Nat.ModEq.refl acc).mul hpow
    · have he2 : e = 2 * (e / 2) + 1 := by omega
      rw [if_pos h]
      have h1 : acc * base % n * (base * base % n) ^ (e / 2) ≡ acc * base * base ^ (2 * (e / 2)) [MOD n] :=
        (Nat.mod_modEq _ _).mul hpow
      have h2 : acc * base * base ^ (2 * (e / 2)) = acc * base ^ e := by
        conv_rhs => rw [he2, pow_succ]
        ring
      rw [← h2]; exact h1

/-- 43_modexp.md R181: the square-and-multiply loop computes `a^e mod n`, with `a^0 = 1`. -/
theorem powMod_eq (a e n : Nat) : powMod a e n = a ^ e % n := by
  unfold powMod
  rw [powModLoop_eq n _ _ _ _ (lt_two_pow_bitlen e), Nat.one_mul]
  exact (Nat.mod_modEq a n).pow e

/-! ### the inverse of the radix -/

theorem rinv_lt (c : Config) {n : Nat} (h : 0 < n) : rinv c n < n := by
  rw [rinv, powMod_eq]; exact Nat.mod_lt _ h

/-- 42_montgomery.md R160: `R * Rinv(n) ≡ 1 (mod n)` for odd `n`. -/
theorem radix_mul_rinv (c : Config) {n : Nat} (h : n % 2 = 1) : c.radix * rinv c n ≡ 1 [MOD n] := by
  rw [rinv, powMod_eq]
  have h2 : 2 * ((n + 1) / 2) = n + 1 := by omega
  have : c.radix * ((n + 1) / 2) ^ c.xlen ≡ 1 [MOD n] := by
    rw [Config.radix, ← mul_pow, h2]
    have h1 : n + 1 ≡ 1 [MOD n] := by simp [Nat.ModEq]
    simpa using h1.pow c.xlen
  exact ((Nat.ModEq.refl _).mul (Nat.mod_modEq _ _)).trans this

/-- 42_montgomery.md R160: `Rinv(n)` is the unique number below `n` with that property. -/
theorem eq_rinv (c : Config) {n r : Nat} (h : n % 2 = 1) (hr : r < n) (hm : c.radix * r ≡ 1 [MOD n]) :
    r = rinv c n := by
  have hn : 0 < n := by omega
  have h1 : rinv c n * (c.radix * r) ≡ rinv c n * 1 [MOD n] := hm.mul_left _
  have h2 : c.radix * rinv c n * r ≡ 1 * r [MOD n] := (radix_mul_rinv c h).mul_right _
  have h3 : r ≡ rinv c n [MOD n] := by
    calc r = 1 * r := (Nat.one_mul r).symm
      _ ≡ c.radix * rinv c n * r [MOD n] := h2.symm
      _ = rinv c n * (c.radix * r) := by ring
      _ ≡ rinv c n * 1 [MOD n] := h1
      _ = rinv c n := Nat.mul_one _
  exact Nat.ModEq.eq_of_lt_of_lt h3 hr (rinv_lt c hn)

/-! ### the symbol's residue (44_jacobi_gcd.md R197) -/

theorem symbolMod_zero (n : Nat) : symbolMod 0 n = 0 := by simp [symbolMod]

theorem symbolMod_one {n : Nat} (h : 2 ≤ n) : symbolMod 1 n = 1 := by
  unfold symbolMod
  rw [Int.emod_eq_of_lt (by omega) (by omega)]; rfl

theorem symbolMod_neg_one {n : Nat} (h : 1 ≤ n) : symbolMod (-1) n = n - 1 := by
  unfold symbolMod
  have e : (-1 : Int) % (n : Int) = (n : Int) - 1 := by
    rw [← Int.add_emod_right, Int.emod_eq_of_lt] <;> omega
  rw [e]; omega

theorem symbolMod_lt (j : Int) {n : Nat} (h : 0 < n) : symbolMod j n < n := by
  unfold symbolMod
  have h1 := Int.emod_nonneg j (b := (n : Int)) (by omega)
  have h2 := Int.emod_lt_of_pos j (b := (n : Int)) (by omega)
  omega

theorem symbolMod_cast (j : Int) {n : Nat} (h : 0 < n) : (symbolMod j n : Int) = j % (n : Int) := by
  unfold symbolMod
  exact Int.toNat_of_nonneg (Int.emod_nonneg j (by omega))

/-! ### the clause list (44_jacobi_gcd.md R192) -/

/-- What every recursive clause decreases: twice the sum of the arguments, and one more while `a < n`. -/
def clauseMeasure (a : Int) (n : Nat) : Nat := 2 * (a.toNat + n) + (if a < (n : Int) then 1 else 0)

/-- Beyond the measure the depth does not matter. -/
theorem jacobiClauses_depth :
    ∀ (d e : Nat) (a : Int) (n : Nat), 1 ≤ n → clauseMeasure a n < d → clauseMeasure a n < e → -1 ≤ a →
      jacobiClauses d a n = jacobiClauses e a n := by
  intro d
  induction d with
  | zero => intro e a n _ h; omega
  | succ d ih =>
    intro e a n hn hd he ha
    obtain ⟨e, rfl⟩ : ∃ e', e = e' + 1 := ⟨e - 1, by omega⟩
    have hn' : (0 : Int) < (n : Int) := by omega
    simp only [jacobiClauses]
    split
    · rfl
    split
    · rfl
    split
    · rfl
    split
    · rfl
    rename_i h0 h1 hm h2
    have ha3 : 3 ≤ a := by omega
    split
    · rename_i hgt
      have hb := Int.emod_nonneg a (b := (n : Int)) (by omega)
      have hl := Int.emod_lt_of_pos a (b := (n : Int)) hn'
      have hm' : clauseMeasure (a % (n : Int)) n < clauseMeasure a n := by
        unfold clauseMeasure
        rw [if_pos hl, if_neg (by omega)]
        have : (a % (n : Int)).toNat < a.toNat := by omega
        omega
      exact ih e _ n hn (by omega) (by omega) (by omega)
    split
    · rename_i hle hev
      have hm' : clauseMeasure (a / 2) n < clauseMeasure a n := by
        unfold clauseMeasure
        have : (a / 2).toNat < a.toNat := by omega
        split <;> split <;> omega
      rw [ih e (a / 2) n hn (by omega) (by omega) (by omega)]
    split
    · rfl
    rename_i hle hodd hne
    have hlt : a < (n : Int) := by omega
    have hm' : clauseMeasure (n : Int) a.toNat < clauseMeasure a n := by
      unfold clauseMeasure
      rw [if_pos hlt, if_neg (by omega)]
      have : (n : Int).toNat = n := by omega
      omega
    have key := ih e (n : Int) a.toNat (by omega) (by omega) (by omega) (by omega)
    rw [key]

theorem clauseMeasure_lt (a : Int) (n : Nat) : clauseMeasure a n < 2 * (a.toNat + n) + 2 := by
  unfold clauseMeasure; split <;> omega

theorem jacobi_eq_of_depth {d : Nat} {a : Int} {n : Nat} (hn : 1 ≤ n) (ha : -1 ≤ a) (hd : clauseMeasure a n < d) :
    jacobiClauses d a n = jacobi a n :=
  jacobiClauses_depth _ _ a n hn hd (clauseMeasure_lt a n) ha

/-- c1. -/
theorem jacobi_zero (n : Nat) : jacobi 0 n = some (if n = 1 then 1 else 0) := by
  simp [jacobi, jacobiClauses]

/-- c2. -/
theorem jacobi_one (n : Nat) : jacobi 1 n = some 1 := by
  simp [jacobi, jacobiClauses]

/-- c3. -/
theorem jacobi_neg_one (n : Nat) : jacobi (-1) n = some (if n % 2 = 0 then 1 else -1) := by
  simp [jacobi, jacobiClauses]

/-- c4. -/
theorem jacobi_two (n : Nat) : jacobi 2 n = some (jacobiTwo n) := by
  simp [jacobi, jacobiClauses]

/-- c5. -/
theorem jacobi_reduce {a : Int} {n : Nat} (hn : 1 ≤ n) (ha : 3 ≤ a) (h : (n : Int) < a) :
    jacobi a n = jacobi (a % (n : Int)) n := by
  have hb := Int.emod_nonneg a (b := (n : Int)) (by omega)
  have hl := Int.emod_lt_of_pos a (b := (n : Int)) (by omega)
  rw [← jacobi_eq_of_depth (a := a % (n : Int)) (d := 2 * (a.toNat + n) + 1) hn (by omega)]
  · conv_lhs => unfold jacobi jacobiClauses
    rw [if_neg (by omega), if_neg (by omega), if_neg (by omega), if_neg (by omega), if_pos h]
  · unfold clauseMeasure; split <;> omega

/-- c6. -/
theorem jacobi_even {a : Int} {n : Nat} (hn : 1 ≤ n) (ha : 3 ≤ a) (h : a ≤ (n : Int)) (hev : a % 2 = 0) :
    jacobi a n = (jacobi (a / 2) n).map (fun j => jacobiTwo n * j) := by
  rw [← jacobi_eq_of_depth (a := a / 2) (d := 2 * (a.toNat + n) + 1) hn (by omega)]
  · conv_lhs => unfold jacobi jacobiClauses
    rw [if_neg (by omega), if_neg (by omega), if_neg (by omega), if_neg (by omega), if_neg (by omega), if_pos hev]
  · unfold clauseMeasure; split <;> omega

/-- c7. -/
theorem jacobi_swap_neg {a : Int} {n : Nat} (ha : 3 ≤ a) (h : a < (n : Int)) (h4 : a % 4 = 3)
    (hn4 : n % 4 = 3) : jacobi a n = (jacobi (n : Int) a.toNat).map (fun j => -j) := by
  rw [← jacobi_eq_of_depth (a := (n : Int)) (n := a.toNat) (d := 2 * (a.toNat + n) + 1) (by omega) (by omega)]
  · conv_lhs => unfold jacobi jacobiClauses
    rw [if_neg (by omega), if_neg (by omega), if_neg (by omega), if_neg (by omega), if_neg (by omega),
      if_neg (by omega), if_neg (by omega), if_pos ⟨h4, hn4⟩]
  · unfold clauseMeasure; split <;> omega

/-- c8. -/
theorem jacobi_swap {a : Int} {n : Nat} (ha : 3 ≤ a) (h : a < (n : Int)) (hodd : a % 2 = 1)
    (h4 : ¬ (a % 4 = 3 ∧ n % 4 = 3)) : jacobi a n = jacobi (n : Int) a.toNat := by
  rw [← jacobi_eq_of_depth (a := (n : Int)) (n := a.toNat) (d := 2 * (a.toNat + n) + 1) (by omega) (by omega)]
  · conv_lhs => unfold jacobi jacobiClauses
    rw [if_neg (by omega), if_neg (by omega), if_neg (by omega), if_neg (by omega), if_neg (by omega),
      if_neg (by omega), if_neg (by omega), if_neg h4]
  · unfold clauseMeasure; split <;> omega

/-- R194: the call that is its own recursive call has no value. -/
theorem jacobi_self {n : Nat} (h : 3 ≤ n) (hodd : n % 2 = 1) : jacobi (n : Int) n = none := by
  unfold jacobi jacobiClauses
  rw [if_neg (by omega), if_neg (by omega), if_neg (by omega), if_neg (by omega), if_neg (by omega),
    if_neg (by omega), if_pos rfl]

end Sys2Proof.Machine
end

