-- ==== Sys2Proof/Laws/Encoding.lean ====
section
/-! SUPPORT. The fields of a packed command word, once per format (30_encoding.md R91 to R93). -/

namespace Sys2Proof

/-- A word of format R is the sum of its fields, none of which runs into the next. -/
theorem packR_toNat {op fn : Nat} (h : op < 256) (hf : fn < 256) (rd rs1 rs2 rs3 : Reg) :
    (packR op rd rs1 rs2 rs3 fn).toNat =
      op + rd.val * 2 ^ 8 + rs1.val * 2 ^ 12 + rs2.val * 2 ^ 16 + rs3.val * 2 ^ 20 + fn * 2 ^ 24 := by
  unfold packR; rw [BitVec.toNat_ofNat]; apply Nat.mod_eq_of_lt; omega

/-- A word of format I is the sum of its fields. -/
theorem packI_toNat {op imm16 : Nat} (h : op < 256) (hi : imm16 < 65536) (rd : Reg) :
    (packI op rd imm16).toNat = op + rd.val * 2 ^ 8 + imm16 * 2 ^ 16 := by
  unfold packI; rw [BitVec.toNat_ofNat]; apply Nat.mod_eq_of_lt; omega

section
variable {op fn : Nat} (h : op < 256) (hf : fn < 256) (rd rs1 rs2 rs3 : Reg)
include h hf

theorem opcodeOf_packR : opcodeOf (packR op rd rs1 rs2 rs3 fn) = op := by
  unfold opcodeOf field; rw [packR_toNat h hf]; omega

theorem rdOf_packR : rdOf (packR op rd rs1 rs2 rs3 fn) = rd := by
  apply Fin.ext; show field 8 4 _ = _; unfold field; rw [packR_toNat h hf]; omega

theorem rs1Of_packR : rs1Of (packR op rd rs1 rs2 rs3 fn) = rs1 := by
  apply Fin.ext; show field 12 4 _ = _; unfold field; rw [packR_toNat h hf]; omega

theorem rs2Of_packR : rs2Of (packR op rd rs1 rs2 rs3 fn) = rs2 := by
  apply Fin.ext; show field 16 4 _ = _; unfold field; rw [packR_toNat h hf]; omega

theorem rs3Of_packR : rs3Of (packR op rd rs1 rs2 rs3 fn) = rs3 := by
  apply Fin.ext; show field 20 4 _ = _; unfold field; rw [packR_toNat h hf]; omega

theorem field_rs1_packR : field 12 4 (packR op rd rs1 rs2 rs3 fn) = rs1.val := by
  unfold field; rw [packR_toNat h hf]; omega

theorem field_rs2_packR : field 16 4 (packR op rd rs1 rs2 rs3 fn) = rs2.val := by
  unfold field; rw [packR_toNat h hf]; omega

theorem field_rs3_packR : field 20 4 (packR op rd rs1 rs2 rs3 fn) = rs3.val := by
  unfold field; rw [packR_toNat h hf]; omega

theorem field_fn_packR : field 24 8 (packR op rd rs1 rs2 rs3 fn) = fn := by
  unfold field; rw [packR_toNat h hf]; omega

theorem field_fn0_packR : field 24 1 (packR op rd rs1 rs2 rs3 fn) = fn % 2 := by
  unfold field; rw [packR_toNat h hf]; omega

theorem field_fn7_packR : field 25 7 (packR op rd rs1 rs2 rs3 fn) = fn / 2 := by
  unfold field; rw [packR_toNat h hf]; omega

end

section
variable {op imm16 : Nat} (h : op < 256) (hi : imm16 < 65536) (rd : Reg)
include h hi

theorem opcodeOf_packI : opcodeOf (packI op rd imm16) = op := by
  unfold opcodeOf field; rw [packI_toNat h hi]; omega

theorem rdOf_packI : rdOf (packI op rd imm16) = rd := by
  apply Fin.ext; show field 8 4 _ = _; unfold field; rw [packI_toNat h hi]; omega

theorem imm16Of_packI : imm16Of (packI op rd imm16) = imm16 := by
  unfold imm16Of field; rw [packI_toNat h hi]; omega

theorem field_rd_packI : field 8 4 (packI op rd imm16) = rd.val := by
  unfold field; rw [packI_toNat h hi]; omega

theorem field_zero_packI : field 12 4 (packI op rd imm16) = 0 := by
  unfold field; rw [packI_toNat h hi]; omega

end

end Sys2Proof
end

