-- ==== Sys2Proof/Laws/State.lean ====
section
/-! SUPPORT. What each update of State does to each field, one lemma a field, true by rfl and tagged @[simp], so that no
later proof unfolds a record update. -/

namespace Sys2Proof.Machine

variable (s : State)

/-! ### writeReg -/

@[simp] theorem writeReg_cfg (r : Reg) (v : Nat) : (writeReg r v s).cfg = s.cfg := rfl
@[simp] theorem writeReg_x (r : Reg) (v : Nat) : (writeReg r v s).x = s.x.set r.val (v % s.cfg.radix) := rfl
@[simp] theorem writeReg_seedbuf (r : Reg) (v : Nat) : (writeReg r v s).seedbuf = s.seedbuf := rfl
@[simp] theorem writeReg_prng (r : Reg) (v : Nat) : (writeReg r v s).prng = s.prng := rfl
@[simp] theorem writeReg_status (r : Reg) (v : Nat) : (writeReg r v s).status = s.status := rfl
@[simp] theorem writeReg_ctrl (r : Reg) (v : Nat) : (writeReg r v s).ctrl = s.ctrl := rfl
@[simp] theorem writeReg_conf (r : Reg) (v : Nat) : (writeReg r v s).conf = s.conf := rfl
@[simp] theorem writeReg_limit (r : Reg) (v : Nat) : (writeReg r v s).limit = s.limit := rfl
@[simp] theorem writeReg_errcode (r : Reg) (v : Nat) : (writeReg r v s).errcode = s.errcode := rfl
@[simp] theorem writeReg_errcmd (r : Reg) (v : Nat) : (writeReg r v s).errcmd = s.errcmd := rfl
@[simp] theorem writeReg_rounds (r : Reg) (v : Nat) : (writeReg r v s).rounds = s.rounds := rfl
@[simp] theorem writeReg_prngcnt (r : Reg) (v : Nat) : (writeReg r v s).prngcnt = s.prngcnt := rfl
@[simp] theorem writeReg_cmdreg (r : Reg) (v : Nat) : (writeReg r v s).cmdreg = s.cmdreg := rfl
@[simp] theorem writeReg_sched (r : Reg) (v : Nat) : (writeReg r v s).sched = s.sched := rfl

/-! ### setStream -/

@[simp] theorem setStream_cfg (t : Stream) : (setStream t s).cfg = s.cfg := rfl
@[simp] theorem setStream_x (t : Stream) : (setStream t s).x = s.x := rfl
@[simp] theorem setStream_seedbuf (t : Stream) : (setStream t s).seedbuf = s.seedbuf := rfl
@[simp] theorem setStream_prng (t : Stream) : (setStream t s).prng = t.gen := rfl
@[simp] theorem setStream_status (t : Stream) : (setStream t s).status = s.status := rfl
@[simp] theorem setStream_ctrl (t : Stream) : (setStream t s).ctrl = s.ctrl := rfl
@[simp] theorem setStream_conf (t : Stream) : (setStream t s).conf = s.conf := rfl
@[simp] theorem setStream_limit (t : Stream) : (setStream t s).limit = s.limit := rfl
@[simp] theorem setStream_errcode (t : Stream) : (setStream t s).errcode = s.errcode := rfl
@[simp] theorem setStream_errcmd (t : Stream) : (setStream t s).errcmd = s.errcmd := rfl
@[simp] theorem setStream_rounds (t : Stream) : (setStream t s).rounds = s.rounds := rfl
@[simp] theorem setStream_prngcnt (t : Stream) : (setStream t s).prngcnt = t.cnt := rfl
@[simp] theorem setStream_cmdreg (t : Stream) : (setStream t s).cmdreg = s.cmdreg := rfl
@[simp] theorem setStream_sched (t : Stream) : (setStream t s).sched = s.sched := rfl

/-! ### takeFault -/

@[simp] theorem takeFault_cfg (c : FaultCode) : (takeFault c s).cfg = s.cfg := rfl
@[simp] theorem takeFault_x (c : FaultCode) : (takeFault c s).x = s.x := rfl
@[simp] theorem takeFault_seedbuf (c : FaultCode) : (takeFault c s).seedbuf = s.seedbuf := rfl
@[simp] theorem takeFault_prng (c : FaultCode) : (takeFault c s).prng = s.prng := rfl
@[simp] theorem takeFault_status (c : FaultCode) : (takeFault c s).status = { s.status with busy := false, err := true } := rfl
@[simp] theorem takeFault_ctrl (c : FaultCode) : (takeFault c s).ctrl = s.ctrl := rfl
@[simp] theorem takeFault_conf (c : FaultCode) : (takeFault c s).conf = s.conf := rfl
@[simp] theorem takeFault_limit (c : FaultCode) : (takeFault c s).limit = s.limit := rfl
@[simp] theorem takeFault_errcode (c : FaultCode) : (takeFault c s).errcode = c.code := rfl
@[simp] theorem takeFault_errcmd (c : FaultCode) : (takeFault c s).errcmd = s.cmdreg := rfl
@[simp] theorem takeFault_rounds (c : FaultCode) : (takeFault c s).rounds = s.rounds := rfl
@[simp] theorem takeFault_prngcnt (c : FaultCode) : (takeFault c s).prngcnt = s.prngcnt := rfl
@[simp] theorem takeFault_cmdreg (c : FaultCode) : (takeFault c s).cmdreg = s.cmdreg := rfl
@[simp] theorem takeFault_sched (c : FaultCode) : (takeFault c s).sched = s.sched := rfl

/-! ### completeOk -/

@[simp] theorem completeOk_cfg : (completeOk s).cfg = s.cfg := rfl
@[simp] theorem completeOk_x : (completeOk s).x = s.x := rfl
@[simp] theorem completeOk_seedbuf : (completeOk s).seedbuf = s.seedbuf := rfl
@[simp] theorem completeOk_prng : (completeOk s).prng = s.prng := rfl
@[simp] theorem completeOk_status : (completeOk s).status = { s.status with busy := false, done := true } := rfl
@[simp] theorem completeOk_ctrl : (completeOk s).ctrl = s.ctrl := rfl
@[simp] theorem completeOk_conf : (completeOk s).conf = s.conf := rfl
@[simp] theorem completeOk_limit : (completeOk s).limit = s.limit := rfl
@[simp] theorem completeOk_errcode : (completeOk s).errcode = s.errcode := rfl
@[simp] theorem completeOk_errcmd : (completeOk s).errcmd = s.errcmd := rfl
@[simp] theorem completeOk_rounds : (completeOk s).rounds = s.rounds := rfl
@[simp] theorem completeOk_prngcnt : (completeOk s).prngcnt = s.prngcnt := rfl
@[simp] theorem completeOk_cmdreg : (completeOk s).cmdreg = s.cmdreg := rfl
@[simp] theorem completeOk_sched : (completeOk s).sched = s.sched := rfl

/-! ### clearErr -/

@[simp] theorem clearErr_cfg : (clearErr s).cfg = s.cfg := rfl
@[simp] theorem clearErr_x : (clearErr s).x = s.x := rfl
@[simp] theorem clearErr_seedbuf : (clearErr s).seedbuf = s.seedbuf := rfl
@[simp] theorem clearErr_prng : (clearErr s).prng = s.prng := rfl
@[simp] theorem clearErr_status : (clearErr s).status = { s.status with err := false } := rfl
@[simp] theorem clearErr_ctrl : (clearErr s).ctrl = s.ctrl := rfl
@[simp] theorem clearErr_conf : (clearErr s).conf = s.conf := rfl
@[simp] theorem clearErr_limit : (clearErr s).limit = s.limit := rfl
@[simp] theorem clearErr_errcode : (clearErr s).errcode = s.errcode := rfl
@[simp] theorem clearErr_errcmd : (clearErr s).errcmd = s.errcmd := rfl
@[simp] theorem clearErr_rounds : (clearErr s).rounds = s.rounds := rfl
@[simp] theorem clearErr_prngcnt : (clearErr s).prngcnt = s.prngcnt := rfl
@[simp] theorem clearErr_cmdreg : (clearErr s).cmdreg = s.cmdreg := rfl
@[simp] theorem clearErr_sched : (clearErr s).sched = s.sched := rfl

/-! ### markDrop -/

@[simp] theorem markDrop_cfg : (markDrop s).cfg = s.cfg := rfl
@[simp] theorem markDrop_x : (markDrop s).x = s.x := rfl
@[simp] theorem markDrop_seedbuf : (markDrop s).seedbuf = s.seedbuf := rfl
@[simp] theorem markDrop_prng : (markDrop s).prng = s.prng := rfl
@[simp] theorem markDrop_status : (markDrop s).status = { s.status with drop := true } := rfl
@[simp] theorem markDrop_ctrl : (markDrop s).ctrl = s.ctrl := rfl
@[simp] theorem markDrop_conf : (markDrop s).conf = s.conf := rfl
@[simp] theorem markDrop_limit : (markDrop s).limit = s.limit := rfl
@[simp] theorem markDrop_errcode : (markDrop s).errcode = s.errcode := rfl
@[simp] theorem markDrop_errcmd : (markDrop s).errcmd = s.errcmd := rfl
@[simp] theorem markDrop_rounds : (markDrop s).rounds = s.rounds := rfl
@[simp] theorem markDrop_prngcnt : (markDrop s).prngcnt = s.prngcnt := rfl
@[simp] theorem markDrop_cmdreg : (markDrop s).cmdreg = s.cmdreg := rfl
@[simp] theorem markDrop_sched : (markDrop s).sched = s.sched := rfl

/-! ### writeStatus -/

@[simp] theorem writeStatus_cfg (w : Word) : (writeStatus w s).cfg = s.cfg := rfl
@[simp] theorem writeStatus_x (w : Word) : (writeStatus w s).x = s.x := rfl
@[simp] theorem writeStatus_seedbuf (w : Word) : (writeStatus w s).seedbuf = s.seedbuf := rfl
@[simp] theorem writeStatus_prng (w : Word) : (writeStatus w s).prng = s.prng := rfl
@[simp] theorem writeStatus_status (w : Word) : (writeStatus w s).status = { s.status with
      done := s.status.done && !w.getLsbD 1
      err := s.status.err && !w.getLsbD 2
      drop := s.status.drop && !w.getLsbD 3 } := rfl
@[simp] theorem writeStatus_ctrl (w : Word) : (writeStatus w s).ctrl = s.ctrl := rfl
@[simp] theorem writeStatus_conf (w : Word) : (writeStatus w s).conf = s.conf := rfl
@[simp] theorem writeStatus_limit (w : Word) : (writeStatus w s).limit = s.limit := rfl
@[simp] theorem writeStatus_errcode (w : Word) : (writeStatus w s).errcode = s.errcode := rfl
@[simp] theorem writeStatus_errcmd (w : Word) : (writeStatus w s).errcmd = s.errcmd := rfl
@[simp] theorem writeStatus_rounds (w : Word) : (writeStatus w s).rounds = s.rounds := rfl
@[simp] theorem writeStatus_prngcnt (w : Word) : (writeStatus w s).prngcnt = s.prngcnt := rfl
@[simp] theorem writeStatus_cmdreg (w : Word) : (writeStatus w s).cmdreg = s.cmdreg := rfl
@[simp] theorem writeStatus_sched (w : Word) : (writeStatus w s).sched = s.sched := rfl

/-! ### acceptCommand -/

@[simp] theorem acceptCommand_cfg (w : Word) : (acceptCommand w s).cfg = s.cfg := rfl
@[simp] theorem acceptCommand_x (w : Word) : (acceptCommand w s).x = s.x := rfl
@[simp] theorem acceptCommand_seedbuf (w : Word) : (acceptCommand w s).seedbuf = s.seedbuf := rfl
@[simp] theorem acceptCommand_prng (w : Word) : (acceptCommand w s).prng = s.prng := rfl
@[simp] theorem acceptCommand_status (w : Word) : (acceptCommand w s).status = { s.status with busy := true, done := false } := rfl
@[simp] theorem acceptCommand_ctrl (w : Word) : (acceptCommand w s).ctrl = s.ctrl := rfl
@[simp] theorem acceptCommand_conf (w : Word) : (acceptCommand w s).conf = s.conf := rfl
@[simp] theorem acceptCommand_limit (w : Word) : (acceptCommand w s).limit = s.limit := rfl
@[simp] theorem acceptCommand_errcode (w : Word) : (acceptCommand w s).errcode = s.errcode := rfl
@[simp] theorem acceptCommand_errcmd (w : Word) : (acceptCommand w s).errcmd = s.errcmd := rfl
@[simp] theorem acceptCommand_rounds (w : Word) : (acceptCommand w s).rounds = s.rounds := rfl
@[simp] theorem acceptCommand_prngcnt (w : Word) : (acceptCommand w s).prngcnt = s.prngcnt := rfl
@[simp] theorem acceptCommand_cmdreg (w : Word) : (acceptCommand w s).cmdreg = w := rfl
@[simp] theorem acceptCommand_sched (w : Word) : (acceptCommand w s).sched = s.sched := rfl

/-! ### resetEngine -/

@[simp] theorem resetEngine_cfg : (resetEngine s).cfg = s.cfg := rfl
@[simp] theorem resetEngine_x : (resetEngine s).x = Vector.replicate 16 0 := rfl
@[simp] theorem resetEngine_seedbuf : (resetEngine s).seedbuf = List.replicate s.cfg.seedMax 0 := rfl
@[simp] theorem resetEngine_prng : (resetEngine s).prng = { mt := Vector.replicate 624 0, mti := 0 } := rfl
@[simp] theorem resetEngine_status : (resetEngine s).status = { busy := false, done := false, err := false, drop := false, seeded := false, prime := false, jsym := 0 } := rfl
@[simp] theorem resetEngine_ctrl : (resetEngine s).ctrl = { ieDone := false, ieErr := false } := rfl
@[simp] theorem resetEngine_conf : (resetEngine s).conf = 32 := rfl
@[simp] theorem resetEngine_limit : (resetEngine s).limit = 0 := rfl
@[simp] theorem resetEngine_errcode : (resetEngine s).errcode = 0 := rfl
@[simp] theorem resetEngine_errcmd : (resetEngine s).errcmd = 0 := rfl
@[simp] theorem resetEngine_rounds : (resetEngine s).rounds = 0 := rfl
@[simp] theorem resetEngine_prngcnt : (resetEngine s).prngcnt = 0 := rfl
@[simp] theorem resetEngine_cmdreg : (resetEngine s).cmdreg = 0 := rfl
@[simp] theorem resetEngine_sched : (resetEngine s).sched = s.sched := rfl

/-! ### popEdge -/

@[simp] theorem popEdge_cfg : (s.popEdge).cfg = s.cfg := rfl
@[simp] theorem popEdge_x : (s.popEdge).x = s.x := rfl
@[simp] theorem popEdge_seedbuf : (s.popEdge).seedbuf = s.seedbuf := rfl
@[simp] theorem popEdge_prng : (s.popEdge).prng = s.prng := rfl
@[simp] theorem popEdge_status : (s.popEdge).status = s.status := rfl
@[simp] theorem popEdge_ctrl : (s.popEdge).ctrl = s.ctrl := rfl
@[simp] theorem popEdge_conf : (s.popEdge).conf = s.conf := rfl
@[simp] theorem popEdge_limit : (s.popEdge).limit = s.limit := rfl
@[simp] theorem popEdge_errcode : (s.popEdge).errcode = s.errcode := rfl
@[simp] theorem popEdge_errcmd : (s.popEdge).errcmd = s.errcmd := rfl
@[simp] theorem popEdge_rounds : (s.popEdge).rounds = s.rounds := rfl
@[simp] theorem popEdge_prngcnt : (s.popEdge).prngcnt = s.prngcnt := rfl
@[simp] theorem popEdge_cmdreg : (s.popEdge).cmdreg = s.cmdreg := rfl
@[simp] theorem popEdge_sched : (s.popEdge).sched = s.sched.tail := rfl

/-! ### withCommand -/

@[simp] theorem withCommand_cfg (w : Word) : (s.withCommand w).cfg = s.cfg := rfl
@[simp] theorem withCommand_x (w : Word) : (s.withCommand w).x = s.x := rfl
@[simp] theorem withCommand_seedbuf (w : Word) : (s.withCommand w).seedbuf = s.seedbuf := rfl
@[simp] theorem withCommand_prng (w : Word) : (s.withCommand w).prng = s.prng := rfl
@[simp] theorem withCommand_status (w : Word) : (s.withCommand w).status = { s.status with busy := true, done := false, err := false } := rfl
@[simp] theorem withCommand_ctrl (w : Word) : (s.withCommand w).ctrl = s.ctrl := rfl
@[simp] theorem withCommand_conf (w : Word) : (s.withCommand w).conf = s.conf := rfl
@[simp] theorem withCommand_limit (w : Word) : (s.withCommand w).limit = s.limit := rfl
@[simp] theorem withCommand_errcode (w : Word) : (s.withCommand w).errcode = s.errcode := rfl
@[simp] theorem withCommand_errcmd (w : Word) : (s.withCommand w).errcmd = s.errcmd := rfl
@[simp] theorem withCommand_rounds (w : Word) : (s.withCommand w).rounds = s.rounds := rfl
@[simp] theorem withCommand_prngcnt (w : Word) : (s.withCommand w).prngcnt = s.prngcnt := rfl
@[simp] theorem withCommand_cmdreg (w : Word) : (s.withCommand w).cmdreg = w := rfl
@[simp] theorem withCommand_sched (w : Word) : (s.withCommand w).sched = Edge.quiet :: s.sched := rfl

/-! ### resetWith -/

@[simp] theorem resetWith_cfg (c : Config) : (State.resetWith c).cfg = c := rfl
@[simp] theorem resetWith_x (c : Config) : (State.resetWith c).x = Vector.replicate 16 0 := rfl
@[simp] theorem resetWith_seedbuf (c : Config) : (State.resetWith c).seedbuf = List.replicate c.seedMax 0 := rfl
@[simp] theorem resetWith_prng (c : Config) : (State.resetWith c).prng = { mt := Vector.replicate 624 0, mti := 0 } := rfl
@[simp] theorem resetWith_status (c : Config) : (State.resetWith c).status = { busy := false, done := false, err := false, drop := false, seeded := false, prime := false, jsym := 0 } := rfl
@[simp] theorem resetWith_ctrl (c : Config) : (State.resetWith c).ctrl = { ieDone := false, ieErr := false } := rfl
@[simp] theorem resetWith_conf (c : Config) : (State.resetWith c).conf = 32 := rfl
@[simp] theorem resetWith_limit (c : Config) : (State.resetWith c).limit = 0 := rfl
@[simp] theorem resetWith_errcode (c : Config) : (State.resetWith c).errcode = 0 := rfl
@[simp] theorem resetWith_errcmd (c : Config) : (State.resetWith c).errcmd = 0 := rfl
@[simp] theorem resetWith_rounds (c : Config) : (State.resetWith c).rounds = 0 := rfl
@[simp] theorem resetWith_prngcnt (c : Config) : (State.resetWith c).prngcnt = 0 := rfl
@[simp] theorem resetWith_cmdreg (c : Config) : (State.resetWith c).cmdreg = 0 := rfl
@[simp] theorem resetWith_sched (c : Config) : (State.resetWith c).sched = [] := rfl

/-! ### the stream -/

@[simp] theorem stream_gen : s.stream.gen = s.prng := rfl
@[simp] theorem stream_cnt : s.stream.cnt = s.prngcnt := rfl
@[simp] theorem setStream_stream : setStream s.stream s = s := rfl
@[simp] theorem stream_setStream (t : Stream) : (setStream t s).stream = t := rfl
@[simp] theorem setStream_setStream (t u : Stream) : setStream t (setStream u s) = setStream t s := rfl

/-! ### the edge -/

@[simp] theorem edge_withCommand (w : Word) : (s.withCommand w).edge = Edge.quiet := rfl
@[simp] theorem quiet_rst : Edge.quiet.rst = false := rfl
@[simp] theorem quiet_access : Edge.quiet.access = none := rfl
@[simp] theorem quiet_finish : Edge.quiet.finish = true := rfl

end Sys2Proof.Machine
end

