-- ==== Sys2Proof/Laws/Generator.lean ====
section
/-! SUPPORT. The word stream, the k-bit draw and the sampler: what each can answer, once. -/

namespace Sys2Proof.Machine

variable (alg : PrngAlg)

/-! ### the stream -/

@[simp] theorem nextU32_cnt (t : Stream) : (nextU32 alg t).2.cnt = t.cnt + 1 := rfl
@[simp] theorem nextU32_gen (t : Stream) : (nextU32 alg t).2.gen = (generatorNext alg t.gen).2 := rfl

@[simp] theorem advance_zero (t : Stream) : advance alg 0 t = t := rfl

theorem advance_succ (n : Nat) (t : Stream) : advance alg (n + 1) t = advance alg n (nextU32 alg t).2 :=
  Function.iterate_succ_apply _ n t

theorem advance_succ' (n : Nat) (t : Stream) : advance alg (n + 1) t = (nextU32 alg (advance alg n t)).2 :=
  Function.iterate_succ_apply' _ n t

theorem advance_add (m n : Nat) (t : Stream) : advance alg (m + n) t = advance alg m (advance alg n t) :=
  Function.iterate_add_apply _ m n t

/-- Every call adds 1 to `PRNGCNT` (10_state.md R41). -/
theorem advance_cnt (n : Nat) (t : Stream) : (advance alg n t).cnt = t.cnt + BitVec.ofNat 32 n := by
  induction n with
  | zero => simp
  | succ n ih => rw [advance_succ', nextU32_cnt, ih, BitVec.ofNat_add, BitVec.add_assoc]; rfl

/-- The generator moves on by itself: the count has no influence on it. -/
theorem advance_gen (n : Nat) (t : Stream) :
    (advance alg n t).gen = (fun g => (generatorNext alg g).2)^[n] t.gen := by
  induction n with
  | zero => rfl
  | succ n ih => rw [advance_succ', nextU32_gen, ih, Function.iterate_succ_apply']

/-! ### the draw -/

theorem drawWords_stream (k : Nat) :
    ∀ (todo i v : Nat) (t : Stream), (drawWords alg k todo i v t).2 = advance alg todo t := by
  intro todo
  induction todo with
  | zero => intro i v t; rfl
  | succ n ih => intro i v t; rw [drawWords, advance_succ]; exact ih _ _ _

/-- 40_prng.md R128: exactly `ceil(k/32)` words are consumed. -/
theorem drawBits_stream (k : Nat) (t : Stream) : (drawBits alg k t).2 = advance alg (drawCost k) t := by
  unfold drawBits
  split
  · rename_i h; subst h; rfl
  · exact drawWords_stream alg k _ _ _ _

theorem drawWords_lt (k : Nat) :
    ∀ (todo i v : Nat) (t : Stream), v < 2 ^ (32 * i) → 32 * (i + todo) = k + (31 - (k + 31) % 32) → 0 < k →
      (drawWords alg k todo i v t).1 < 2 ^ k ∨ todo = 0 := by
  intro todo
  induction todo with
  | zero => intro i v t _ _ _; exact Or.inr rfl
  | succ n ih =>
    intro i v t hv hk hk0
    left
    rw [drawWords]
    set w := (nextU32 alg t).1.toNat with hw
    have hwlt : w < 2 ^ 32 := (nextU32 alg t).1.isLt
    rcases Nat.eq_zero_or_pos n with hn | hn
    · subst hn
      simp only [drawWords]
      have hpos : 0 < (2 : Nat) ^ (32 * i) := Nat.two_pow_pos _
      by_cases hr : k % 32 = 0
      · have e : k = 32 * i + 32 := by omega
        simp only [hr, ne_eq, not_true_eq_false, and_false, if_false]
        rw [e, pow_add]
        have h1 : (w + 1) * 2 ^ (32 * i) ≤ 2 ^ 32 * 2 ^ (32 * i) := Nat.mul_le_mul_right _ hwlt
        rw [Nat.mul_comm (2 ^ (32 * i)) (2 ^ 32)]
        calc _ < (w + 1) * 2 ^ (32 * i) := by rw [Nat.add_mul]; omega
          _ ≤ _ := h1
      · have e : k = 32 * i + k % 32 := by omega
        simp only [hr, ne_eq, not_false_eq_true, and_self, if_true]
        have hw2 : w >>> (32 - k % 32) < 2 ^ (k % 32) := by
          rw [Nat.shiftRight_eq_div_pow, Nat.div_lt_iff_lt_mul (Nat.two_pow_pos _), ← pow_add]
          have : k % 32 + (32 - k % 32) = 32 := by omega
          rw [this]; exact hwlt
        set u := w >>> (32 - k % 32) with hu
        have h1 : (u + 1) * 2 ^ (32 * i) ≤ 2 ^ (k % 32) * 2 ^ (32 * i) := Nat.mul_le_mul_right _ hw2
        calc _ < (u + 1) * 2 ^ (32 * i) := by rw [Nat.add_mul]; omega
          _ ≤ 2 ^ (k % 32) * 2 ^ (32 * i) := h1
          _ = 2 ^ (32 * i + k % 32) := by rw [pow_add, Nat.mul_comm]
          _ = 2 ^ k := by rw [← e]
    · have hv' : v + w * 2 ^ (32 * i) < 2 ^ (32 * (i + 1)) := by
        have e : (2 : Nat) ^ (32 * (i + 1)) = 2 ^ 32 * 2 ^ (32 * i) := by
          rw [← pow_add]; congr 1; ring
        have h1 : (w + 1) * 2 ^ (32 * i) ≤ 2 ^ 32 * 2 ^ (32 * i) := Nat.mul_le_mul_right _ hwlt
        rw [e]
        calc _ < (w + 1) * 2 ^ (32 * i) := by rw [Nat.add_mul]; omega
          _ ≤ _ := h1
      have hne : ¬ (n = 0 ∧ k % 32 ≠ 0) := fun h => by omega
      simp only [hne, if_false]
      rcases ih (i + 1) (v + w * 2 ^ (32 * i)) (nextU32 alg t).2 hv' (by omega) hk0 with h | h
      · exact h
      · omega

/-- 40_prng.md R128: `0 ≤ v < 2^k`. -/
theorem drawBits_lt (k : Nat) (t : Stream) : (drawBits alg k t).1 < 2 ^ k := by
  unfold drawBits
  split
  · rename_i h; subst h; simp
  · rename_i h
    rcases drawWords_lt alg k ((k + 31) / 32) 0 0 t (by simp) (by omega) (by omega) with h | h
    · exact h
    · omega

theorem drawBits_zero (t : Stream) : drawBits alg 0 t = (0, t) := rfl

/-! ### the sampler -/

theorem attemptDraw_succ (k j : Nat) (t : Stream) :
    attemptDraw alg k (j + 1) t = attemptDraw alg k j (drawBits alg k t).2 := by
  unfold attemptDraw
  rw [drawBits_stream, ← advance_add, Nat.add_mul, Nat.one_mul]

theorem attemptDraw_zero (k : Nat) (t : Stream) : attemptDraw alg k 0 t = (drawBits alg k t).1 := by
  simp [attemptDraw]

/-- Everything the rejection loop can answer (41_sampler.md R141): the first accepted draw, the cap after `LIMIT` rejected
draws, or nothing within its bound. -/
theorem sampleLoop_cases (limit low width k : Nat) :
    ∀ (bound attempts : Nat) (t : Stream), (limit = 0 ∨ attempts ≤ limit) →
      (∃ j, j < bound ∧ (limit = 0 ∨ attempts + j < limit) ∧ (∀ i, i < j → width ≤ attemptDraw alg k i t) ∧
        attemptDraw alg k j t < width ∧
        sampleLoop alg limit low width k bound attempts t
          = .value (low + attemptDraw alg k j t) (advance alg ((j + 1) * drawCost k) t)) ∨
      (limit ≠ 0 ∧ limit - attempts < bound ∧ (∀ i, i < limit - attempts → width ≤ attemptDraw alg k i t) ∧
        sampleLoop alg limit low width k bound attempts t
          = .limit (advance alg ((limit - attempts) * drawCost k) t)) ∨
      ((limit = 0 ∨ bound ≤ limit - attempts) ∧ (∀ i, i < bound → width ≤ attemptDraw alg k i t) ∧
        sampleLoop alg limit low width k bound attempts t = .never) := by
  intro bound
  induction bound with
  | zero => intro a t h; right; right; exact ⟨by omega, by intro i hi; omega, rfl⟩
  | succ b ih =>
    intro a t hle
    rw [sampleLoop]
    by_cases hl : limit ≠ 0 ∧ a = limit
    · rw [if_pos hl]
      right; left
      refine ⟨hl.1, by omega, by intro i hi; omega, ?_⟩
      have : limit - a = 0 := by omega
      simp [this]
    rw [if_neg hl]
    by_cases hd : (drawBits alg k t).1 < width
    · rw [if_pos hd]
      left
      refine ⟨0, by omega, by omega, by intro i hi; omega, by rw [attemptDraw_zero]; exact hd, ?_⟩
      rw [attemptDraw_zero, drawBits_stream, Nat.zero_add, Nat.one_mul]
    rw [if_neg hd]
    have h0 : width ≤ attemptDraw alg k 0 t := by rw [attemptDraw_zero]; omega
    have hall : ∀ m, (∀ i, i < m → width ≤ attemptDraw alg k i (drawBits alg k t).2) →
        ∀ i, i < m + 1 → width ≤ attemptDraw alg k i t := by
      intro m hm i hi
      rcases i with _ | i
      · exact h0
      · rw [attemptDraw_succ]; exact hm i (by omega)
    have hadv : ∀ n, advance alg n (drawBits alg k t).2 = advance alg (n + drawCost k) t := by
      intro n; rw [drawBits_stream, advance_add]
    rcases ih (a + 1) (drawBits alg k t).2 (by omega) with ⟨j, hj, hlim, hrej, hacc, heq⟩ | ⟨hlim, hb, hrej, heq⟩ | ⟨hlim, hrej, heq⟩
    · left
      refine ⟨j + 1, by omega, by omega, hall j hrej, by rw [attemptDraw_succ]; exact hacc, ?_⟩
      rw [heq, attemptDraw_succ, hadv]
      congr 2; ring
    · right; left
      have e : limit - a = limit - (a + 1) + 1 := by omega
      refine ⟨hlim, by omega, by rw [e]; exact hall _ hrej, ?_⟩
      rw [heq, hadv]
      congr 2; rw [e]; ring
    · right; right
      exact ⟨by omega, hall b hrej, heq⟩

/-- The states of a generator can be counted (40_prng.md R122): among any `generatorStates` of them and one more, two are
equal. -/
theorem generator_repeats (f : Nat → Prng) :
    ∃ i j, i < j ∧ j ≤ generatorStates .mt19937 ∧ f i = f j := by
  classical
  let enc : Prng → (Fin 624 → Fin (2 ^ 32)) × Fin 625 := fun g => (fun i => (g.mt[i.val]).toFin, g.mti)
  have inj : Function.Injective enc := by
    intro a b h
    simp only [enc, Prod.mk.injEq] at h
    obtain ⟨h1, h2⟩ := h
    have hm : a.mt = b.mt := by
      apply Vector.ext
      intro i hi
      have := congrFun h1 ⟨i, hi⟩
      exact BitVec.eq_of_toFin_eq this
    cases a; cases b; simp_all
  have hcard : Fintype.card ((Fin 624 → Fin (2 ^ 32)) × Fin 625) = generatorStates .mt19937 := by
    rw [Fintype.card_prod, Fintype.card_fun, Fintype.card_fin, Fintype.card_fin, Fintype.card_fin]
    unfold generatorStates
    rw [← pow_mul, Nat.mul_comm]
  obtain ⟨i, j, hne, he⟩ := Fintype.exists_ne_map_eq_of_card_lt
    (fun m : Fin (generatorStates .mt19937 + 1) => enc (f m.val)) (by rw [hcard, Fintype.card_fin]; omega)
  have hf : f i.val = f j.val := inj he
  rcases Nat.lt_or_gt_of_ne (fun h => hne (Fin.ext h)) with h | h
  · exact ⟨i.val, j.val, h, by have := j.isLt; omega, hf⟩
  · exact ⟨j.val, i.val, h, by have := i.isLt; omega, hf.symm⟩

/-- A draw depends on the generator alone, not on the count. -/
theorem drawBits_congr (k : Nat) {t u : Stream} (h : t.gen = u.gen) : (drawBits alg k t).1 = (drawBits alg k u).1 := by
  have dep : ∀ (todo i v : Nat) (t u : Stream), t.gen = u.gen →
      (drawWords alg k todo i v t).1 = (drawWords alg k todo i v u).1 := by
    intro todo
    induction todo with
    | zero => intros; rfl
    | succ n ih =>
      intro i v t u h
      have h1 : (nextU32 alg t).1 = (nextU32 alg u).1 := by unfold nextU32; rw [h]
      simp only [drawWords, h1]
      apply ih
      simp [h]
  unfold drawBits
  split
  · rfl
  · exact dep _ _ _ _ _ h

/-- The bound of `sample` is never short (log 11): if a draw is ever accepted, the first accepted one comes before the states of the
generator are used up. -/
theorem first_accepted_lt {w k : Nat} {t : Stream} {j : Nat} (hrej : ∀ i, i < j → w ≤ attemptDraw alg k i t)
    (hacc : attemptDraw alg k j t < w) : j < generatorStates alg + 1 := by
  by_contra hge
  cases alg
  obtain ⟨a, b, hab, hb, he⟩ := generator_repeats (fun m => (advance .mt19937 (m * drawCost k) t).gen)
  have shift : ∀ m, (advance .mt19937 ((a + m) * drawCost k) t).gen = (advance .mt19937 ((b + m) * drawCost k) t).gen := by
    intro m
    rw [Nat.add_mul, Nat.add_mul, Nat.add_comm, advance_add, advance_gen, Nat.add_comm (b * _), advance_add,
      advance_gen _ (m * _) (advance _ (b * _) t)]
    exact congrArg _ he
  have heq := drawBits_congr .mt19937 k (shift (j - b))
  have e1 : b + (j - b) = j := by omega
  rw [e1] at heq
  have := hrej (a + (j - b)) (by omega)
  unfold attemptDraw at this hacc
  omega

/-! ### the mixing passes of `init_by_array` (40_prng.md R124), with `i = p mod 623 + 1` before pass `p` -/

/-- `mt[i-1] ^ (mt[i-1] >> 30)` by the number of the pass. -/
theorem mixPrevious_pass (mt : Vector Word 624) (i : Fin 624) (p : Nat) (hi : i.val = p % 623 + 1) :
    mixPrevious mt i = (mt[p % 623]'(by omega)) ^^^ ((mt[p % 623]'(by omega)) >>> 30) := by
  have h : (i - 1).val = p % 623 := by
    rw [Fin.sub_def]
    show (624 - 1 + i.val) % 624 = _
    omega
  unfold mixPrevious
  simp only [h]

/-- The end of a pass that has written `v` to `mt[i]`: `mt[0]` takes it too when `i = 623`, and the next index is that of pass `p + 1`. -/
theorem mixAdvance_pass (mt : Vector Word 624) (i : Fin 624) (v : Word) (p : Nat) (hi : i.val = p % 623 + 1) :
    (mixAdvance (mt.set i.val v) i).1 =
      (if p % 623 + 1 = 623 then (mt.set (p % 623 + 1) v (by omega)).set 0 v else mt.set (p % 623 + 1) v (by omega)) ∧
    (mixAdvance (mt.set i.val v) i).2.val = (p + 1) % 623 + 1 := by
  obtain ⟨i, hlt⟩ := i
  simp only at hi
  subst hi
  unfold mixAdvance
  by_cases h : p % 623 + 1 = 623
  · rw [if_pos (by simp only; omega), if_pos h]
    refine ⟨?_, by show 1 = _; omega⟩
    simp only [h]
    rw [Vector.getElem_set_self]
  · rw [if_neg (by simp only; omega), if_neg h]
    refine ⟨rfl, ?_⟩
    show ((⟨p % 623 + 1, hlt⟩ : Fin 624) + 1).val = _
    rw [Fin.val_add]
    show (p % 623 + 1 + 1) % 624 = _
    omega

end Sys2Proof.Machine
end

