-- ==== Sys2Proof/Laws/Regs.lean ====
section
/-! SUPPORT. The operand registers: a read after a write, and the words of a register (10_state.md R22, R23). -/

namespace Sys2Proof.Machine

variable (s : State)

/-- The read goes through the `x` field only, so an update of another field does not change it. -/
theorem readReg_congr {s t : State} (h : t.x = s.x) (r : Reg) : readReg t r = readReg s r := by
  simp [readReg, h]

@[simp] theorem readReg_setStream (t : Stream) (r : Reg) : readReg (setStream t s) r = readReg s r := rfl
@[simp] theorem readReg_takeFault (c : FaultCode) (r : Reg) : readReg (takeFault c s) r = readReg s r := rfl
@[simp] theorem readReg_completeOk (r : Reg) : readReg (completeOk s) r = readReg s r := rfl
@[simp] theorem readReg_markDrop (r : Reg) : readReg (markDrop s) r = readReg s r := rfl
@[simp] theorem readReg_writeStatus (w : Word) (r : Reg) : readReg (writeStatus w s) r = readReg s r := rfl
@[simp] theorem readReg_acceptCommand (w : Word) (r : Reg) : readReg (acceptCommand w s) r = readReg s r := rfl
@[simp] theorem readReg_popEdge (r : Reg) : readReg s.popEdge r = readReg s r := rfl

@[simp] theorem readReg_resetWith (c : Config) (r : Reg) : readReg (State.resetWith c) r = 0 := by
  simp [readReg]

@[simp] theorem readReg_resetEngine (r : Reg) : readReg (resetEngine s) r = 0 := by
  simp [readReg]

theorem readReg_writeReg_same (r : Reg) (v : Nat) : readReg (writeReg r v s) r = v % s.cfg.radix := by
  simp [readReg]

theorem readReg_writeReg_ne {r q : Reg} (h : q ≠ r) (v : Nat) : readReg (writeReg r v s) q = readReg s q := by
  have hv : r.val ≠ q.val := fun e => h (Fin.ext e.symm)
  simp [readReg, hv]

/-- A value of `XLEN` bits is stored as it is (00_scope.md R8). -/
theorem writeReg_of_lt {v : Nat} (h : v < s.cfg.radix) (r : Reg) :
    writeReg r v s = { s with x := s.x.set r.val v } := by
  simp [writeReg, Nat.mod_eq_of_lt h]

theorem radix_pos (c : Config) : 0 < c.radix := Nat.two_pow_pos _

theorem one_lt_radix {c : Config} (h : c.legal) : 1 < c.radix :=
  Nat.one_lt_two_pow (by have := h.1.1; simp only [Config.xlen]; omega)

/-- Every 32-bit word fits in an operand register (00_scope.md R8). -/
theorem word_lt_radix {c : Config} (h : c.legal) : 2 ^ 32 ≤ c.radix :=
  Nat.pow_le_pow_right (by decide) (by have := h.1.1; simp only [Config.xlen]; omega)

/-! ### words of a register -/

theorem wordOf_toNat (v i : Nat) : (wordOf v i).toNat = v / 2 ^ (32 * i) % 2 ^ 32 := by
  simp [wordOf]

/-- `putWord` in three parts: above, the word, below. -/
theorem putWord_div (v i : Nat) (w : Word) :
    putWord v i w / 2 ^ (32 * i) = v / 2 ^ (32 * (i + 1)) * 2 ^ 32 + w.toNat := by
  have e : (2 : Nat) ^ (32 * (i + 1)) = 2 ^ (32 * i) * 2 ^ 32 := by rw [← pow_add]; congr 1
  have hp : 0 < (2 : Nat) ^ (32 * i) := Nat.two_pow_pos _
  have hlt : v % 2 ^ (32 * i) < 2 ^ (32 * i) := Nat.mod_lt _ hp
  have : putWord v i w
      = v % 2 ^ (32 * i) + 2 ^ (32 * i) * (v / 2 ^ (32 * (i + 1)) * 2 ^ 32 + w.toNat) := by
    unfold putWord; rw [e]; ring
  rw [this, Nat.add_mul_div_left _ _ hp, Nat.div_eq_of_lt hlt, Nat.zero_add]

theorem putWord_mod (v i : Nat) (w : Word) : putWord v i w % 2 ^ (32 * i) = v % 2 ^ (32 * i) := by
  have e : (2 : Nat) ^ (32 * (i + 1)) = 2 ^ (32 * i) * 2 ^ 32 := by rw [← pow_add]; congr 1
  have : putWord v i w
      = v % 2 ^ (32 * i) + 2 ^ (32 * i) * (v / 2 ^ (32 * (i + 1)) * 2 ^ 32 + w.toNat) := by
    unfold putWord; rw [e]; ring
  rw [this, Nat.add_mul_mod_self_left, Nat.mod_mod]

theorem wordOf_putWord_same (v i : Nat) (w : Word) : wordOf (putWord v i w) i = w := by
  apply BitVec.eq_of_toNat_eq
  rw [wordOf_toNat, putWord_div, Nat.mul_add_mod_self_right, Nat.mod_eq_of_lt w.isLt]

theorem wordOf_putWord_ne {i j : Nat} (h : j ≠ i) (v : Nat) (w : Word) :
    wordOf (putWord v i w) j = wordOf v j := by
  apply BitVec.eq_of_toNat_eq
  rw [wordOf_toNat, wordOf_toNat]
  rcases Nat.lt_or_gt_of_ne h with hj | hj
  · -- below: both sides read the low part
    obtain ⟨d, rfl⟩ : ∃ d, i = j + 1 + d := ⟨i - (j + 1), by omega⟩
    have key : ∀ u : Nat, u / 2 ^ (32 * j) % 2 ^ 32 = u % 2 ^ (32 * (j + 1 + d)) / 2 ^ (32 * j) % 2 ^ 32 := by
      intro u
      have e : (2 : Nat) ^ (32 * (j + 1 + d)) = 2 ^ (32 * j) * (2 ^ 32 * 2 ^ (32 * d)) := by
        rw [← pow_add, ← pow_add]; congr 1; ring
      rw [e, Nat.mod_mul_right_div_self, Nat.mod_mul_right_mod]
    rw [key, putWord_mod, ← key]
  · obtain ⟨d, rfl⟩ : ∃ d, j = i + 1 + d := ⟨j - (i + 1), by omega⟩
    have e : (2 : Nat) ^ (32 * (i + 1 + d)) = 2 ^ (32 * i) * (2 ^ 32 * 2 ^ (32 * d)) := by
      rw [← pow_add, ← pow_add]; congr 1; ring
    have e1 : (2 : Nat) ^ (32 * (i + 1)) = 2 ^ (32 * i) * 2 ^ 32 := by rw [← pow_add]; congr 1
    have hw := w.isLt
    rw [e, ← Nat.div_div_eq_div_mul _ (2 ^ (32 * i)), putWord_div, e1, ← Nat.div_div_eq_div_mul v (2 ^ (32 * i)) (2 ^ 32),
      ← Nat.div_div_eq_div_mul v (2 ^ (32 * i)), ← Nat.div_div_eq_div_mul _ (2 ^ 32) (2 ^ (32 * d)),
      ← Nat.div_div_eq_div_mul _ (2 ^ 32) (2 ^ (32 * d))]
    rw [Nat.mul_comm _ (2 ^ 32), Nat.mul_add_div (by decide), Nat.div_eq_of_lt w.isLt, Nat.add_zero]

/-- Replacing a word keeps the register below `2^XLEN`. -/
theorem putWord_lt {c : Config} {v i : Nat} (hv : v < c.radix) (hi : i < c.L) (w : Word) :
    putWord v i w < c.radix := by
  obtain ⟨d, hd⟩ : ∃ d, c.L = i + 1 + d := ⟨c.L - (i + 1), by omega⟩
  have e : c.radix = 2 ^ (32 * i) * (2 ^ 32 * 2 ^ (32 * d)) := by
    simp only [Config.radix, Config.xlen, hd]; rw [← pow_add, ← pow_add]; congr 1; ring
  have e1 : (2 : Nat) ^ (32 * (i + 1)) = 2 ^ (32 * i) * 2 ^ 32 := by rw [← pow_add]; congr 1
  have hq : v / 2 ^ (32 * (i + 1)) < 2 ^ (32 * d) := by
    rw [Nat.div_lt_iff_lt_mul (Nat.two_pow_pos _), e1]; rw [e] at hv; nlinarith [hv]
  have hw := w.isLt
  have h1 : (v / 2 ^ (32 * (i + 1)) + 1) * 2 ^ 32 ≤ 2 ^ (32 * d) * 2 ^ 32 := Nat.mul_le_mul_right _ hq
  have h2 : putWord v i w / 2 ^ (32 * i) < 2 ^ (32 * d) * 2 ^ 32 := by
    rw [putWord_div]
    exact lt_of_lt_of_le (by rw [Nat.add_mul]; omega) h1
  rw [Nat.div_lt_iff_lt_mul (Nat.two_pow_pos _)] at h2
  rw [e]
  calc _ < 2 ^ (32 * d) * 2 ^ 32 * 2 ^ (32 * i) := h2
    _ = _ := by ring

end Sys2Proof.Machine
end

