-- ==== Sys2Proof/Laws/Exec.lean ====
section
/-! SUPPORT. What the completion of a command can do, once: every claim about all commands starts here. -/

namespace Sys2Proof.Machine

/-! ### finish -/

@[simp] theorem finish_ok (s s' : State) : finish s (.ok s') = .next (completeOk s') := rfl
@[simp] theorem finish_fault (s s' : State) (c : FaultCode) : finish s (.fault c s') = .next (takeFault c s') := rfl
@[simp] theorem finish_diverge (s : State) : finish s .diverge = .next s := rfl

theorem guardThen_none (s : State) (k : Result) : guardThen none s k = k := rfl
theorem guardThen_some (c : FaultCode) (s : State) (k : Result) : guardThen (some c) s k = .fault c s := rfl

/-- A guard either raises its code with nothing written, or lets the command go on. -/
theorem guardThen_cases (check : Option FaultCode) (s : State) (k : Result) :
    (∃ c, check = some c ∧ guardThen check s k = .fault c s) ∨ (check = none ∧ guardThen check s k = k) := by
  cases check with
  | none => exact Or.inr ⟨rfl, rfl⟩
  | some c => exact Or.inl ⟨c, rfl, rfl⟩

/-! ### the shapes of an outcome -/

/-- What an `ok` outcome `s'` keeps of the state `s` at acceptance, for the command `i`. -/
structure OkShape (i : Instr) (s s' : State) : Prop where
  cfg : s'.cfg = s.cfg
  seedbuf : s'.seedbuf = s.seedbuf
  ctrl : s'.ctrl = s.ctrl
  conf : s'.conf = s.conf
  limit : s'.limit = s.limit
  errcode : s'.errcode = s.errcode
  errcmd : s'.errcmd = s.errcmd
  cmdreg : s'.cmdreg = s.cmdreg
  sched : s'.sched = s.sched
  x : (destOf i = none ∧ s'.x = s.x) ∨ (∃ rd v, destOf i = some rd ∧ s'.x = s.x.set rd.val (v % s.cfg.radix))
  busy : s'.status.busy = s.status.busy
  done : s'.status.done = s.status.done
  err : s'.status.err = s.status.err
  drop : s'.status.drop = s.status.drop
  seeded : s'.status.seeded = s.status.seeded ∨ (∃ len, i = .seed len ∧ s'.status.seeded = true)
  prime : s'.status.prime = s.status.prime ∨ (∃ rd rs3, i = .ptest rd rs3)
  jsym : s'.status.jsym = s.status.jsym ∨
    (∃ rd rs1 rs3 neg j, i = .jacobi rd rs1 rs3 neg ∧ s'.status.jsym = jsymBits j ∧ (j = 0 ∨ j = 1 ∨ j = -1))
  rounds : s'.rounds = s.rounds ∨ (∃ rd rs3, i = .ptest rd rs3)
  stream : (∃ n, s'.stream = advance s.cfg.prngAlg n s.stream ∧ (n ≠ 0 → s.status.seeded = true) ∧
      s'.status.seeded = s.status.seeded) ∨
    (∃ len, i = .seed len ∧ 1 ≤ len ∧ len ≤ s.cfg.seedMax ∧
      s'.stream = { gen := seedGenerator s.cfg.prngAlg (seedKey s len), cnt := 0 })

/-- What a `fault` outcome `s'` is: the state at acceptance, its stream moved on only under `Limit`. -/
def FaultShape (c : FaultCode) (s s' : State) : Prop :=
  c ≠ .illegal ∧
    ∃ n, s' = setStream (advance s.cfg.prngAlg n s.stream) s ∧ (n ≠ 0 → c = .limit ∧ s.status.seeded = true)

/-- The shape of an outcome. -/
def ResultShape (i : Instr) (s : State) : Result → Prop
  | .ok s' => OkShape i s s'
  | .fault c s' => FaultShape c s s'
  | .diverge => MayNotComplete i s

theorem faultShape_self {c : FaultCode} (h : c ≠ .illegal) (s : State) : FaultShape c s s :=
  ⟨h, 0, rfl, fun h => absurd rfl h⟩

/-- An outcome that only writes a register has the shape. -/
theorem okShape_write {i : Instr} {rd : Reg} (h : destOf i = some rd) (v : Nat) (s : State) :
    OkShape i s (writeReg rd v s) where
  cfg := rfl
  seedbuf := rfl
  ctrl := rfl
  conf := rfl
  limit := rfl
  errcode := rfl
  errcmd := rfl
  cmdreg := rfl
  sched := rfl
  x := Or.inr ⟨rd, v, h, rfl⟩
  busy := rfl
  done := rfl
  err := rfl
  drop := rfl
  seeded := Or.inl rfl
  prime := Or.inl rfl
  jsym := Or.inl rfl
  rounds := Or.inl rfl
  stream := Or.inl ⟨0, rfl, fun h => absurd rfl h, rfl⟩

/-- An outcome that writes a register and moves the stream on has the shape. -/
theorem okShape_draw {i : Instr} {rd : Reg} (h : destOf i = some rd) (v n : Nat) {s : State} {t : Stream}
    (ht : t = advance s.cfg.prngAlg n s.stream) (hs : s.status.seeded = true) :
    OkShape i s (writeReg rd v (setStream t s)) where
  cfg := rfl
  seedbuf := rfl
  ctrl := rfl
  conf := rfl
  limit := rfl
  errcode := rfl
  errcmd := rfl
  cmdreg := rfl
  sched := rfl
  x := Or.inr ⟨rd, v, h, rfl⟩
  busy := rfl
  done := rfl
  err := rfl
  drop := rfl
  seeded := Or.inl rfl
  prime := Or.inl rfl
  jsym := Or.inl rfl
  rounds := Or.inl rfl
  stream := Or.inl ⟨n, ht, fun _ => hs, rfl⟩

/-! ### the checks -/

theorem unseededCheck_none {s : State} : unseededCheck s = none ↔ s.status.seeded = true := by
  unfold unseededCheck; split <;> simp_all

theorem unseededCheck_some {s : State} {c : FaultCode} (h : unseededCheck s = some c) : c = .unseeded := by
  unfold unseededCheck at h; split at h <;> simp_all

theorem seedLenCheck_none {s : State} {len : Nat} : seedLenCheck s len = none ↔ 1 ≤ len ∧ len ≤ s.cfg.seedMax := by
  unfold seedLenCheck; split <;> [skip; split] <;> simp <;> omega

theorem zeroModulusCheck_none {n : Nat} : zeroModulusCheck n = none ↔ n ≠ 0 := by
  unfold zeroModulusCheck; split <;> simp_all

theorem oddModulusCheck_none {n : Nat} : oddModulusCheck n = none ↔ n % 2 = 1 := by
  unfold oddModulusCheck; split <;> [skip; split] <;> simp <;> omega

theorem jacobiCheck_none {neg : Bool} {a n : Nat} :
    jacobiCheck neg a n = none ↔ n ≠ 0 ∧ (neg = true → a ≤ 1) := by
  unfold jacobiCheck
  cases neg <;> (split <;> [skip; split]) <;> simp_all

theorem randbitsCheck_none {s : State} {k : Nat} :
    randbitsCheck s k = none ↔ s.status.seeded = true ∧ k ≤ s.cfg.xlen := by
  unfold randbitsCheck unseededCheck bitCountCheck
  split <;> simp_all

/-- No check of a command raises `Illegal`, which is the decoder's. -/
theorem checks_not_illegal (s : State) (len k a n : Nat) (neg : Bool) :
    unseededCheck s ≠ some .illegal ∧ seedLenCheck s len ≠ some .illegal ∧ zeroModulusCheck n ≠ some .illegal ∧
    oddModulusCheck n ≠ some .illegal ∧ jacobiCheck neg a n ≠ some .illegal ∧ randbitsCheck s k ≠ some .illegal := by
  refine ⟨?_, ?_, ?_, ?_, ?_, ?_⟩
  · unfold unseededCheck; split <;> simp
  · unfold seedLenCheck; split <;> [skip; split] <;> simp
  · unfold zeroModulusCheck; split <;> simp
  · unfold oddModulusCheck; split <;> [skip; split] <;> simp
  · unfold jacobiCheck; split <;> [skip; split] <;> simp
  · unfold randbitsCheck unseededCheck bitCountCheck; split <;> simp

/-- A guarded outcome has the shape if the command's own part has it when the check passes. -/
theorem resultShape_guard {i : Instr} {s : State} {check : Option FaultCode} {k : Result}
    (hc : check ≠ some .illegal) (hk : check = none → ResultShape i s k) :
    ResultShape i s (guardThen check s k) := by
  rcases guardThen_cases check s k with ⟨c, h, e⟩ | ⟨h, e⟩
  · rw [e]; exact faultShape_self (by rintro rfl; exact hc h) s
  · rw [e]; exact hk h

/-! ### the sampler and the tester -/

/-- `sample` in terms of its loop. -/
theorem sample_empty {alg : PrngAlg} {limit low : Nat} {high : Int} (h : high < (low : Int)) (t : Stream) :
    sample alg limit low high t = .range := by
  have : high - (low : Int) + 1 ≤ 0 := by omega
  simp [sample, this]

theorem sample_nonempty {alg : PrngAlg} {limit low : Nat} {high : Int} (h : (low : Int) ≤ high) (t : Stream) :
    sample alg limit low high t =
      sampleLoop alg limit low (high - low + 1).toNat (bitlen (high - low + 1).toNat) (generatorStates alg + 1) 0 t := by
  have : ¬ high - (low : Int) + 1 ≤ 0 := by omega
  simp [sample, this]

/-- What `sample` can answer: a value in the interval, `Range` for an empty interval only, `Limit` under a cap only, and no
answer without a cap only; the stream is always some words further on. -/
theorem sample_cases (alg : PrngAlg) (limit low : Nat) (high : Int) (t : Stream) :
    (∃ v n, sample alg limit low high t = .value v (advance alg n t) ∧ low ≤ v ∧ (v : Int) ≤ high) ∨
    (high < (low : Int) ∧ sample alg limit low high t = .range) ∨
    (limit ≠ 0 ∧ ∃ n, sample alg limit low high t = .limit (advance alg n t)) ∨
    ((limit = 0 ∨ generatorStates alg + 1 ≤ limit) ∧ (low : Int) ≤ high ∧ sample alg limit low high t = .never) := by
  by_cases h : high < (low : Int)
  · exact Or.inr (Or.inl ⟨h, sample_empty h t⟩)
  have hle : (low : Int) ≤ high := by omega
  rw [sample_nonempty hle]
  rcases sampleLoop_cases alg limit low (high - low + 1).toNat (bitlen (high - low + 1).toNat)
      (generatorStates alg + 1) 0 t (Or.inr (Nat.zero_le _)) with ⟨j, _, _, _, hacc, heq⟩ | ⟨hl, _, _, heq⟩ | ⟨hl, _, heq⟩
  · exact Or.inl ⟨_, _, heq, Nat.le_add_right _ _, by omega⟩
  · exact Or.inr (Or.inr (Or.inl ⟨hl, _, heq⟩))
  · exact Or.inr (Or.inr (Or.inr ⟨by omega, hle, heq⟩))

theorem word_lt_generatorStates (alg : PrngAlg) (w : Word) : ¬ generatorStates alg + 1 ≤ w.toNat := by
  have h1 : w.toNat < 2 ^ 32 := w.isLt
  have key : ∀ e : Nat, 32 ≤ e → (2 : Nat) ^ 32 ≤ 625 * 2 ^ e := fun e he =>
    le_trans (Nat.pow_le_pow_right (by decide) he) (Nat.le_mul_of_pos_left _ (by decide))
  have h2 : (2 : Nat) ^ 32 ≤ generatorStates alg := by
    cases alg
    unfold generatorStates
    exact key _ (by decide)
  omega

/-- The symbol of a non-negative first argument other than `a = n` always has a value, one of -1, 0, +1
(44_jacobi_gcd.md R192, R194). -/
theorem jacobi_total : ∀ (m : Nat) (a : Int) (n : Nat), 1 ≤ n → -1 ≤ a → clauseMeasure a n < m →
    ¬ (a = (n : Int) ∧ n % 2 = 1 ∧ 3 ≤ n) → ∃ j, jacobi a n = some j ∧ (j = 0 ∨ j = 1 ∨ j = -1) := by
  intro m
  induction m with
  | zero => intro a n _ _ h; omega
  | succ m ih =>
    intro a n hn ha hm hne
    have htwo : jacobiTwo n = 0 ∨ jacobiTwo n = 1 ∨ jacobiTwo n = -1 := by
      unfold jacobiTwo; split <;> [skip; split] <;> simp
    by_cases h0 : a = 0
    · subst h0; refine ⟨_, jacobi_zero n, ?_⟩; split <;> simp
    by_cases h1 : a = 1
    · subst h1; exact ⟨_, jacobi_one n, by simp⟩
    by_cases hn1 : a = -1
    · subst hn1; refine ⟨_, jacobi_neg_one n, ?_⟩; split <;> simp
    by_cases h2 : a = 2
    · subst h2; exact ⟨_, jacobi_two n, htwo⟩
    have h3 : 3 ≤ a := by omega
    by_cases hgt : (n : Int) < a
    · have hb := Int.emod_nonneg a (b := (n : Int)) (by omega)
      have hl := Int.emod_lt_of_pos a (b := (n : Int)) (by omega)
      have hm' : clauseMeasure (a % (n : Int)) n < m := by
        unfold clauseMeasure at hm ⊢
        rw [if_pos hl]; rw [if_neg (by omega)] at hm
        have : (a % (n : Int)).toNat < a.toNat := by omega
        omega
      rw [jacobi_reduce hn h3 hgt]
      exact ih _ n hn (by omega) hm' (by omega)
    by_cases hev : a % 2 = 0
    · have hm' : clauseMeasure (a / 2) n < m := by
        unfold clauseMeasure at hm ⊢
        have : (a / 2).toNat < a.toNat := by omega
        split <;> split at hm <;> omega
      obtain ⟨j, hj, hv⟩ := ih (a / 2) n hn (by omega) hm' (by omega)
      refine ⟨jacobiTwo n * j, by rw [jacobi_even hn h3 (by omega) hev, hj]; rfl, ?_⟩
      rcases htwo with h | h | h <;> rcases hv with h' | h' | h' <;> simp [h, h']
    have hlt : a < (n : Int) := by omega
    have hm' : clauseMeasure (n : Int) a.toNat < m := by
      unfold clauseMeasure at hm ⊢
      rw [if_neg (by omega)]; rw [if_pos hlt] at hm
      omega
    obtain ⟨j, hj, hv⟩ := ih (n : Int) a.toNat (by omega) (by omega) hm' (by omega)
    by_cases h4 : a % 4 = 3 ∧ n % 4 = 3
    · refine ⟨-j, by rw [jacobi_swap_neg h3 hlt h4.1 h4.2, hj]; rfl, ?_⟩
      rcases hv with h' | h' | h' <;> simp [h']
    · exact ⟨j, by rw [jacobi_swap h3 hlt (by omega) h4, hj], hv⟩

/-- A round of the tester with a drawn base ends: `1 ≤ a ≤ n - 2` keeps the symbol away from `a = n`. -/
theorem roundPasses_isSome {a n : Nat} (h : (a : Int) ≤ (n : Int) - 2) : ∃ b, roundPasses a n = some b := by
  unfold roundPasses
  split
  · exact ⟨_, rfl⟩
  · obtain ⟨j, hj, _⟩ := jacobi_total (clauseMeasure (a : Int) n + 1) (a : Int) n (by omega) (by omega) (by omega) (by omega)
    exact ⟨_, by rw [hj]; rfl⟩

/-- What the round loop can answer: a verdict, `Range` or `Limit`, each some words further on, or nothing without a cap
only. -/
theorem testRounds_cases (alg : PrngAlg) (limit n : Nat) : ∀ (todo i : Nat) (t : Stream),
    (∃ b r m, testRounds alg limit n todo i t = .verdict b r (advance alg m t)) ∨
    ((n : Int) - 2 < 1 ∧ testRounds alg limit n todo i t = .fault .range t) ∨
    (∃ m, testRounds alg limit n todo i t = .fault .limit (advance alg m t)) ∨
    (((limit = 0 ∨ generatorStates alg + 1 ≤ limit) ∧ todo ≠ 0 ∧ 3 ≤ n) ∧ testRounds alg limit n todo i t = .never) := by
  intro todo
  induction todo with
  | zero => intro i t; exact Or.inl ⟨true, i, 0, rfl⟩
  | succ todo ih =>
    intro i t
    rw [testRounds]
    rcases sample_cases alg limit 1 ((n : Int) - 2) t with ⟨a, m, heq, _, hle⟩ | ⟨hlt, heq⟩ | ⟨_, m, heq⟩ | ⟨hl, hle, heq⟩
    · obtain ⟨b, hb⟩ := roundPasses_isSome hle
      simp only [heq, hb]
      cases b with
      | false => exact Or.inl ⟨false, i, m, rfl⟩
      | true =>
        rcases ih (i + 1) (advance alg m t) with ⟨b, r, m', h⟩ | ⟨h1, _⟩ | ⟨m', h⟩ | ⟨⟨h1, _, h3⟩, h⟩
        · exact Or.inl ⟨b, r, m' + m, by simp only [h, advance_add]⟩
        · omega
        · exact Or.inr (Or.inr (Or.inl ⟨m' + m, by simp only [h, advance_add]⟩))
        · exact Or.inr (Or.inr (Or.inr ⟨⟨h1, by omega, h3⟩, h⟩))
    · exact Or.inr (Or.inl ⟨by omega, by rw [heq]⟩)
    · exact Or.inr (Or.inr (Or.inl ⟨m, by rw [heq]⟩))
    · exact Or.inr (Or.inr (Or.inr ⟨⟨hl, by omega, by omega⟩, by rw [heq]⟩))

/-! ### every command -/

/-- The completion of any command is `finish` of an outcome of the shape above. -/
theorem exec_shape (i : Instr) (s : State) : ∃ r, exec i s = finish s r ∧ ResultShape i s r := by
  have bad := checks_not_illegal s
  cases i with
  | nop =>
    exact ⟨.ok s, rfl, (⟨rfl, rfl, rfl, rfl, rfl, rfl, rfl, rfl, rfl, Or.inl ⟨rfl, rfl⟩, rfl, rfl, rfl, rfl, Or.inl rfl, Or.inl rfl,
      Or.inl rfl, Or.inl rfl, Or.inl ⟨0, rfl, fun h => absurd rfl h, rfl⟩⟩ : OkShape _ s s)⟩
  | mov rd rs1 => exact ⟨.ok (writeReg rd _ s), rfl, okShape_write (i := .mov rd rs1) rfl _ s⟩
  | ldi rd imm16 => exact ⟨.ok (writeReg rd _ s), rfl, okShape_write (i := .ldi rd imm16) rfl _ s⟩
  | seed len =>
    refine ⟨_, rfl, resultShape_guard (bad len 0 0 0 false).2.1 fun h => ?_⟩
    obtain ⟨h1, h2⟩ := seedLenCheck_none.mp h
    exact ⟨rfl, rfl, rfl, rfl, rfl, rfl, rfl, rfl, rfl, Or.inl ⟨rfl, rfl⟩, rfl, rfl, rfl, rfl, Or.inr ⟨len, rfl, rfl⟩, Or.inl rfl,
      Or.inl rfl, Or.inl rfl, Or.inr ⟨len, rfl, h1, h2, rfl⟩⟩
  | next rd =>
    refine ⟨_, rfl, resultShape_guard (bad 0 0 0 0 false).1 fun h => ?_⟩
    exact okShape_draw rfl _ 1 rfl (unseededCheck_none.mp h)
  | randbits rd k =>
    refine ⟨_, rfl, resultShape_guard (bad 0 k 0 0 false).2.2.2.2.2 fun h => ?_⟩
    exact okShape_draw rfl _ (drawCost k) (drawBits_stream _ _ _) (randbitsCheck_none.mp h).1
  | sample rd rs1 rs2 =>
    refine ⟨_, rfl, resultShape_guard (bad 0 0 0 0 false).1 fun h => ?_⟩
    have hs := unseededCheck_none.mp h
    rcases sample_cases s.cfg.prngAlg s.limit.toNat (readReg s rs1) (readReg s rs2 : Int) s.stream with
      ⟨v, n, heq, _⟩ | ⟨_, heq⟩ | ⟨_, n, heq⟩ | ⟨hl, _, heq⟩
    · rw [heq]; exact okShape_draw rfl v n rfl hs
    · rw [heq]; exact faultShape_self (by decide) s
    · rw [heq]; exact ⟨by decide, n, rfl, fun _ => ⟨rfl, hs⟩⟩
    · rw [heq]
      have h0 := hl.resolve_right (word_lt_generatorStates _ _)
      show s.limit = 0
      exact BitVec.eq_of_toNat_eq h0
  | montmul rd rs1 rs2 rs3 =>
    exact ⟨_, rfl, resultShape_guard (bad 0 0 0 _ false).2.2.2.1 fun _ => okShape_write rfl _ s⟩
  | tomont rd rs1 rs3 =>
    exact ⟨_, rfl, resultShape_guard (bad 0 0 0 _ false).2.2.2.1 fun _ => okShape_write rfl _ s⟩
  | frommont rd rs1 rs3 =>
    exact ⟨_, rfl, resultShape_guard (bad 0 0 0 _ false).2.2.2.1 fun _ => okShape_write rfl _ s⟩
  | mulmod rd rs1 rs2 rs3 =>
    exact ⟨_, rfl, resultShape_guard (bad 0 0 0 _ false).2.2.1 fun _ => okShape_write rfl _ s⟩
  | modexp rd rs1 rs2 rs3 =>
    exact ⟨_, rfl, resultShape_guard (bad 0 0 0 _ false).2.2.1 fun _ => okShape_write rfl _ s⟩
  | gcd rd rs1 rs2 => exact ⟨.ok (writeReg rd _ s), rfl, okShape_write (i := .gcd rd rs1 rs2) rfl _ s⟩
  | jacobi rd rs1 rs3 neg =>
    refine ⟨_, rfl, resultShape_guard (bad 0 0 _ _ neg).2.2.2.2.1 fun h => ?_⟩
    obtain ⟨hn, hneg⟩ := jacobiCheck_none.mp h
    by_cases hself : neg = false ∧ readReg s rs1 = readReg s rs3 ∧ readReg s rs1 % 2 = 1 ∧ 3 ≤ readReg s rs1
    · obtain ⟨rfl, he, hodd, h3⟩ := hself
      have : jacobi (symbolArg false (readReg s rs1)) (readReg s rs3) = none := by
        rw [← he]; exact jacobi_self h3 hodd
      rw [this]
      exact ⟨rfl, he, hodd, h3⟩
    · have harg : -1 ≤ symbolArg neg (readReg s rs1) := by
        unfold symbolArg; cases neg
        · simp only [Bool.false_eq_true, if_false]; omega
        · have := hneg rfl; simp only [if_true]; omega
      have hne : ¬ (symbolArg neg (readReg s rs1) = (readReg s rs3 : Int) ∧ readReg s rs3 % 2 = 1 ∧ 3 ≤ readReg s rs3) := by
        rintro ⟨h1, h2, h3⟩
        cases neg
        · apply hself
          simp only [symbolArg, Bool.false_eq_true, if_false] at h1
          exact ⟨rfl, by omega, by omega, by omega⟩
        · simp only [symbolArg, if_true] at h1; omega
      obtain ⟨j, hj, hv⟩ := jacobi_total _ _ _ (by omega) harg (Nat.lt_succ_self _) hne
      rw [hj]
      exact ⟨rfl, rfl, rfl, rfl, rfl, rfl, rfl, rfl, rfl, Or.inr ⟨rd, _, rfl, rfl⟩, rfl, rfl, rfl, rfl, Or.inl rfl, Or.inl rfl,
        Or.inr ⟨rd, rs1, rs3, neg, j, rfl, rfl, hv⟩, Or.inl rfl, Or.inl ⟨0, rfl, fun h => absurd rfl h, rfl⟩⟩
  | ptest rd rs3 =>
    refine ⟨_, rfl, resultShape_guard (bad 0 0 0 0 false).1 fun h => ?_⟩
    have hs := unseededCheck_none.mp h
    rcases testRounds_cases s.cfg.prngAlg s.limit.toNat (readReg s rs3) s.conf.toNat 0 s.stream with
      ⟨b, r, m, heq⟩ | ⟨_, heq⟩ | ⟨m, heq⟩ | ⟨⟨hl, hc, h3⟩, heq⟩
    · rw [heq]
      exact ⟨rfl, rfl, rfl, rfl, rfl, rfl, rfl, rfl, rfl, Or.inr ⟨rd, _, rfl, rfl⟩, rfl, rfl, rfl, rfl, Or.inl rfl,
        Or.inr ⟨rd, rs3, rfl⟩, Or.inl rfl, Or.inr ⟨rd, rs3, rfl⟩, Or.inl ⟨m, rfl, fun _ => hs, rfl⟩⟩
    · rw [heq]; exact ⟨by decide, 0, rfl, fun h => absurd rfl h⟩
    · rw [heq]; exact ⟨by decide, m, rfl, fun _ => ⟨rfl, hs⟩⟩
    · rw [heq]
      have h0 := hl.resolve_right (word_lt_generatorStates _ _)
      exact ⟨BitVec.eq_of_toNat_eq h0, fun h => hc (by rw [h]; rfl), h3⟩

/-- What a completion can do, as three kinds of next state. -/
theorem exec_cases (i : Instr) (s : State) :
    (∃ s', exec i s = .next (completeOk s') ∧ OkShape i s s') ∨
    (∃ c s', exec i s = .next (takeFault c s') ∧ FaultShape c s s') ∨
    (exec i s = .next s ∧ MayNotComplete i s) := by
  obtain ⟨r, h, hr⟩ := exec_shape i s
  cases r with
  | ok s' => exact Or.inl ⟨s', h, hr⟩
  | fault c s' => exact Or.inr (Or.inl ⟨c, s', h, hr⟩)
  | diverge => exact Or.inr (Or.inr ⟨h, hr⟩)

end Sys2Proof.Machine
end

