-- ==== Sys2Proof/Laws/PerInstr.lean ====
section
/-! SUPPORT. Statements made of every command, one lemma per constructor. -/

namespace Sys2Proof.Laws.OpcodeByte

/-- The word of a well-formed command has, in its low byte, the opcode of the command's row in the match/mask table
(30_encoding.md R91, R96). -/
def Statement (i : Instr) : Prop :=
  WellFormed i → ∃ r ∈ opcodeRows, r.mnemonic = mnemonicOf i ∧ opcodeOf (encode i) = r.pattern.toNat

theorem nop : Statement .nop := fun _ => ⟨⟨"NOP", 0x00, 0xFFFFFFFF⟩, by simp [opcodeRows], rfl, rfl⟩

theorem mov (rd rs1 : Reg) : Statement (.mov rd rs1) := fun _ =>
  ⟨⟨"MOV", 0x01, 0xFFFF00FF⟩, by simp [opcodeRows], rfl, opcodeOf_packR (by decide) (by decide) ..⟩

theorem ldi (rd : Reg) (imm16 : Nat) : Statement (.ldi rd imm16) := fun h =>
  ⟨⟨"LDI", 0x02, 0x0000F0FF⟩, by simp [opcodeRows], rfl, opcodeOf_packI (by decide) (of_decide_eq_true h) rd⟩

theorem seed (imm16 : Nat) : Statement (.seed imm16) := fun h =>
  ⟨⟨"SEED", 0x10, 0x0000FFFF⟩, by simp [opcodeRows], rfl, opcodeOf_packI (by decide) (of_decide_eq_true h) 0⟩

theorem next (rd : Reg) : Statement (.next rd) := fun _ =>
  ⟨⟨"NEXT", 0x11, 0xFFFFF0FF⟩, by simp [opcodeRows], rfl, opcodeOf_packR (by decide) (by decide) ..⟩

theorem randbits (rd : Reg) (imm16 : Nat) : Statement (.randbits rd imm16) := fun h =>
  ⟨⟨"RANDBITS", 0x12, 0x0000F0FF⟩, by simp [opcodeRows], rfl, opcodeOf_packI (by decide) (of_decide_eq_true h) rd⟩

theorem sample (rd rs1 rs2 : Reg) : Statement (.sample rd rs1 rs2) := fun _ =>
  ⟨⟨"SAMPLE", 0x13, 0xFFF000FF⟩, by simp [opcodeRows], rfl, opcodeOf_packR (by decide) (by decide) ..⟩

theorem montmul (rd rs1 rs2 rs3 : Reg) : Statement (.montmul rd rs1 rs2 rs3) := fun _ =>
  ⟨⟨"MONTMUL", 0x20, 0xFF0000FF⟩, by simp [opcodeRows], rfl, opcodeOf_packR (by decide) (by decide) ..⟩

theorem tomont (rd rs1 rs3 : Reg) : Statement (.tomont rd rs1 rs3) := fun _ =>
  ⟨⟨"TOMONT", 0x21, 0xFF0F00FF⟩, by simp [opcodeRows], rfl, opcodeOf_packR (by decide) (by decide) ..⟩

theorem frommont (rd rs1 rs3 : Reg) : Statement (.frommont rd rs1 rs3) := fun _ =>
  ⟨⟨"FROMMONT", 0x22, 0xFF0F00FF⟩, by simp [opcodeRows], rfl, opcodeOf_packR (by decide) (by decide) ..⟩

theorem mulmod (rd rs1 rs2 rs3 : Reg) : Statement (.mulmod rd rs1 rs2 rs3) := fun _ =>
  ⟨⟨"MULMOD", 0x23, 0xFF0000FF⟩, by simp [opcodeRows], rfl, opcodeOf_packR (by decide) (by decide) ..⟩

theorem modexp (rd rs1 rs2 rs3 : Reg) : Statement (.modexp rd rs1 rs2 rs3) := fun _ =>
  ⟨⟨"MODEXP", 0x30, 0xFF0000FF⟩, by simp [opcodeRows], rfl, opcodeOf_packR (by decide) (by decide) ..⟩

theorem gcd (rd rs1 rs2 : Reg) : Statement (.gcd rd rs1 rs2) := fun _ =>
  ⟨⟨"GCD", 0x40, 0xFFF000FF⟩, by simp [opcodeRows], rfl, opcodeOf_packR (by decide) (by decide) ..⟩

theorem jacobi (rd rs1 rs3 : Reg) (neg : Bool) : Statement (.jacobi rd rs1 rs3 neg) := fun _ =>
  ⟨⟨"JACOBI", 0x41, 0xFE0F00FF⟩, by simp [opcodeRows], rfl, opcodeOf_packR (by decide) (by cases neg <;> decide) ..⟩

theorem ptest (rd rs3 : Reg) : Statement (.ptest rd rs3) := fun _ =>
  ⟨⟨"PTEST", 0x50, 0xFF0FF0FF⟩, by simp [opcodeRows], rfl, opcodeOf_packR (by decide) (by decide) ..⟩

end Sys2Proof.Laws.OpcodeByte
end

