-- ==== Sys2Proof/Laws/Step.lean ====
section
/-! SUPPORT. What a host write and a clock edge can do, once (20_memory.md R68 to R71, 10_state.md R25). -/

namespace Sys2Proof.Machine

variable (s : State)

/-! ### host writes -/

/-- The ways a host write can end (20_memory.md R63, R68 to R71). -/
inductive WriteEffect (s : State) (addr : BitVec 11) (w : Word) : State → Prop where
  | ignored : WriteEffect s addr w s
  | dropped (why : s.status.busy = true ∨ (target s.cfg addr = .cmd ∧ s.status.err = true)) :
      WriteEffect s addr w (markDrop s)
  | accepted (at_ : target s.cfg addr = .cmd) (idle : s.status.busy = false) (clear : s.status.err = false) :
      WriteEffect s addr w (acceptCommand w s)
  | cleared (at_ : target s.cfg addr = .status) : WriteEffect s addr w (writeStatus w s)
  | reset (at_ : target s.cfg addr = .ctrl) (srst : w.getLsbD 31 = true) : WriteEffect s addr w (resetEngine s)
  | enables (at_ : target s.cfg addr = .ctrl) (srst : w.getLsbD 31 = false) :
      WriteEffect s addr w { s with ctrl := { ieDone := w.getLsbD 0, ieErr := w.getLsbD 1 } }
  | conf (at_ : target s.cfg addr = .conf) (idle : s.status.busy = false) : WriteEffect s addr w { s with conf := w }
  | limit (at_ : target s.cfg addr = .limit) (idle : s.status.busy = false) : WriteEffect s addr w { s with limit := w }
  | seed (i : Nat) (at_ : target s.cfg addr = .seed i) (idle : s.status.busy = false) :
      WriteEffect s addr w { s with seedbuf := s.seedbuf.set i w }
  | xword (r : Reg) (i : Nat) (at_ : target s.cfg addr = .xword r i) (idle : s.status.busy = false) :
      WriteEffect s addr w { s with x := s.x.set r.val (putWord (readReg s r) i w) }

theorem writeUnlessBusy_busy {s s' : State} (h : s.status.busy = true) : writeUnlessBusy s s' = markDrop s := by
  simp [writeUnlessBusy, h]

theorem writeUnlessBusy_idle {s s' : State} (h : s.status.busy = false) : writeUnlessBusy s s' = s' := by
  simp [writeUnlessBusy, h]

/-- Every host write ends in one of these ways. -/
theorem busWrite_effect (addr : BitVec 11) (w : Word) : WriteEffect s addr w (busWrite s addr w) := by
  have blocked : ∀ s', (s.status.busy = false → WriteEffect s addr w s') → WriteEffect s addr w (writeUnlessBusy s s') := by
    intro s' h
    rcases hb : s.status.busy with _ | _
    · rw [writeUnlessBusy_idle hb]; exact h hb
    · rw [writeUnlessBusy_busy hb]; exact .dropped (Or.inl hb)
  unfold busWrite
  rcases ht : target s.cfg addr with _ | _ | _ | _ | _ | _ | _ | _ | _ | _ | _ | i | ⟨r, i⟩ | _ <;> dsimp only
  · unfold writeCmd
    rcases hb : s.status.busy with _ | _
    · rcases he : s.status.err with _ | _
      · exact .accepted ht hb he
      · exact .dropped (Or.inr ⟨ht, he⟩)
    · exact .dropped (Or.inl hb)
  · exact .cleared ht
  · unfold writeCtrl
    rcases hw : w.getLsbD 31 with _ | _
    · exact .enables ht hw
    · exact .reset ht hw
  · exact blocked _ fun h => .conf ht h
  · exact blocked _ fun h => .limit ht h
  · exact .ignored
  · exact .ignored
  · exact .ignored
  · exact .ignored
  · exact .ignored
  · exact .ignored
  · exact blocked _ fun h => .seed i ht h
  · exact blocked _ fun h => .xword r i ht h
  · exact .ignored

/-- A host read changes no state (20_memory.md R67). -/
@[simp] theorem busAccess_none : busAccess s none = s := rfl
@[simp] theorem busAccess_read (addr : BitVec 11) : busAccess s (some (.read addr)) = s := rfl
@[simp] theorem busAccess_write (addr : BitVec 11) (w : Word) : busAccess s (some (.write addr w)) = busWrite s addr w := rfl

/-- The configuration and the inputs to come are not the bus's to change. -/
theorem busAccess_cfg_sched (a : Option Access) : (busAccess s a).cfg = s.cfg ∧ (busAccess s a).sched = s.sched := by
  rcases a with _ | ⟨addr⟩ | ⟨addr, w⟩
  · exact ⟨rfl, rfl⟩
  · exact ⟨rfl, rfl⟩
  · rw [busAccess_write]
    have h := busWrite_effect s addr w
    generalize busWrite s addr w = t at h
    cases h <;> exact ⟨rfl, rfl⟩

/-! ### the address map -/

/-- A word below 0x100 is a register of the map or reserved; in particular it is no seed word and no operand word. -/
theorem namedTargets_ne (w : Nat) :
    (∀ i, namedTargets.getD w .reserved ≠ .seed i) ∧ (∀ r i, namedTargets.getD w .reserved ≠ .xword r i) := by
  by_cases h : w < 11
  · interval_cases w <;> simp [namedTargets]
  · have : namedTargets.getD w .reserved = .reserved := by
      rw [List.getD_eq_getElem?_getD, List.getElem?_eq_none (by simp [namedTargets]; omega)]; rfl
    rw [this]
    exact ⟨fun _ => Target.noConfusion, fun _ _ => Target.noConfusion⟩

/-- Where the seed words are. -/
theorem target_seed_iff {cfg : Config} (hc : cfg.seedMax ≤ 64) {addr : BitVec 11} {i : Nat} :
    target cfg addr = .seed i ↔ addr.toNat = 0x040 + i ∧ i < cfg.seedMax := by
  unfold target seedTarget xwordTarget
  split_ifs with h1 h2 h3 h4 h5
  · constructor
    · intro h; exact absurd h ((namedTargets_ne _).1 i)
    · intro h; omega
  · rw [Target.seed.injEq]; omega
  · constructor
    · intro h; cases h
    · intro h; omega
  · constructor
    · intro h; cases h
    · intro h; omega
  · constructor
    · intro h; cases h
    · intro h; omega
  · constructor
    · intro h; cases h
    · intro h; omega

/-- Where the words of the operand registers are. -/
theorem target_xword_iff {cfg : Config} (hc : cfg.L ≤ 64) {addr : BitVec 11} {r : Reg} {i : Nat} :
    target cfg addr = .xword r i ↔ addr.toNat = 0x400 + 64 * r.val + i ∧ i < cfg.L := by
  have ha : addr.toNat < 2048 := addr.isLt
  have hr : r.val < 16 := r.isLt
  unfold target seedTarget xwordTarget
  split_ifs with h1 h2 h3 h4 h5
  · constructor
    · intro h; exact absurd h ((namedTargets_ne _).2 r i)
    · intro h; omega
  · constructor
    · intro h; cases h
    · intro h; omega
  · constructor
    · intro h; cases h
    · intro h; omega
  · constructor
    · intro h; cases h
    · intro h; omega
  · rw [Target.xword.injEq, Fin.ext_iff, Fin.val_ofNat]; omega
  · constructor
    · intro h; cases h
    · intro h; omega

/-! ### the edge -/

/-- A completion is that of the decoded command, or the fault `Illegal` (10_state.md R25, 30_encoding.md R98). -/
theorem completeCommand_ok {s : State} {i : Instr} (h : decode s.cmdreg = .ok i) : completeCommand s = exec i s := by
  simp [completeCommand, h]

theorem completeCommand_error {s : State} {e : DecodeError} (h : decode s.cmdreg = .error e) :
    completeCommand s = .next (takeFault .illegal s) := by
  simp [completeCommand, h]

/-- A completion as three kinds of next state, `Illegal` included. -/
theorem completeCommand_cases :
    (∃ i s', decode s.cmdreg = .ok i ∧ completeCommand s = .next (completeOk s') ∧ OkShape i s s') ∨
    (∃ i c s', decode s.cmdreg = .ok i ∧ completeCommand s = .next (takeFault c s') ∧ FaultShape c s s') ∨
    (∃ i, decode s.cmdreg = .ok i ∧ completeCommand s = .next s ∧ MayNotComplete i s) ∨
    (completeCommand s = .next (takeFault .illegal s)) := by
  rcases h : decode s.cmdreg with e | i
  · exact Or.inr (Or.inr (Or.inr (completeCommand_error h)))
  · rw [completeCommand_ok h]
    rcases exec_cases i s with ⟨s', h1, h2⟩ | ⟨c, s', h1, h2⟩ | ⟨h1, h2⟩
    · exact Or.inl ⟨i, s', rfl, h1, h2⟩
    · exact Or.inr (Or.inl ⟨i, c, s', rfl, h1, h2⟩)
    · exact Or.inr (Or.inr (Or.inl ⟨i, rfl, h1, h2⟩))

/-- Everything one edge can do: reset, the host's access alone, or the access and then the completion of the command that was
in flight. -/
theorem clockEdge_cases (e : Edge) :
    (e.rst = true ∧ clockEdge e s = .next (resetEngine s)) ∨
    (e.rst = false ∧ ¬ (e.finish = true ∧ s.status.busy = true ∧ (busAccess s e.access).status.busy = true) ∧
      clockEdge e s = .next (busAccess s e.access)) ∨
    (e.rst = false ∧ e.finish = true ∧ s.status.busy = true ∧ (busAccess s e.access).status.busy = true ∧
      clockEdge e s = completeCommand (busAccess s e.access)) := by
  unfold clockEdge
  rcases e.rst with _ | _
  · right
    by_cases h : (e.finish && s.status.busy && (busAccess s e.access).status.busy) = true
    · right; simp_all
    · left; simp_all
  · left; simp

/-- One step of a run of the machine behind the host's interface. -/
theorem run_next {M : Host.Core} {k : Nat} {s t : M.State} (h : M.step s = .next t) : M.run (k + 1) s = M.run k t := by
  show (match M.step s with
    | .next s' => M.run k s'
    | .fault r => .fault r
    | .refused r => .refused r) = _
  rw [h]

/-- A poll that waits in the host's inputs shows `STATUS` (20_memory.md R61, 30_encoding.md R102). -/
theorem rdata_of_poll {s : State} {rest : List Edge} {finish : Bool} (h : s.sched = { hostRead 4 with finish := finish } :: rest) :
    s.rdata = some s.status.word := by
  have he : s.edge = { hostRead 4 with finish := finish } := by unfold State.edge; rw [h]; rfl
  unfold State.rdata
  rw [he]
  rfl

end Sys2Proof.Machine
end

