-- ==== Sys2Proof/Tests/Slice0.lean ====
section
/-! SUPPORT. The model's own tests: ill-formed commands, command words written out from the spec, one step a command on the
vectors of 95_test_vectors.md, and for each statement with hypotheses a state and operands that meet them. -/

-- The kernel evaluations of this file run one after another; else each holds a thread of its own while it waits.
set_option Elab.async false

namespace Sys2Proof.Tests
open Sys2Proof Sys2Proof.Machine

/-! ### well-formedness: what the check refuses -/

theorem test_wf_ldi : wellFormed (.ldi 0 65536) = false := by decide
theorem test_wf_seed : wellFormed (.seed 65536) = false := by decide
theorem test_wf_randbits : wellFormed (.randbits 15 65536) = false := by decide

/-! ### decoding: words of 95_test_vectors.md section 9 and 30_encoding.md R101 -/

theorem test_decode_nop : decode 0x00000000 = .ok .nop := rfl
theorem test_decode_mov : decode 0x0000FF01 = .ok (.mov 15 15) := rfl
theorem test_decode_ldi : decode 0xFFFF0F02 = .ok (.ldi 15 65535) := rfl
theorem test_decode_seed : decode 0xFFFF0010 = .ok (.seed 65535) := rfl
theorem test_decode_next : decode 0x00000F11 = .ok (.next 15) := rfl
theorem test_decode_randbits : decode 0x01000F12 = .ok (.randbits 15 256) := rfl
theorem test_decode_sample : decode 0x00021313 = .ok (.sample 3 1 2) := rfl
theorem test_decode_montmul : decode 0x00721320 = .ok (.montmul 3 1 2 7) := rfl
theorem test_decode_tomont : decode 0x00701321 = .ok (.tomont 3 1 7) := rfl
theorem test_decode_frommont : decode 0x00701322 = .ok (.frommont 3 1 7) := rfl
theorem test_decode_mulmod : decode 0x00721323 = .ok (.mulmod 3 1 2 7) := rfl
theorem test_decode_modexp : decode 0x00721330 = .ok (.modexp 3 1 2 7) := rfl
theorem test_decode_gcd : decode 0x00021340 = .ok (.gcd 3 1 2) := rfl
theorem test_decode_jacobi : decode 0x00201341 = .ok (.jacobi 3 1 2 false) := rfl
theorem test_decode_jacobin : decode 0x01F0FF41 = .ok (.jacobi 15 15 15 true) := rfl
theorem test_decode_ptest : decode 0x00200350 = .ok (.ptest 3 2) := rfl

/-- The illegal words of 95_test_vectors.md section 9. -/
theorem test_decode_illegal : [0x00000100, 0x00010001, 0x01000001, 0x00001002, 0x00080110, 0x00081010, 0x00001011, 0x00100013, 0x01FFFF20,
    0x00F1FF21, 0x001FFF40, 0x02201341, 0x00211341, 0x00701050, 0x00710050, 0x00000003, 0x00000014, 0x00000024, 0x00000031, 0x00000042,
    0x00000051, 0x000000FF, 0xFFFFFFFF].all (fun cw => (decode cw).toOption.isNone) = true := by decide

/-! ### small states -/

/-- The default machine with operands in `x[1]`, `x[2]`, `x[7]` and 99 in `x[3]`. -/
def loaded (a b n : Nat) : State :=
  { State.reset with x := (((State.reset.x.set 1 a).set 2 b).set 7 n).set 3 99 }

/-- A generator whose next words are those of the seed S8 (95_test_vectors.md section 2, outputs 1 to 3), then zeros: `mt` holds the words
whose tempering they are. Seeding itself is too long for a test in the kernel. -/
def s8 (s : State) : State :=
  { s with
    status := { s.status with seeded := true }
    prng := { mt := (((Vector.replicate 624 0).set 0 0x1A04B93B).set 1 0x61BCBFD2).set 2 0x8ECE1DDF, mti := 0 } }

/-- A seeded generator whose next words are `temper w`, then zeros. -/
def seededWith (w : Word) (s : State) : State :=
  { s with
    status := { s.status with seeded := true }
    prng := { mt := (Vector.replicate 624 0).set 0 w, mti := 0 } }

/-- The state after the command word `cw` has completed, and what a test looks at in it. -/
def seen {α : Type} (s : State) (cw : Word) (look : State → α) : Option α :=
  match step (s.withCommand cw) with
  | .next t => some (look t)
  | _ => none

/-- What most tests look at: `x[3]`, `STATUS`, `PRNGCNT`. -/
def look3 (t : State) : Nat × Word × Word := (readReg t 3, t.status.word, t.prngcnt)

/-- The fault record a test looks at: `x[3]`, `STATUS`, `ERRCODE`, `ERRCMD`, `PRNGCNT`. -/
def lookFault (t : State) : Nat × Word × BitVec 8 × Word × Word := (readReg t 3, t.status.word, t.errcode, t.errcmd, t.prngcnt)

/-! ### one step a command (95_test_vectors.md sections 2, 3, 5, 7, 8, 9) -/

theorem test_nop : seen State.reset 0 (fun t => (t.status.word, decide (t.x = State.reset.x))) = some (2, true) := by decide +kernel
theorem test_mov : seen (loaded 754739 0 0) 0x00001201 (fun t => (readReg t 2, t.status.word)) = some (754739, 2) := by decide +kernel
theorem test_ldi : seen (loaded 0 0 0) 0xFFFF0F02 (fun t => (readReg t 15, t.status.word)) = some (65535, 2) := by decide +kernel
theorem test_seed : seen State.reset 0x00100010 (fun t => (t.status.word, t.prngcnt)) = some (0x12, 0) := by decide +kernel
theorem test_seed_empty : seen State.reset 0x00000010 lookFault = some (0, 4, 3, 0x10, 0) := by decide +kernel
theorem test_next : seen (s8 (loaded 0 0 0)) 0x00000311 look3 = some (3706558615, 0x12, 1) := by decide +kernel
theorem test_next_unseeded : seen (loaded 0 0 0) 0x00000311 lookFault = some (99, 4, 2, 0x311, 0) := by decide +kernel
theorem test_randbits_65 : seen (s8 (loaded 0 0 0)) 0x00410312 look3 = some (0xBCF6A5F8DCED9897, 0x12, 3) := by decide +kernel
theorem test_randbits_257 : seen (s8 (loaded 0 0 0)) 0x01010312 lookFault = some (99, 0x14, 8, 0x01010312, 0) := by decide +kernel
theorem test_sample : seen (s8 (loaded 1 754738 0)) 0x00021313 look3 = some (405406, 0x12, 3) := by decide +kernel
theorem test_sample_limit :
    seen { s8 (loaded 1 754738 0) with limit := 2 } 0x00021313 lookFault = some (99, 0x14, 9, 0x00021313, 2) := by decide +kernel
theorem test_montmul : seen (loaded 644309 589094 754739) 0x00721320 look3 = some (423449, 2, 0) := by decide +kernel
theorem test_montmul_unreduced :
    seen (loaded (2 ^ 256 - 1) (2 ^ 256 - 1) 754739) 0x00721320 look3 = some (303378, 2, 0) := by decide +kernel
theorem test_tomont : seen (loaded 754741 0 754739) 0x00701321 look3 = some (644309, 2, 0) := by decide +kernel
theorem test_frommont : seen (loaded 8182 0 754739) 0x00701322 look3 = some (353797, 2, 0) := by decide +kernel
theorem test_frommont_even : seen (loaded 5 0 10) 0x00701322 lookFault = some (99, 4, 6, 0x00701322, 0) := by decide +kernel
theorem test_mulmod : seen (loaded 7208703 1342590659 1954317783) 0x00721323 look3 = some (623638905, 2, 0) := by decide +kernel
theorem test_mulmod_wide :
    seen (loaded (2 ^ 256 - 1) (2 ^ 256 - 1) (2 ^ 256 - 2)) 0x00721323 look3 = some (1, 2, 0) := by decide +kernel
theorem test_modexp : seen (loaded 2986608707 1853279307 1954317783) 0x00721330 look3 = some (1342590659, 2, 0) := by decide +kernel
theorem test_modexp_zero : seen (loaded 0 0 7) 0x00721330 look3 = some (1, 2, 0) := by decide +kernel
theorem test_gcd : seen (loaded 396 561 0) 0x00021340 look3 = some (33, 2, 0) := by decide +kernel
theorem test_gcd_zero : seen (loaded 0 0 0) 0x00021340 look3 = some (0, 2, 0) := by decide +kernel
theorem test_jacobi : seen (loaded 1001 0 9907) 0x00701341 look3 = some (9906, 0xC2, 0) := by decide +kernel
theorem test_jacobin : seen (loaded 1 0 5) 0x01701341 look3 = some (4, 0xC2, 0) := by decide +kernel
theorem test_ptest_pass :
    seen { s8 (loaded 0 0 754739) with conf := 1 } 0x00700350 (fun t => (look3 t, t.rounds)) = some ((1, 0x32, 3), 1) := by
  decide +kernel
theorem test_ptest_fail :
    seen (s8 (loaded 0 0 561)) 0x00700350 (fun t => (look3 t, t.rounds)) = some ((0, 0x12, 3), 0) := by decide +kernel

/-- The tempering of the zero word, and of the word behind output 1 of the seed S8 (95_test_vectors.md section 2). -/
theorem test_temper : temper 0 = 0 ∧ temper 0x1A04B93B = 0xDCED9897 := by decide +kernel

/-- Illegal beats every other fault (95_test_vectors.md section 9). -/
theorem test_illegal : seen State.reset 0x00001011 lookFault = some (0, 4, 1, 0x00001011, 0) := by decide +kernel

/-- The divergent `JACOBI` of 95_test_vectors.md section 7: BUSY stays 1, nothing is written. -/
theorem test_jacobi_diverges : seen (loaded 15 0 15) 0x00701341 look3 = some (99, 1, 0) := by decide +kernel

/-- Writes while busy (95_test_vectors.md section 6, trace after P4): dropped, `DROP` set. -/
theorem test_busy_write :
    (match step { (loaded 0 0 7).withCommand 0x00700050 with sched := [hostWrite 0x1700 5] } with
     | .next t => some (readReg t 7, t.status.word)
     | _ => none) = some (7, 9) := by decide +kernel

/-- P4, step 12: the soft reset. -/
theorem test_soft_reset :
    (match step { s8 (loaded 1 2 3) with limit := 2, ctrl := ⟨true, true⟩, sched := [hostWrite 0x008 0x80000000] } with
     | .next t => some (readReg t 3, t.status.word, t.ctrl.word, t.conf, t.limit)
     | _ => none) = some (0, 0, 0, 32, 0) := by decide +kernel

/-- `WAIT` after an issued `LDI X3, 7` (30_encoding.md R102): two polls read `BUSY = 1`, the third reads `DONE` without `BUSY`. -/
theorem test_wait :
    (List.range 4).map (fun k =>
      match Host.Core.run Sys2Proof.core k { State.reset with sched := hostIssue (.ldi 3 7) :: hostWait 2 } with
      | .next t => t.rdata
      | _ => none) = [none, some 1, some 1, some 2] := by decide +kernel

/-- 10_state.md R39. -/
theorem test_param : paramWord Config.default = 0x01101008 := by decide

/-- The printer on the examples of 30_encoding.md R101, and its words. -/
theorem test_asm : asmText (.modexp 3 1 2 7) = "MODEXP X3, X1, X2, X7" ∧ encode (.modexp 3 1 2 7) = 0x00721330 ∧
    asmText (.jacobi 3 1 2 true) = "JACOBIN X3, X1, X2" := by decide +kernel

/-! ### witnesses: the hypotheses of each statement are met together -/

/-- A seeded state whose draws are all 0, and one whose first word is all ones and the rest 0. -/
def zeros (s : State) : State := seededWith 0 s
def onesFirst (s : State) : State := seededWith 0x12DD9BB3 s

theorem test_onesFirst : temper 0x12DD9BB3 = 0xFFFFFFFF := by decide +kernel

/-- A state in flight with the word `cw` and the inputs `sched`. -/
def inFlight (cw : Word) (sched : List Edge) (s : State) : State := { s.withCommand cw with sched := sched }

theorem sized_loaded : Sized (loaded (2 ^ 256 - 1) 5 7) := ⟨by decide, by decide +kernel, by decide +kernel⟩
theorem sized_zeros : Sized (zeros (loaded 1 1 5)) := ⟨by decide, by decide +kernel, by decide +kernel⟩

theorem witness_DecodeOfEncodeIsTheCommand : WellFormed (.ldi 15 65535) ∧ WellFormed (.jacobi 15 0 15 true) := by decide
theorem witness_EncodeOfDecodeIsTheWord : decode 0xFFFF0F12 = .ok (.randbits 15 65535) := rfl
theorem witness_DecoderAgreesWithTheMatchMaskTable :
    (⟨"JACOBI", 0x00000041, 0xFE0F00FF⟩ : OpcodeRow) ∈ opcodeRows := by decide
theorem witness_DecodedCommandHasTheWordsFields : decode 0x01F0FF41 = .ok (.jacobi 15 15 15 true) := rfl

theorem witness_IllegalWordIsAcceptedAndFaults :
    ((∀ r ∈ opcodeRows, ¬ r.spells 0x00000100) ∧ target State.reset.cfg 0 = .cmd ∧ State.reset.status.busy = false ∧
      State.reset.status.err = false) ∧
    (Completes (State.reset.withCommand 0x00000100) ∧
      ∀ r ∈ opcodeRows, ¬ r.spells (State.reset.withCommand 0x00000100).cmdreg) :=
  ⟨⟨by decide, by decide, rfl, rfl⟩, ⟨rfl, rfl, rfl, rfl⟩, by decide⟩

theorem witness_StepRunsTheDecodedCommand :
    Completes (State.reset.withCommand 0x00080010) ∧ decode (State.reset.withCommand 0x00080010).cmdreg = .ok (.seed 8) ∧
    (State.reset.withCommand 0x00080010).edge.access = none := ⟨⟨rfl, rfl, rfl, rfl⟩, rfl, rfl⟩

theorem witness_PlacedTableWordRunsNext :
    decodeTableWord 32 0x00721330 = some (.modexp 3 1 2 7) ∧ decodeTableWord 8 0 = some .nop := by decide

theorem witness_IssuedCommandCompletesAsExec :
    WellFormed (.seed 65535) ∧ State.reset.status.busy = false ∧ State.reset.status.err = false := by decide

theorem witness_SystemCommandResults : Sized (loaded (2 ^ 256 - 1) 5 7) ∧ 65535 < 65536 := ⟨sized_loaded, by decide⟩

theorem witness_SeedCommandResults :
    (1 ≤ 1 ∧ 1 ≤ State.reset.cfg.seedMax) ∧ (1 ≤ 16 ∧ 16 ≤ State.reset.cfg.seedMax) ∧ State.reset.cfg.seedMax < 17 := by decide

theorem witness_NextAndRandbitsResults :
    Sized (zeros (loaded 1 1 5)) ∧ (zeros (loaded 1 1 5)).status.seeded = true ∧ 0 ≤ (zeros (loaded 1 1 5)).cfg.xlen ∧
    256 ≤ (zeros (loaded 1 1 5)).cfg.xlen := ⟨sized_zeros, rfl, by decide, by decide⟩

theorem witness_GeneratorRecurrences : 622 + 1 < 624 ∧ 623 < 624 ∧ ([1] : List Word) ≠ [] ∧ 0 < max 624 ([1] : List Word).length + 623 := by
  decide

theorem witness_NextWordTakesTheWordAtMti :
    (⟨⟨Vector.replicate 624 0, 623⟩, 0⟩ : Stream).gen.mti.val < 624 ∧ (⟨⟨Vector.replicate 624 0, 624⟩, 0⟩ : Stream).gen.mti.val = 624 :=
  ⟨by decide, rfl⟩

/-- Draw 0 accepted without a cap; draw 0 rejected and draw 1 accepted under the cap 2, the width 1 (41_sampler.md R142). -/
theorem witness_SampleReturnsTheFirstAcceptedDraw :
    (Sized (zeros (loaded 1 1 5)) ∧ (zeros (loaded 1 1 5)).status.seeded = true ∧
      readReg (zeros (loaded 1 1 5)) 1 ≤ readReg (zeros (loaded 1 1 5)) 2 ∧
      attemptDraw .mt19937 (bitlen (intervalWidth 1 1)) 0 (zeros (loaded 1 1 5)).stream < intervalWidth 1 1 ∧
      (zeros (loaded 1 1 5)).limit = 0) ∧
    (let s := { onesFirst (loaded 1 1 5) with limit := 2 }
     s.status.seeded = true ∧ readReg s 1 ≤ readReg s 2 ∧
      (∀ i, i < 1 → intervalWidth 1 1 ≤ attemptDraw .mt19937 (bitlen (intervalWidth 1 1)) i s.stream) ∧
      attemptDraw .mt19937 (bitlen (intervalWidth 1 1)) 1 s.stream < intervalWidth 1 1 ∧ 1 < s.limit.toNat) :=
  ⟨⟨sized_zeros, rfl, by decide +kernel, by decide +kernel, by decide⟩,
    by decide +kernel⟩

theorem witness_SampleFaultsAtTheCap :
    let s := { onesFirst (loaded 1 1 5) with limit := 1 }
    s.status.seeded = true ∧ readReg s 1 ≤ readReg s 2 ∧ s.limit ≠ 0 ∧
      ∀ i, i < s.limit.toNat → intervalWidth 1 1 ≤ attemptDraw .mt19937 (bitlen (intervalWidth 1 1)) i s.stream := by
  decide +kernel

/-- Clause by clause: `[1, 0]` and `[1, -1]` are empty; a draw accepted at once; the cap 1 met. -/
theorem witness_SampleFunctionOutcomes :
    ((0 : Int) < ((1 : Nat) : Int) ∧ (-1 : Int) < ((1 : Nat) : Int)) ∧
    (((1 : Nat) : Int) ≤ 1 ∧ attemptDraw .mt19937 1 0 (zeros State.reset).stream < 1) ∧
    ((1 : Word) ≠ 0 ∧ ∀ i, i < (1 : Word).toNat → 1 ≤ attemptDraw .mt19937 1 i (onesFirst State.reset).stream) := by decide +kernel

theorem witness_MontgomeryCommandResults :
    Sized (loaded (2 ^ 256 - 1) 5 7) ∧ readReg (loaded (2 ^ 256 - 1) 5 7) 7 % 2 = 1 ∧ readReg (loaded 5 7 1) 7 % 2 = 1 :=
  ⟨sized_loaded, by decide +kernel, by decide +kernel⟩

theorem witness_MulmodResult : Sized (loaded (2 ^ 256 - 1) 5 7) ∧ readReg (loaded (2 ^ 256 - 1) 5 7) 7 ≠ 0 :=
  ⟨sized_loaded, by decide +kernel⟩

theorem witness_MontgomeryIdentities : 1 % 2 = 1 ∧ 754739 % 2 = 1 := by decide

/-- Each row of 43_modexp.md R182 at a boundary value: `e = 0` with `n = 2`, `n = 1`, `a = 0` with `e = 1`, `a = 1`, `e = 1`, `a = n`, `n = 0`. -/
theorem witness_ModexpResultAndCorners :
    Sized (loaded (2 ^ 256 - 1) 5 7) ∧
    (readReg (loaded 0 0 2) 2 = 0 ∧ 2 ≤ readReg (loaded 0 0 2) 7) ∧ (readReg (loaded 5 0 1) 2 = 0 ∧ readReg (loaded 5 0 1) 7 = 1) ∧
    (readReg (loaded 0 1 7) 1 = 0 ∧ 1 ≤ readReg (loaded 0 1 7) 2 ∧ readReg (loaded 0 1 7) 7 ≠ 0) ∧
    (readReg (loaded 1 1 1) 1 = 1 ∧ readReg (loaded 1 1 1) 2 = 1 ∧ readReg (loaded 1 1 1) 7 ≠ 0) ∧
    readReg (loaded 7 1 7) 7 ≤ readReg (loaded 7 1 7) 1 ∧ readReg (loaded 2 5 0) 7 = 0 :=
  ⟨sized_loaded, by decide +kernel⟩

theorem witness_GcdResult : Sized (loaded (2 ^ 256 - 1) 5 7) := sized_loaded

theorem witness_JacobiFollowsTheClauseList :
    ((-1 : Int) ≤ -1 ∧ 1 ≤ 1) ∧ ClauseValue (-1) 1 (-1) ∧ ClauseValue 3 7 (-1) :=
  ⟨by decide, .c3, .c7 (by decide) (by decide) (by decide) (by decide)
    (.c5 (by decide) (by decide) .c2)⟩

/-- The clause list on both sides of its exception, and the command at `a = n = 3`. -/
theorem witness_ClauseListEndsExceptAtSelf :
    ((0 : Int) ≤ 0 ∧ 1 ≤ 1) ∧
    (let s := (loaded 3 0 3).withCommand 0x00701341
     Completes s ∧ decode s.cmdreg = .ok (.jacobi 3 1 7 false) ∧ readReg s.atCompletion 1 = readReg s.atCompletion 7 ∧
      readReg s.atCompletion 1 % 2 = 1 ∧ 3 ≤ readReg s.atCompletion 1) :=
  ⟨by decide, ⟨rfl, rfl, rfl, rfl⟩, rfl, by decide +kernel⟩

/-- `J(3, 7) = -1` (44_jacobi_gcd.md R198) and `J(-1, 5) = -1`, `x[rs1] = 1` the largest with `NEG`. -/
theorem witness_JacobiCommandResult :
    (Sized (loaded 3 0 7) ∧ readReg (loaded 3 0 7) 7 ≠ 0 ∧ ClauseValue (if false then -((3 : Nat) : Int) else ((3 : Nat) : Int)) 7 (-1)) ∧
    (readReg (loaded 1 0 5) 1 ≤ 1 ∧ ClauseValue (if true then -((1 : Nat) : Int) else ((1 : Nat) : Int)) 5 (-1)) :=
  ⟨⟨⟨by decide, by decide +kernel, by decide +kernel⟩, by decide +kernel, .c7 (by decide) (by decide) (by decide) (by decide)
    (.c5 (by decide) (by decide) .c2)⟩, by decide +kernel, .c3⟩

theorem witness_JacobiIsTheTextbookSymbol :
    ((0 : Int) ≤ 0 ∧ 1 % 2 = 1 ∧ (0 : Int) ≠ ((1 : Nat) : Int)) ∧ ((0 : Int) ≤ 1001 ∧ 9907 % 2 = 1 ∧ (1001 : Int) ≠ ((9907 : Nat) : Int)) := by
  decide

/-- `n = 5` with the first draw 0: round 0 has the base 1. -/
def five : State := { zeros (loaded 1 1 5) with conf := 1 }

/-- `n = 4` with the first draw 1: round 0 has the base 2, and `gcd(2, 4) = 2`. -/
def four : State := seededWith 0x4C019032 (loaded 1 1 4)

theorem five_regs : readReg five 7 = 5 := by decide +kernel
theorem four_regs : readReg four 7 = 4 := by decide +kernel
theorem five_sample : sample .mt19937 0 1 3 five.stream = .value 1 (drawBits .mt19937 2 five.stream).2 := by
  have h : (drawBits .mt19937 2 five.stream).1 = 0 := by decide +kernel
  rw [sample_nonempty (by decide), sampleLoop, if_neg (by decide)]
  have hk : bitlen ((3 : Int) - ((1 : Nat) : Int) + 1).toNat = 2 := by decide +kernel
  rw [hk, h, if_pos (by decide)]
theorem four_sample : sample .mt19937 0 1 2 four.stream = .value 2 (drawBits .mt19937 2 four.stream).2 := by
  have h : (drawBits .mt19937 2 four.stream).1 = 1 := by decide +kernel
  rw [sample_nonempty (by decide), sampleLoop, if_neg (by decide)]
  have hk : bitlen ((2 : Int) - ((1 : Nat) : Int) + 1).toNat = 2 := by decide +kernel
  rw [hk, h, if_pos (by decide)]
theorem one_passes : RoundPasses 1 5 := ⟨by decide, 1, .c2, by decide⟩
theorem two_fails : ¬ RoundPasses 2 4 := fun h => h.1 (by decide)

/-- All of `CONF = 1` rounds pass. -/
theorem witness_PtestVerdict_prime :
    Sized five ∧ five.status.seeded = true ∧
    PassingRounds five 5 1 (fun _ => 1) (fun i => if i = 0 then five.stream else (drawBits .mt19937 2 five.stream).2) ∧
    1 = five.conf.toNat := by
  refine ⟨⟨by decide, by decide +kernel, by decide +kernel⟩, rfl, ⟨rfl, fun i hi => ?_⟩, rfl⟩
  obtain rfl : i = 0 := by omega
  exact ⟨five_sample, one_passes⟩

/-- Round 0 fails. -/
theorem witness_PtestVerdict_composite :
    Sized four ∧ four.status.seeded = true ∧ PassingRounds four 4 0 (fun _ => 1) (fun _ => four.stream) ∧ 0 < four.conf.toNat ∧
    sample .mt19937 0 1 2 four.stream = .value 2 (drawBits .mt19937 2 four.stream).2 ∧ ¬ RoundPasses 2 4 :=
  ⟨⟨by decide, by decide +kernel, by decide +kernel⟩, rfl, ⟨rfl, fun i hi => absurd hi (Nat.not_lt_zero i)⟩, by decide, four_sample,
    two_fails⟩

/-- `n = 3` with the first draw 1 of one bit, the cap 1 and one round. -/
def three : State := { onesFirst (loaded 0 0 3) with limit := 1, conf := 1 }

theorem three_sample : sample .mt19937 1 1 1 three.stream = .limit (drawBits .mt19937 1 three.stream).2 := by
  have h : (drawBits .mt19937 1 three.stream).1 = 1 := by decide +kernel
  have hg : ∃ m, generatorStates .mt19937 = m + 1 := by
    have h1 := word_lt_generatorStates .mt19937 1
    have h2 : (1 : Word).toNat = 1 := rfl
    exact ⟨generatorStates .mt19937 - 1, by omega⟩
  obtain ⟨m, hm⟩ := hg
  rw [sample_nonempty (by decide), hm, sampleLoop, if_neg (by decide)]
  show (if (drawBits .mt19937 1 three.stream).1 < 1 then _ else sampleLoop _ _ _ _ _ _ _ (drawBits .mt19937 1 three.stream).2) = _
  rw [h, if_neg (by decide), sampleLoop, if_pos (by decide)]

/-- `n = 2` with `CONF = 1`; and `n = 3` (width 1) under the cap 1 when the first word has its top bit set. -/
theorem witness_PtestFaults :
    ((zeros (loaded 0 0 2)).status.seeded = true ∧ readReg (zeros (loaded 0 0 2)) 7 ≤ 2 ∧ (zeros (loaded 0 0 2)).conf ≠ 0) ∧
    (three.status.seeded = true ∧ readReg three 7 = 3 ∧ PassingRounds three 3 0 (fun _ => 1) (fun _ => three.stream) ∧
      0 < three.conf.toNat ∧ three.limit.toNat = 1 ∧
      sample .mt19937 1 1 1 three.stream = .limit (drawBits .mt19937 1 three.stream).2) :=
  ⟨by decide +kernel, rfl, by decide +kernel, ⟨rfl, fun i hi => absurd hi (Nat.not_lt_zero i)⟩, by decide, by decide, three_sample⟩

theorem witness_PtestNeverRejectsAPrime :
    let s := zeros (loaded 1 1 3)
    Sized s ∧ s.status.seeded = true ∧ s.status.done = false ∧ (readReg s 7).Prime ∧ 3 ≤ readReg s 7 :=
  ⟨⟨by decide, by decide +kernel, by decide +kernel⟩, rfl, rfl, by
    have : readReg (zeros (loaded 1 1 3)) 7 = 3 := by decide +kernel
    rw [this]; exact Nat.prime_three, by decide +kernel⟩

/-- Just outside each row: `JACOBI` with `x[rs1] = x[rs3] = 1`, `SAMPLE` with `LIMIT = 1`, `PTEST` with `x[rs3] = 2`. -/
theorem witness_CommandsOutsideTheListComplete :
    ¬ MayNotComplete .nop State.reset ∧ ¬ MayNotComplete (.jacobi 3 1 7 false) (loaded 1 0 1) ∧
    ¬ MayNotComplete (.sample 3 1 2) { State.reset with limit := 1 } ∧ ¬ MayNotComplete (.ptest 3 7) (loaded 0 0 2) :=
  ⟨id, by unfold MayNotComplete; decide +kernel, by unfold MayNotComplete; decide +kernel, by unfold MayNotComplete; decide +kernel⟩

theorem witness_FaultWritesOnlyTheFaultRecord :
    let s := inFlight 0x00000100 [] State.reset
    completeCommand s = .next (takeFault .illegal s) ∧ s.status.err = false ∧ (takeFault .illegal s).status.err = true := ⟨rfl, rfl, rfl⟩

theorem witness_UnseededIsTestedFirst : State.reset.status.seeded = false := rfl

/-- The clauses in order, each at the boundary of its range: 17 seed words, `n = 2` with `CONF = 32`, 257 bits, `[1, 0]`, `n = 0`, `n = 2`, `x[rs1] = 2`. -/
theorem witness_OperandFaultsInOrder :
    State.reset.cfg.seedMax < 17 ∧
    ((zeros (loaded 0 0 2)).status.seeded = true ∧ readReg (zeros (loaded 0 0 2)) 7 ≤ 2 ∧ (zeros (loaded 0 0 2)).conf ≠ 0) ∧
    ((zeros (loaded 1 0 0)).status.seeded = true ∧ (zeros (loaded 1 0 0)).cfg.xlen < 257 ∧
      readReg (zeros (loaded 1 0 0)) 2 < readReg (zeros (loaded 1 0 0)) 1) ∧ readReg (loaded 5 7 0) 7 = 0 ∧
    (readReg (loaded 5 7 2) 7 ≠ 0 ∧ readReg (loaded 5 7 2) 7 % 2 = 0) ∧ (readReg (loaded 2 0 5) 7 ≠ 0 ∧ 1 < readReg (loaded 2 0 5) 1) := by
  decide +kernel

/-- A completion of `LDI X3`, a register that is not its destination, a fault, and an offset that is neither `x[rd]` nor a report. -/
theorem witness_CommandWritesOnlyItsDestination :
    exec (.ldi 3 7) State.reset = .next (completeOk (writeReg 3 7 State.reset)) ∧ destOf (.ldi 3 7) ≠ some 4 ∧
    (exec (.seed 0) State.reset = .next (takeFault .seedEmpty State.reset) ∧ State.reset.status.err = false ∧
      (takeFault .seedEmpty State.reset).status.err = true) ∧
    (target State.reset.cfg 3 = .conf ∧ Target.conf ∉ [Target.status, .errcode, .errcmd, .rounds, .prngcnt]) :=
  ⟨rfl, by decide, ⟨rfl, rfl, rfl⟩, by decide, by decide⟩

theorem witness_FlagsHaveOneWriter :
    exec .nop State.reset = .next (completeOk State.reset) ∧ mnemonicOf .nop ∉ ["SEED", "NEXT", "RANDBITS", "SAMPLE", "PTEST"] ∧
    mnemonicOf .nop ≠ "JACOBI" ∧ (completeOk State.reset).status.err = false := ⟨rfl, by decide, by decide, rfl⟩

theorem flagsOk_inFlight : FlagsOk (inFlight 0 [] State.reset) :=
  ⟨by decide, by decide, by decide, by decide, by decide⟩

theorem witness_CompletionSetsOneOfDoneAndErr :
    FlagsOk (inFlight 0 [] State.reset) ∧ (inFlight 0 [] State.reset).status.busy = true := ⟨flagsOk_inFlight, rfl⟩

/-- The smallest and the largest configuration of 00_scope.md R7. -/
theorem witness_ResetSatisfiesTheInvariant :
    (Config.legal { L := 1, seedMax := 1, prngAlg := .mt19937 }) ∧ (Config.legal { L := 64, seedMax := 64, prngAlg := .mt19937 }) := by
  decide

/-- A state with the invariant in which a command completes. -/
theorem witness_StepKeepsTheInvariant :
    Invariant (inFlight 0 [] State.reset) ∧
    step (inFlight 0 [] State.reset) = .next (completeOk (inFlight 0 [] State.reset)) :=
  ⟨⟨⟨by decide, by decide +kernel, by decide +kernel⟩, flagsOk_inFlight, fun h => by cases h⟩, rfl⟩

theorem witness_SeededFallsOnlyByReset :
    let s := { zeros State.reset with sched := [hostWrite 8 0x80000000] }
    step s = .next (resetEngine s.popEdge) ∧ s.status.seeded = true ∧ (resetEngine s.popEdge).status.seeded = false := ⟨rfl, rfl, rfl⟩

/-- `ERR = 1`: cleared by the host, and a command refused. -/
theorem witness_ErrIsStickyAndBlocksCommands :
    (let s := { takeFault .seedEmpty State.reset with sched := [hostWrite 4 4] }
     step s = .next (writeStatus 4 s.popEdge) ∧ s.status.err = true ∧ ¬ ResetsEngine s.cfg s.edge ∧
      (writeStatus 4 s.popEdge).status.err = false ∧ s.status.busy = false) ∧
    (let s := { takeFault .seedEmpty State.reset with sched := [hostIssue .nop] }
     step s = .next (markDrop s.popEdge) ∧ s.status.err = true ∧ ¬ ResetsEngine s.cfg s.edge ∧ s.status.busy = false) := by
  refine ⟨⟨rfl, rfl, ?_, rfl, rfl⟩, rfl, rfl, ?_, rfl⟩
  · rintro (h | ⟨addr, w, h, _, h2⟩)
    · cases h
    · cases h; revert h2; decide
  · rintro (h | ⟨addr, w, h, _, h2⟩)
    · cases h
    · cases h; revert h2; decide

theorem witness_BusyPeriodKeepsTheState :
    let s := inFlight 0x00700050 [hostWrite 0x1700 5] State.reset
    s.status.busy = true ∧ s.edge.finish = false ∧ ¬ ResetsEngine s.cfg s.edge ∧ s.status.done = false ∧
    target s.cfg (BitVec.ofNat 11 (0x1700 / 4)) ∉ [Target.status, .ctrl] := by
  refine ⟨rfl, rfl, ?_, rfl, by decide⟩
  rintro (h | ⟨addr, w, h, _, h2⟩)
  · cases h
  · cases h; revert h2; decide

theorem witness_RstEdgeResets :
    let s := inFlight 0 [⟨true, some (.read 9), true⟩] State.reset
    s.edge.rst = true ∧ s.edge.access = some (.read 9) := ⟨rfl, rfl⟩

theorem witness_SoftReset :
    let s := inFlight 0 [hostWrite 8 0x80000003] State.reset
    s.edge.rst = false ∧ s.edge.access = some (.write 2 0x80000003) ∧ target s.cfg 2 = .ctrl ∧ (0x80000003 : Word).getLsbD 31 = true ∧
    s.status.busy = true ∧ target s.cfg 3 ∉ [Target.status, .ctrl] := ⟨rfl, rfl, rfl, rfl, rfl, by decide⟩

/-- Each range of 20_memory.md R62 at its two ends, for the default configuration. -/
theorem witness_AddressMapFollowsTheTable :
    Config.default.legal ∧ (0x002C ≤ 4 * (11 : BitVec 11).toNat ∧ 4 * (63 : BitVec 11).toNat ≤ 0x00FC) ∧
    (4 * (0x40 : BitVec 11).toNat = 0x0100 + 4 * 0 ∧ 0 < Config.default.seedMax) ∧
    (4 * (0x4F : BitVec 11).toNat = 0x0100 + 4 * 15 ∧ 15 < Config.default.seedMax) ∧
    (4 * (0x50 : BitVec 11).toNat = 0x0100 + 4 * 16 ∧ Config.default.seedMax ≤ 16) ∧
    (4 * (0x7F : BitVec 11).toNat = 0x0100 + 4 * 63) ∧ (0x0200 ≤ 4 * (0x80 : BitVec 11).toNat ∧ 4 * (0x3FF : BitVec 11).toNat ≤ 0x0FFC) ∧
    (4 * (0x400 : BitVec 11).toNat = 0x1000 + 0x100 * (0 : Reg).val + 4 * 0 ∧ 0 < Config.default.L) ∧
    (4 * (0x7C7 : BitVec 11).toNat = 0x1000 + 0x100 * (15 : Reg).val + 4 * 7 ∧ 7 < Config.default.L) ∧
    (4 * (0x7FF : BitVec 11).toNat = 0x1000 + 0x100 * (15 : Reg).val + 4 * 63 ∧ Config.default.L ≤ 63) := by decide

theorem witness_WriteThenReadAnyWord :
    Sized (loaded (2 ^ 256 - 1) 5 7) ∧ (loaded (2 ^ 256 - 1) 5 7).status.busy = false ∧ target Config.default 0x407 = .xword 0 7 ∧
    target Config.default 0x4F = .seed 15 ∧ target Config.default 3 = .conf ∧ target Config.default 4 = .limit :=
  ⟨sized_loaded, rfl, by decide +kernel⟩

theorem witness_HostLoadWritesTheRegister :
    Sized (loaded (2 ^ 256 - 1) 5 7) ∧ (loaded (2 ^ 256 - 1) 5 7).status.busy = false ∧
    2 ^ 256 - 1 < (loaded (2 ^ 256 - 1) 5 7).cfg.radix := ⟨sized_loaded, rfl, by decide +kernel⟩

theorem witness_OperandWriteRule :
    (target State.reset.cfg 0x7C7 = .xword 15 7 ∧ (inFlight 0 [] State.reset).status.busy = true) ∧ State.reset.status.busy = false ∧
    target State.reset.cfg 0x40 = .seed 0 ∧ target State.reset.cfg 3 = .conf ∧ target State.reset.cfg 4 = .limit :=
  ⟨⟨by decide +kernel, rfl⟩, rfl, by decide +kernel⟩

theorem witness_CommandWriteRule :
    target State.reset.cfg 0 = .cmd ∧ ((inFlight 0 [] State.reset).status.busy = true ∧ (takeFault .limit State.reset).status.err = true) ∧
    (State.reset.status.busy = false ∧ State.reset.status.err = false) ∧ decode 0xFF = .error (.unknownOpcode 0xFF) :=
  ⟨rfl, ⟨rfl, rfl⟩, ⟨rfl, rfl⟩, rfl⟩

theorem witness_StatusWriteRule :
    let s := inFlight 0 [{ hostWrite 4 0xE with finish := true }] State.reset
    target s.cfg 1 = .status ∧ Completes s ∧ s.edge.access = some (.write 1 0xE) := ⟨rfl, ⟨rfl, rfl, rfl, rfl⟩, rfl⟩

theorem witness_ControlWriteRule : target State.reset.cfg 2 = .ctrl := rfl

theorem witness_ReservedAndReadOnlyIgnoreWrites :
    target State.reset.cfg 0x7FF = .reserved ∧ target State.reset.cfg 11 = .reserved ∧
    target State.reset.cfg 10 ∈ [Target.errcode, .errcmd, .rounds, .prngcnt, .id, .param] := by decide +kernel

theorem witness_WriteAtTheCompletionEdgeIsDropped :
    let s := inFlight 0 [{ hostWrite 0x1700 5 with finish := true }] State.reset
    s.edge = ⟨false, some (.write 0x5C0 5), true⟩ ∧ s.status.busy = true ∧ target s.cfg 0x5C0 = .xword 7 0 ∧ target s.cfg 0 = .cmd :=
  ⟨rfl, rfl, by decide +kernel⟩

theorem witness_StatusControlAndIrqBits : target State.reset.cfg 1 = .status ∧ target State.reset.cfg 2 = .ctrl := ⟨rfl, rfl⟩

theorem witness_IdAndParamAreConstants :
    State.reset.cfg.legal ∧ target State.reset.cfg 9 = .id ∧ target State.reset.cfg 10 = .param := ⟨by decide, rfl, rfl⟩

theorem witness_UnseededGeneratorIsUnobservable :
    SameButGenerator State.reset { State.reset with prng := { mt := Vector.replicate 624 1, mti := 624 } } ∧
    State.reset.status.seeded = false := ⟨rfl, rfl⟩

theorem witness_IdleLatchIsUnobservable :
    SameButLatch State.reset { State.reset with cmdreg := 0xFF } ∧ State.reset.status.busy = false := ⟨rfl, rfl⟩

end Sys2Proof.Tests
end

section
/-! Nothing stops the machine (60_exceptions.md, preamble; 00_scope.md R10): layer by layer, from the completion of a command to
the clock edge, the outcome is a next state. -/

namespace Sys2Proof.Machine

/-- A success, an engine fault and a command that never completes are all next states. -/
theorem exec_hasNext (i : Instr) (s : State) : ∃ t, exec i s = .next t := by
  rcases exec_cases i s with ⟨s', hok, -⟩ | ⟨c, s', hfault, -⟩ | ⟨hdiverge, -⟩
  · exact ⟨completeOk s', hok⟩
  · exact ⟨takeFault c s', hfault⟩
  · exact ⟨s, hdiverge⟩

/-- A word that spells no command takes the engine's fault `Illegal` (60_exceptions.md R232), any other completes as its command. -/
theorem completeCommand_hasNext (s : State) : ∃ t, completeCommand s = .next t := by
  rcases h : decode s.cmdreg with e | i
  · exact ⟨takeFault .illegal s, completeCommand_error h⟩
  · rw [completeCommand_ok h]
    exact exec_hasNext i s

/-- An edge with a reset or with the host's access alone has its next state written out; a completion has one by the lemma
above. -/
theorem clockEdge_hasNext (e : Edge) (s : State) : ∃ t, clockEdge e s = .next t := by
  rcases clockEdge_cases s e with ⟨-, hreset⟩ | ⟨-, -, haccess⟩ | ⟨-, -, -, -, hcomplete⟩
  · exact ⟨resetEngine s, hreset⟩
  · exact ⟨busAccess s e.access, haccess⟩
  · rw [hcomplete]
    exact completeCommand_hasNext (busAccess s e.access)

/-- Settles O10: the completion of every command and every clock edge have a next state, and a step is the edge the host's inputs
hold. -/
theorem everyStepHasANextState : Obligations.EveryStepHasANextState :=
  ⟨exec_hasNext, fun s => clockEdge_hasNext s.edge s.popEdge⟩

end Sys2Proof.Machine
end

section
/-! The step from the outside: the host's access of the coming edge, and what a step does with and without a completion
(20_memory.md R61, R70; 10_state.md R25; 70_reset_and_hazards.md R260). -/

namespace Sys2Proof.Machine

variable {s t : State}

/-! ### the access of the coming edge -/

theorem atCompletion_of_none (h : s.edge.access = none) : s.atCompletion = s.popEdge := by
  rw [State.atCompletion, h, busAccess_none]

theorem atCompletion_of_read {addr : BitVec 11} (h : s.edge.access = some (.read addr)) : s.atCompletion = s.popEdge := by
  rw [State.atCompletion, h, busAccess_read]

theorem atCompletion_of_write {addr : BitVec 11} {w : Word} (h : s.edge.access = some (.write addr w)) :
    s.atCompletion = busWrite s.popEdge addr w := by
  rw [State.atCompletion, h, busAccess_write]

/-- The access changes nothing, or it is a host write with one of the effects of R68 to R71. -/
theorem atCompletion_cases (s : State) :
    s.atCompletion = s.popEdge ∨
    ∃ addr w, s.edge.access = some (.write addr w) ∧ WriteEffect s.popEdge addr w s.atCompletion := by
  rcases h : s.edge.access with _ | ⟨addr⟩ | ⟨addr, w⟩
  · exact Or.inl (atCompletion_of_none h)
  · exact Or.inl (atCompletion_of_read h)
  · refine Or.inr ⟨addr, w, rfl, ?_⟩
    rw [atCompletion_of_write h]
    exact busWrite_effect s.popEdge addr w

theorem atCompletion_cfg (s : State) : s.atCompletion.cfg = s.cfg := (busAccess_cfg_sched s.popEdge _).1

theorem atCompletion_sched (s : State) : s.atCompletion.sched = s.sched.tail := (busAccess_cfg_sched s.popEdge _).2

/-! ### the step -/

theorem step_of_rst (h : s.edge.rst = true) : step s = .next (resetEngine s.popEdge) := by
  simp [step, clockEdge, h]

theorem step_of_completes (h : Completes s) : step s = completeCommand s.atCompletion := by
  obtain ⟨hrst, hfinish, hbusy, hkept⟩ := h
  simp only [State.atCompletion] at hkept
  simp [step, clockEdge, hrst, hfinish, hbusy, hkept, State.atCompletion]

theorem step_of_not_completes (hrst : s.edge.rst = false) (h : ¬ Completes s) : step s = .next s.atCompletion := by
  have hcond : ¬ (s.edge.finish && s.popEdge.status.busy && (busAccess s.popEdge s.edge.access).status.busy) = true := by
    simp only [Bool.and_eq_true]
    exact fun ⟨⟨hfinish, hbusy⟩, hkept⟩ => h ⟨hrst, hfinish, hbusy, hkept⟩
  rw [step, clockEdge, if_neg (by simp [hrst]), if_neg hcond, State.atCompletion]

theorem step_hasNext (s : State) : ∃ t, step s = .next t := clockEdge_hasNext s.edge s.popEdge

/-- The three things a step can be. -/
theorem step_cases (h : step s = .next t) :
    (s.edge.rst = true ∧ t = resetEngine s.popEdge) ∨
    (s.edge.rst = false ∧ ¬ Completes s ∧ t = s.atCompletion) ∨
    (Completes s ∧ completeCommand s.atCompletion = .next t) := by
  rcases hrst : s.edge.rst with _ | _
  · by_cases hc : Completes s
    · exact Or.inr (Or.inr ⟨hc, (step_of_completes hc).symm.trans h⟩)
    · rw [step_of_not_completes hrst hc] at h
      exact Or.inr (Or.inl ⟨rfl, hc, (Host.Outcome.next.inj h).symm⟩)
  · rw [step_of_rst hrst] at h
    exact Or.inl ⟨rfl, (Host.Outcome.next.inj h).symm⟩

end Sys2Proof.Machine
end

section
/-! The completion of a command, inverted: what a given next state can be, and what every completion leaves as it was
(10_state.md R22, R23, R31 to R41). -/

namespace Sys2Proof.Machine

variable {i : Instr} {s t : State}

/-- A next state of a command is a success, a fault whose stream has moved on under `Limit` only, or the state itself. -/
theorem exec_next (h : exec i s = .next t) :
    (∃ s', t = completeOk s' ∧ OkShape i s s') ∨
    (∃ c n, t = takeFault c (setStream (advance s.cfg.prngAlg n s.stream) s) ∧
      (n ≠ 0 → c = .limit ∧ s.status.seeded = true)) ∨
    t = s := by
  rcases exec_cases i s with ⟨s', hok, hshape⟩ | ⟨c, s', hfault, -, n, rfl, hn⟩ | ⟨hsame, -⟩
  · exact Or.inl ⟨s', Host.Outcome.next.inj (h.symm.trans hok), hshape⟩
  · exact Or.inr (Or.inl ⟨c, n, Host.Outcome.next.inj (h.symm.trans hfault), hn⟩)
  · exact Or.inr (Or.inr (Host.Outcome.next.inj (h.symm.trans hsame)))

theorem completeCommand_next (h : completeCommand s = .next t) :
    (∃ i, decode s.cmdreg = .ok i ∧ exec i s = .next t) ∨ t = takeFault .illegal s := by
  rcases hdecode : decode s.cmdreg with e | i
  · rw [completeCommand_error hdecode] at h
    exact Or.inr (Host.Outcome.next.inj h).symm
  · rw [completeCommand_ok hdecode] at h
    exact Or.inl ⟨i, rfl, h⟩

/-- What no completion writes. -/
structure CompletionFrame (s t : State) : Prop where
  cfg : t.cfg = s.cfg
  seedbuf : t.seedbuf = s.seedbuf
  ctrl : t.ctrl = s.ctrl
  conf : t.conf = s.conf
  limit : t.limit = s.limit
  drop : t.status.drop = s.status.drop
  cmdreg : t.cmdreg = s.cmdreg
  sched : t.sched = s.sched

theorem exec_frame (h : exec i s = .next t) : CompletionFrame s t := by
  rcases exec_next h with ⟨s', rfl, hshape⟩ | ⟨c, n, rfl, -⟩ | rfl
  · exact ⟨hshape.cfg, hshape.seedbuf, hshape.ctrl, hshape.conf, hshape.limit, hshape.drop, hshape.cmdreg, hshape.sched⟩
  · constructor <;> rfl
  · constructor <;> rfl

theorem completeCommand_frame (h : completeCommand s = .next t) : CompletionFrame s t := by
  rcases completeCommand_next h with ⟨i, -, hexec⟩ | rfl
  · exact exec_frame hexec
  · constructor <;> rfl

theorem OkShape.readReg_of_ne {s' : State} (h : OkShape i s s') {r : Reg} (hr : destOf i ≠ some r) :
    readReg s' r = readReg s r := by
  rcases h.x with ⟨-, hx⟩ | ⟨rd, v, hrd, hx⟩
  · exact readReg_congr hx r
  · have hne : r ≠ rd := fun e => hr (e ▸ hrd)
    rw [readReg_congr (s := writeReg rd v s) hx r, readReg_writeReg_ne s hne]

theorem exec_readReg_of_ne (h : exec i s = .next t) {r : Reg} (hr : destOf i ≠ some r) : readReg t r = readReg s r := by
  rcases exec_next h with ⟨s', rfl, hshape⟩ | ⟨c, n, rfl, -⟩ | rfl
  · exact hshape.readReg_of_ne hr
  · rfl
  · rfl

/-- A completion that raises `ERR` is a fault, which writes no operand register (60_exceptions.md R236). -/
theorem exec_x_of_fault (h : exec i s = .next t) (hs : s.status.err = false) (ht : t.status.err = true) : t.x = s.x := by
  rcases exec_next h with ⟨s', rfl, hshape⟩ | ⟨c, n, rfl, -⟩ | rfl
  · rw [completeOk_status, hshape.err, hs] at ht
    cases ht
  · rfl
  · rfl

/-! ### the flags, one writer each -/

theorem exec_prime (h : exec i s = .next t) (hi : mnemonicOf i ≠ "PTEST") :
    t.status.prime = s.status.prime ∧ t.rounds = s.rounds := by
  have hne : ¬ ∃ rd rs3, i = .ptest rd rs3 := fun ⟨_, _, e⟩ => hi (e ▸ rfl)
  rcases exec_next h with ⟨s', rfl, hshape⟩ | ⟨c, n, rfl, -⟩ | rfl
  · exact ⟨hshape.prime.resolve_right hne, hshape.rounds.resolve_right hne⟩
  · exact ⟨rfl, rfl⟩
  · exact ⟨rfl, rfl⟩

theorem exec_jsym (h : exec i s = .next t) (hi : mnemonicOf i ≠ "JACOBI") : t.status.jsym = s.status.jsym := by
  rcases exec_next h with ⟨s', rfl, hshape⟩ | ⟨c, n, rfl, -⟩ | rfl
  · exact hshape.jsym.resolve_right fun ⟨_, _, _, _, _, e, _⟩ => hi (e ▸ rfl)
  · rfl
  · rfl

theorem exec_seeded (h : exec i s = .next t) (hi : mnemonicOf i ≠ "SEED") : t.status.seeded = s.status.seeded := by
  rcases exec_next h with ⟨s', rfl, hshape⟩ | ⟨c, n, rfl, -⟩ | rfl
  · exact hshape.seeded.resolve_right fun ⟨_, e, _⟩ => hi (e ▸ rfl)
  · rfl
  · rfl

/-- No completion clears `SEEDED` (10_state.md R31). -/
theorem completeCommand_seeded (h : completeCommand s = .next t) (hs : s.status.seeded = true) : t.status.seeded = true := by
  rcases completeCommand_next h with ⟨i, -, hexec⟩ | rfl
  · rcases exec_next hexec with ⟨s', rfl, hshape⟩ | ⟨c, n, rfl, -⟩ | rfl
    · rcases hshape.seeded with hsame | ⟨_, -, hset⟩
      · exact hsame.trans hs
      · exact hset
    · exact hs
    · exact hs
  · exact hs

/-- No completion clears `ERR` (10_state.md R29). -/
theorem completeCommand_err (h : completeCommand s = .next t) (hs : s.status.err = true) : t.status.err = true := by
  rcases completeCommand_next h with ⟨i, -, hexec⟩ | rfl
  · rcases exec_next hexec with ⟨s', rfl, hshape⟩ | ⟨c, n, rfl, -⟩ | rfl
    · exact hshape.err.trans hs
    · rfl
    · exact hs
  · rfl

/-- Only a fault writes the fault record (10_state.md R37). -/
theorem exec_errRecord (h : exec i s = .next t) (ht : t.status.err = false) :
    t.errcode = s.errcode ∧ t.errcmd = s.errcmd := by
  rcases exec_next h with ⟨s', rfl, hshape⟩ | ⟨c, n, rfl, -⟩ | rfl
  · exact ⟨hshape.errcode, hshape.errcmd⟩
  · cases ht
  · exact ⟨rfl, rfl⟩

theorem completeCommand_errRecord (h : completeCommand s = .next t) (ht : t.status.err = false) :
    t.errcode = s.errcode ∧ t.errcmd = s.errcmd := by
  rcases completeCommand_next h with ⟨i, -, hexec⟩ | rfl
  · exact exec_errRecord hexec ht
  · cases ht

/-! ### the stream, which only the PRNG commands move -/

/-- The outcome leaves the stream of `s` where it was. -/
def Result.KeepsStream (s : State) : Result → Prop
  | .ok s' => s'.stream = s.stream
  | .fault _ s' => s'.stream = s.stream
  | .diverge => True

theorem finish_stream {r : Result} (hr : r.KeepsStream s) (h : finish s r = .next t) : t.stream = s.stream := by
  cases r with
  | ok s' => obtain rfl := Host.Outcome.next.inj h; exact hr
  | fault c s' => obtain rfl := Host.Outcome.next.inj h; exact hr
  | diverge => obtain rfl := Host.Outcome.next.inj h; rfl

theorem guardThen_keepsStream (check : Option FaultCode) {k : Result} (hk : k.KeepsStream s) :
    (guardThen check s k).KeepsStream s := by
  cases check with
  | none => exact hk
  | some c => rfl

theorem writeReg_keepsStream (rd : Reg) (v : Nat) (s : State) : (Result.ok (writeReg rd v s)).KeepsStream s := rfl

theorem jacobiResult_keepsStream (rd : Reg) (n : Nat) (s : State) (j : Option Int) :
    (jacobiResult rd n s j).KeepsStream s := by
  cases j with
  | none => trivial
  | some j => rfl

theorem exec_stream (h : exec i s = .next t) (hi : mnemonicOf i ∉ ["SEED", "NEXT", "RANDBITS", "SAMPLE", "PTEST"]) :
    t.stream = s.stream := by
  cases i with
  | nop => exact finish_stream (r := .ok s) rfl h
  | mov rd rs1 => exact finish_stream (writeReg_keepsStream rd _ s) h
  | ldi rd imm16 => exact finish_stream (writeReg_keepsStream rd _ s) h
  | gcd rd rs1 rs2 => exact finish_stream (writeReg_keepsStream rd _ s) h
  | montmul rd rs1 rs2 rs3 => exact finish_stream (guardThen_keepsStream _ (writeReg_keepsStream rd _ s)) h
  | tomont rd rs1 rs3 => exact finish_stream (guardThen_keepsStream _ (writeReg_keepsStream rd _ s)) h
  | frommont rd rs1 rs3 => exact finish_stream (guardThen_keepsStream _ (writeReg_keepsStream rd _ s)) h
  | mulmod rd rs1 rs2 rs3 => exact finish_stream (guardThen_keepsStream _ (writeReg_keepsStream rd _ s)) h
  | modexp rd rs1 rs2 rs3 => exact finish_stream (guardThen_keepsStream _ (writeReg_keepsStream rd _ s)) h
  | jacobi rd rs1 rs3 neg => exact finish_stream (guardThen_keepsStream _ (jacobiResult_keepsStream rd _ s _)) h
  | seed imm16 => exact absurd (by simp [mnemonicOf]) hi
  | next rd => exact absurd (by simp [mnemonicOf]) hi
  | randbits rd k => exact absurd (by simp [mnemonicOf]) hi
  | sample rd rs1 rs2 => exact absurd (by simp [mnemonicOf]) hi
  | ptest rd rs3 => exact absurd (by simp [mnemonicOf]) hi

end Sys2Proof.Machine
end

section
/-! The invariant (10_state.md R48): reset has it, and the host's access, the completion of a command and so every step keep it. -/

namespace Sys2Proof.Machine

variable {s t : State}

/-! ### the parts of the invariant, under updates of fields they do not read -/

theorem Sized.congr (hs : Sized s) (cfg : t.cfg = s.cfg) (x : t.x = s.x) (seedbuf : t.seedbuf = s.seedbuf) : Sized t where
  cfg := cfg ▸ hs.cfg
  regs r := by rw [readReg_congr x, cfg]; exact hs.regs r
  seedbuf := by rw [seedbuf, cfg]; exact hs.seedbuf

theorem FlagsOk.congr (hs : FlagsOk s) (busy : t.status.busy = s.status.busy) (done : t.status.done = s.status.done)
    (err : t.status.err = s.status.err) (jsym : t.status.jsym = s.status.jsym) (errcode : t.errcode = s.errcode) :
    FlagsOk t where
  doneBusy := by rw [done, busy]; exact hs.doneBusy
  busyErr := by rw [busy, err]; exact hs.busyErr
  jsym := by rw [jsym]; exact hs.jsym
  errcode := by rw [errcode]; exact hs.errcode
  errcodeSet := by rw [err, errcode]; exact hs.errcodeSet

/-- A stream some words further on is still a number of words from the seed (40_prng.md R127, 10_state.md R41). -/
theorem StreamOk.of_advance (hs : StreamOk s) (cfg : t.cfg = s.cfg) (seeded : t.status.seeded = s.status.seeded) {n : Nat}
    (stream : t.stream = advance s.cfg.prngAlg n s.stream) : StreamOk t := by
  intro h
  obtain ⟨key, m, hpos, hmax, hgen, hcnt⟩ := hs (seeded ▸ h)
  refine ⟨key, n + m, hpos, cfg ▸ hmax, ?_, ?_⟩
  · calc t.prng = (advance s.cfg.prngAlg n s.stream).gen := by rw [← stream, stream_gen]
      _ = (fun g => (generatorNext s.cfg.prngAlg g).2)^[n] (generatorAfter s.cfg.prngAlg key m) := by
          rw [advance_gen, stream_gen, hgen]
      _ = generatorAfter t.cfg.prngAlg key (n + m) := by
          rw [cfg]; exact (Function.iterate_add_apply _ n m _).symm
  · calc t.prngcnt = (advance s.cfg.prngAlg n s.stream).cnt := by rw [← stream, stream_cnt]
      _ = BitVec.ofNat 32 m + BitVec.ofNat 32 n := by rw [advance_cnt, stream_cnt, hcnt]
      _ = BitVec.ofNat 32 (n + m) := by rw [← BitVec.ofNat_add, Nat.add_comm]

/-- `SEED` starts a stream, of no words so far (40_prng.md R129). -/
theorem streamOk_of_seed {len : Nat} (hs : Sized s) (cfg : t.cfg = s.cfg) (hpos : 1 ≤ len) (hmax : len ≤ s.cfg.seedMax)
    (stream : t.stream = { gen := seedGenerator s.cfg.prngAlg (seedKey s len), cnt := 0 }) : StreamOk t := by
  intro _
  have hlen : (seedKey s len).length = len := by
    rw [seedKey, List.length_take, hs.seedbuf, Nat.min_eq_left hmax]
  refine ⟨seedKey s len, 0, by omega, by rw [cfg]; omega, ?_, ?_⟩
  · calc t.prng = t.stream.gen := rfl
      _ = generatorAfter t.cfg.prngAlg (seedKey s len) 0 := by rw [stream, cfg]; rfl
  · calc t.prngcnt = t.stream.cnt := rfl
      _ = BitVec.ofNat 32 0 := by rw [stream]; rfl

/-! ### registers stay below `2^XLEN` -/

theorem regs_set_lt (hs : Sized s) (rd : Reg) {v : Nat} (hv : v < s.cfg.radix) (x : t.x = s.x.set rd.val v) (r : Reg) :
    readReg t r < s.cfg.radix := by
  simp only [readReg, x, Vector.getElem_set]
  split
  · exact hv
  · exact hs.regs r

/-! ### reset -/

theorem invariant_resetWith {cfg : Config} (h : cfg.legal) : Invariant (State.resetWith cfg) where
  sized := ⟨h, fun r => by rw [readReg_resetWith]; exact radix_pos cfg, List.length_replicate⟩
  flags := by constructor <;> simp
  stream := fun h => absurd h (by simp)

theorem invariant_resetEngine (hs : Sized s) : Invariant (resetEngine s) :=
  have h := invariant_resetWith hs.cfg
  ⟨h.sized.congr rfl rfl rfl, h.flags.congr rfl rfl rfl rfl rfl, h.stream⟩

/-! ### the host's access -/

theorem Invariant.popEdge (hs : Invariant s) : Invariant s.popEdge :=
  ⟨hs.sized.congr rfl rfl rfl, hs.flags.congr rfl rfl rfl rfl rfl, hs.stream⟩

theorem Invariant.write {addr : BitVec 11} {w : Word} (hs : Invariant s) (h : WriteEffect s addr w t) : Invariant t := by
  obtain ⟨sized, flags, stream⟩ := hs
  cases h with
  | ignored => exact ⟨sized, flags, stream⟩
  | dropped _ => exact ⟨sized.congr rfl rfl rfl, flags.congr rfl rfl rfl rfl rfl, stream⟩
  | accepted _ _ clear =>
    exact ⟨sized.congr rfl rfl rfl, ⟨by simp, fun _ => clear, flags.jsym, flags.errcode, flags.errcodeSet⟩, stream⟩
  | cleared _ =>
    refine ⟨sized.congr rfl rfl rfl, ⟨?_, ?_, flags.jsym, flags.errcode, ?_⟩, stream⟩
    · exact fun ⟨hdone, hbusy⟩ => flags.doneBusy ⟨(Bool.and_eq_true _ _ ▸ hdone).1, hbusy⟩
    · intro hbusy
      simp [flags.busyErr hbusy]
    · exact fun herr => flags.errcodeSet (Bool.and_eq_true _ _ ▸ herr).1
  | reset _ _ => exact invariant_resetEngine sized
  | enables _ _ => exact ⟨sized.congr rfl rfl rfl, flags.congr rfl rfl rfl rfl rfl, stream⟩
  | conf _ _ => exact ⟨sized.congr rfl rfl rfl, flags.congr rfl rfl rfl rfl rfl, stream⟩
  | limit _ _ => exact ⟨sized.congr rfl rfl rfl, flags.congr rfl rfl rfl rfl rfl, stream⟩
  | seed i _ _ =>
    exact ⟨⟨sized.cfg, sized.regs, List.length_set.trans sized.seedbuf⟩, flags.congr rfl rfl rfl rfl rfl, stream⟩
  | xword r i at_ _ =>
    have hi : i < s.cfg.L := ((target_xword_iff sized.cfg.1.2).mp at_).2
    exact ⟨⟨sized.cfg, regs_set_lt (s := s) sized r (putWord_lt (sized.regs r) hi w) rfl, sized.seedbuf⟩,
      flags.congr rfl rfl rfl rfl rfl, stream⟩

theorem Invariant.atCompletion (hs : Invariant s) : Invariant s.atCompletion := by
  rcases atCompletion_cases s with h | ⟨addr, w, -, h⟩
  · rw [h]; exact hs.popEdge
  · exact hs.popEdge.write h

/-! ### the completion -/

/-- The symbol's encodings leave out `0b10` (10_state.md R33). -/
theorem jsymBits_ne_two {j : Int} (h : j = 0 ∨ j = 1 ∨ j = -1) : jsymBits j ≠ 0b10 := by
  rcases h with rfl | rfl | rfl <;> decide

theorem FaultCode.code_le_nine (c : FaultCode) : c.code.toNat ≤ 9 := by cases c <;> decide

theorem FaultCode.code_ne_zero (c : FaultCode) : c.code ≠ 0 := by cases c <;> decide

theorem OkShape.sized {i : Instr} {s' : State} (h : OkShape i s s') (hs : Sized s) : Sized s' := by
  rcases h.x with ⟨-, hx⟩ | ⟨rd, v, -, hx⟩
  · exact hs.congr h.cfg hx h.seedbuf
  · refine ⟨h.cfg ▸ hs.cfg, ?_, by rw [h.seedbuf, h.cfg]; exact hs.seedbuf⟩
    rw [h.cfg]
    exact regs_set_lt hs rd (Nat.mod_lt v (radix_pos s.cfg)) hx

theorem OkShape.streamOk {i : Instr} {s' : State} (h : OkShape i s s') (hs : Invariant s) : StreamOk s' := by
  rcases h.stream with ⟨n, hstream, -, hseeded⟩ | ⟨len, -, hpos, hmax, hstream⟩
  · exact hs.stream.of_advance h.cfg hseeded hstream
  · exact streamOk_of_seed hs.sized h.cfg hpos hmax hstream

theorem OkShape.jsym_ne_two {i : Instr} {s' : State} (h : OkShape i s s') (hs : FlagsOk s) : s'.status.jsym ≠ 0b10 := by
  rcases h.jsym with hj | ⟨_, _, _, _, j, -, hj, hval⟩
  · rw [hj]; exact hs.jsym
  · rw [hj]; exact jsymBits_ne_two hval

theorem Invariant.completeOk {i : Instr} {s' : State} (hs : Invariant s) (h : OkShape i s s') : Invariant (completeOk s') where
  sized := (h.sized hs.sized).congr rfl rfl rfl
  flags :=
    { doneBusy := by simp
      busyErr := by simp
      jsym := h.jsym_ne_two hs.flags
      errcode := by rw [completeOk_errcode, h.errcode]; exact hs.flags.errcode
      errcodeSet := by
        rw [completeOk_errcode, completeOk_status, h.err, h.errcode]
        exact hs.flags.errcodeSet }
  stream := h.streamOk hs

theorem Invariant.takeFault (hs : Invariant s) (c : FaultCode) : Invariant (takeFault c s) where
  sized := hs.sized.congr rfl rfl rfl
  flags :=
    { doneBusy := by simp
      busyErr := by simp
      jsym := hs.flags.jsym
      errcode := c.code_le_nine
      errcodeSet := fun _ => c.code_ne_zero }
  stream := hs.stream

theorem Invariant.setStream (hs : Invariant s) (n : Nat) :
    Invariant (setStream (advance s.cfg.prngAlg n s.stream) s) where
  sized := hs.sized.congr rfl rfl rfl
  flags := hs.flags.congr rfl rfl rfl rfl rfl
  stream := hs.stream.of_advance rfl rfl (stream_setStream s _)

theorem Invariant.exec {i : Instr} (hs : Invariant s) (h : exec i s = .next t) : Invariant t := by
  rcases exec_next h with ⟨s', rfl, hshape⟩ | ⟨c, n, rfl, -⟩ | rfl
  · exact hs.completeOk hshape
  · exact (hs.setStream n).takeFault c
  · exact hs

theorem Invariant.completeCommand (hs : Invariant s) (h : completeCommand s = .next t) : Invariant t := by
  rcases completeCommand_next h with ⟨i, -, hexec⟩ | rfl
  · exact hs.exec hexec
  · exact hs.takeFault .illegal

/-- Settles O40: a step is a reset, the host's access, or the access and a completion, and each keeps the invariant. -/
theorem stepKeepsTheInvariant : Obligations.StepKeepsTheInvariant := by
  intro s t hs h
  rcases step_cases h with ⟨-, rfl⟩ | ⟨-, -, rfl⟩ | ⟨-, hcomplete⟩
  · exact invariant_resetEngine hs.popEdge.sized
  · exact hs.atCompletion
  · exact hs.atCompletion.completeCommand hcomplete

/-- Settles O39: the reset state of a legal configuration has the invariant, and the default configuration is legal. -/
theorem resetSatisfiesTheInvariant : Obligations.ResetSatisfiesTheInvariant :=
  ⟨fun _ h => invariant_resetWith h, invariant_resetWith (by decide)⟩

end Sys2Proof.Machine
end

section
/-! Statements about one completion (10_state.md R22, R23, R28, R31 to R41), and the host's read of a word, which goes through the
address map. -/

namespace Sys2Proof.Machine

variable {s t : State}

/-- A read depends on the configuration and the one register its offset names. `STATUS`, `CTRL` and the registers a completion
reports in are asked for only where they are what is read. -/
theorem busRead_congr {addr : BitVec 11} (cfg : t.cfg = s.cfg)
    (status : target s.cfg addr = .status → t.status = s.status) (ctrl : target s.cfg addr = .ctrl → t.ctrl = s.ctrl)
    (conf : t.conf = s.conf) (limit : t.limit = s.limit)
    (errcode : target s.cfg addr = .errcode → t.errcode = s.errcode)
    (errcmd : target s.cfg addr = .errcmd → t.errcmd = s.errcmd)
    (rounds : target s.cfg addr = .rounds → t.rounds = s.rounds)
    (prngcnt : target s.cfg addr = .prngcnt → t.prngcnt = s.prngcnt) (seedbuf : t.seedbuf = s.seedbuf)
    (x : ∀ r w, target s.cfg addr = .xword r w → readReg t r = readReg s r) : busRead t addr = busRead s addr := by
  unfold busRead
  rw [cfg]
  rcases ht : target s.cfg addr with _ | _ | _ | _ | _ | _ | _ | _ | _ | _ | _ | i | ⟨r, i⟩ | _ <;> dsimp only
  · rw [status ht]
  · rw [ctrl ht]
  · exact conf
  · exact limit
  · rw [errcode ht]
  · exact errcmd ht
  · exact rounds ht
  · exact prngcnt ht
  · rw [seedbuf]
  · rw [x r i ht]

/-- Settles O36: the registers by the shape of an outcome, the reads by the frame of a completion. -/
theorem commandWritesOnlyItsDestination : Obligations.CommandWritesOnlyItsDestination := by
  intro i s t h
  have hregs : ∀ r : Reg, destOf i ≠ some r → readReg t r = readReg s r := fun r hr => exec_readReg_of_ne h hr
  obtain ⟨hcfg, hseedbuf, hctrl, hconf, hlimit, hdrop, hcmdreg, hsched⟩ := exec_frame h
  refine ⟨hregs, exec_x_of_fault h, hseedbuf, hconf, hlimit, hctrl, hdrop, hcmdreg, hcfg, hsched, ?_⟩
  intro addr hx hreports
  simp only [List.mem_cons, List.not_mem_nil, or_false, not_or] at hreports
  obtain ⟨hstatus, herrcode, herrcmd, hrounds, hprngcnt⟩ := hreports
  exact busRead_congr hcfg (absurd · hstatus) (fun _ => hctrl) hconf hlimit (absurd · herrcode) (absurd · herrcmd)
    (absurd · hrounds) (absurd · hprngcnt) hseedbuf fun r w hw => hregs r (hx r w hw)

/-- Settles O37: each flag from the lemma about its one writer. -/
theorem flagsHaveOneWriter : Obligations.FlagsHaveOneWriter := fun _ _ _ h =>
  ⟨exec_prime h, exec_jsym h, exec_seeded h,
    fun hi => ⟨congrArg Stream.gen (exec_stream h hi), congrArg Stream.cnt (exec_stream h hi)⟩, exec_errRecord h⟩

/-- Settles O38: `BUSY` excludes `DONE` and `ERR` at acceptance, so the one flag a completion raises stands alone. -/
theorem completionSetsOneOfDoneAndErr : Obligations.CompletionSetsOneOfDoneAndErr := by
  intro s hs hbusy
  have hdone : s.status.done = false := Bool.eq_false_iff.mpr fun h => hs.doneBusy ⟨h, hbusy⟩
  obtain ⟨t, h⟩ := completeCommand_hasNext s
  refine ⟨t, h, ?_⟩
  rcases completeCommand_next h with ⟨i, -, hexec⟩ | rfl
  · rcases exec_next hexec with ⟨s', rfl, hshape⟩ | ⟨c, n, rfl, -⟩ | rfl
    · exact Or.inr ⟨rfl, Or.inl ⟨rfl, hshape.err.trans (hs.busyErr hbusy)⟩⟩
    · exact Or.inr ⟨rfl, Or.inr ⟨hdone, rfl⟩⟩
    · exact Or.inl rfl
  · exact Or.inr ⟨rfl, Or.inr ⟨hdone, rfl⟩⟩

end Sys2Proof.Machine
end

section
/-! Statements about one step (10_state.md R25, R27, R29 to R31; 20_memory.md R68, R72): the completion at its edge, the access of an
edge that does not reset, and the busy period. -/

namespace Sys2Proof.Machine

variable {s t : State} {addr : BitVec 11} {w : Word}

/-! ### an access that does not reset -/

/-- What a host's access leaves as it is unless it resets: the generator, and what the completions report. -/
structure AccessFrame (s t : State) : Prop where
  prng : t.prng = s.prng
  prngcnt : t.prngcnt = s.prngcnt
  rounds : t.rounds = s.rounds
  errcode : t.errcode = s.errcode
  errcmd : t.errcmd = s.errcmd
  seeded : t.status.seeded = s.status.seeded
  prime : t.status.prime = s.status.prime
  jsym : t.status.jsym = s.status.jsym

theorem WriteEffect.reset_or_frame (h : WriteEffect s addr w t) :
    (target s.cfg addr = .ctrl ∧ w.getLsbD 31 = true ∧ t = resetEngine s) ∨ AccessFrame s t := by
  cases h with
  | reset at_ srst => exact Or.inl ⟨at_, srst, rfl⟩
  | _ => exact Or.inr (by constructor <;> rfl)

theorem atCompletion_frame (hreset : ¬ ResetsEngine s.cfg s.edge) : AccessFrame s s.atCompletion := by
  rcases atCompletion_cases s with h | ⟨addr, w, haccess, h⟩
  · rw [h]; constructor <;> rfl
  · rcases h.reset_or_frame with ⟨hctrl, hsrst, -⟩ | hframe
    · exact absurd (Or.inr ⟨addr, w, haccess, hctrl, hsrst⟩) hreset
    · exact ⟨hframe.prng, hframe.prngcnt, hframe.rounds, hframe.errcode, hframe.errcmd, hframe.seeded, hframe.prime,
        hframe.jsym⟩

/-- A write that clears `ERR` resets, or is the write of 1 to bit 2 of `STATUS` (10_state.md R29). -/
theorem WriteEffect.clears_err (h : WriteEffect s addr w t) (hs : s.status.err = true) (ht : t.status.err = false) :
    (target s.cfg addr = .ctrl ∧ w.getLsbD 31 = true) ∨ (target s.cfg addr = .status ∧ w.getLsbD 2 = true) := by
  cases h with
  | reset at_ srst => exact Or.inl ⟨at_, srst⟩
  | cleared at_ => exact Or.inr ⟨at_, by simpa [hs] using ht⟩
  | _ => exact absurd (hs.symm.trans ht) (by decide)

theorem atCompletion_clears_err (hreset : ¬ ResetsEngine s.cfg s.edge) (hs : s.status.err = true)
    (ht : s.atCompletion.status.err = false) :
    ∃ addr w, s.edge.access = some (.write addr w) ∧ target s.cfg addr = .status ∧ w.getLsbD 2 = true := by
  rcases atCompletion_cases s with h | ⟨addr, w, haccess, h⟩
  · rw [h] at ht
    exact absurd (hs.symm.trans ht) (by decide)
  · rcases h.clears_err hs ht with ⟨hctrl, hsrst⟩ | hclear
    · exact absurd (Or.inr ⟨addr, w, haccess, hctrl, hsrst⟩) hreset
    · exact ⟨addr, w, haccess, hclear⟩

/-- An idle engine with `ERR` accepts no command (10_state.md R29, 20_memory.md R69). -/
theorem WriteEffect.idle_of_err (h : WriteEffect s addr w t) (herr : s.status.err = true) (hidle : s.status.busy = false) :
    t.status.busy = false ∧ (t.cmdreg = s.cmdreg ∨ (target s.cfg addr = .ctrl ∧ w.getLsbD 31 = true)) := by
  cases h with
  | accepted _ _ clear => exact absurd (herr.symm.trans clear) (by decide)
  | reset at_ srst => exact ⟨rfl, Or.inr ⟨at_, srst⟩⟩
  | _ => exact ⟨hidle, Or.inl rfl⟩

theorem atCompletion_idle_of_err (hreset : ¬ ResetsEngine s.cfg s.edge) (herr : s.status.err = true)
    (hidle : s.status.busy = false) : s.atCompletion.status.busy = false ∧ s.atCompletion.cmdreg = s.cmdreg := by
  rcases atCompletion_cases s with h | ⟨addr, w, haccess, h⟩
  · rw [h]; exact ⟨hidle, rfl⟩
  · obtain ⟨hbusy, hcmdreg⟩ := h.idle_of_err herr hidle
    exact ⟨hbusy, hcmdreg.resolve_right fun hsrst => hreset (Or.inr ⟨addr, w, haccess, hsrst⟩)⟩

/-! ### an access while busy -/

/-- `s` with the parts that a host's access can change while the engine is busy: the enables, `DONE`, `ERR` and `DROP`
(20_memory.md R68 to R72). -/
def withFlags (c : Ctrl) (done err drop : Bool) (s : State) : State :=
  { s with ctrl := c, status := { s.status with done := done, err := err, drop := drop } }

/-- While busy a host write resets, or moves the enables and flags only, and does not raise `DONE`. -/
theorem WriteEffect.of_busy (h : WriteEffect s addr w t) (hbusy : s.status.busy = true) :
    (target s.cfg addr = .ctrl ∧ w.getLsbD 31 = true ∧ t = resetEngine s) ∨
    ∃ c done err drop, t = withFlags c done err drop s ∧ (s.status.done = false → done = false) := by
  cases h with
  | ignored => exact Or.inr ⟨_, _, _, _, rfl, id⟩
  | dropped _ => exact Or.inr ⟨_, _, _, true, rfl, id⟩
  | cleared _ => exact Or.inr ⟨_, _, _, _, rfl, fun h => by rw [h, Bool.false_and]⟩
  | enables _ _ => exact Or.inr ⟨_, _, _, _, rfl, id⟩
  | reset at_ srst => exact Or.inl ⟨at_, srst, rfl⟩
  | accepted _ idle _ => exact absurd (hbusy.symm.trans idle) (by decide)
  | conf _ idle => exact absurd (hbusy.symm.trans idle) (by decide)
  | limit _ idle => exact absurd (hbusy.symm.trans idle) (by decide)
  | seed _ _ idle => exact absurd (hbusy.symm.trans idle) (by decide)
  | xword _ _ _ idle => exact absurd (hbusy.symm.trans idle) (by decide)

theorem atCompletion_of_busy (hbusy : s.status.busy = true) :
    (ResetsEngine s.cfg s.edge ∧ s.atCompletion = resetEngine s.popEdge) ∨
    ∃ c done err drop, s.atCompletion = withFlags c done err drop s.popEdge ∧ (s.status.done = false → done = false) := by
  rcases atCompletion_cases s with h | ⟨addr, w, haccess, h⟩
  · exact Or.inr ⟨_, _, _, _, h, id⟩
  · rcases h.of_busy hbusy with ⟨hctrl, hsrst, hreset⟩ | hflags
    · exact Or.inl ⟨Or.inr ⟨addr, w, haccess, hctrl, hsrst⟩, hreset⟩
    · exact Or.inr hflags

/-- The latch is not written while a command is in flight, which a reset would have abandoned. -/
theorem atCompletion_cmdreg (h : Completes s) : s.atCompletion.cmdreg = s.cmdreg := by
  rcases atCompletion_of_busy h.busy with ⟨-, hreset⟩ | ⟨_, _, _, _, hflags, -⟩
  · have hkept := h.kept
    rw [hreset] at hkept
    exact absurd hkept (by simp)
  · rw [hflags]; rfl

theorem busRead_withFlags (c : Ctrl) (done err drop : Bool) (s : State)
    (h : target s.cfg addr ∉ [Target.status, .ctrl]) : busRead (withFlags c done err drop s) addr = busRead s addr := by
  simp only [List.mem_cons, List.not_mem_nil, or_false, not_or] at h
  obtain ⟨hstatus, hctrl⟩ := h
  exact busRead_congr rfl (absurd · hstatus) (absurd · hctrl) rfl rfl (fun _ => rfl) (fun _ => rfl) (fun _ => rfl)
    (fun _ => rfl) rfl fun _ _ _ => rfl

/-! ### the statements -/

/-- Settles O7: at a completion edge the step completes the latched command, and an edge without an access only takes the input. -/
theorem stepRunsTheDecodedCommand : Obligations.StepRunsTheDecodedCommand := by
  intro s i hs hdecode
  rw [step_of_completes hs, completeCommand_ok ((atCompletion_cmdreg hs).symm ▸ hdecode)]
  exact ⟨rfl, atCompletion_of_none⟩

theorem decode_of_decodeTableWord {nbits v : Nat} {i : Instr} (h : decodeTableWord nbits v = some i) :
    decode (BitVec.ofNat 32 (v % 2 ^ nbits)) = .ok i := by
  unfold decodeTableWord at h
  split at h
  · rcases hdecode : decode (BitVec.ofNat 32 (v % 2 ^ nbits)) with e | j
    · rw [hdecode] at h; cases h
    · rw [hdecode] at h; rw [Option.some.inj h]
  · cases h

/-- Settles O8: `withFetchWord` puts a quiet edge first, at which the placed word completes. -/
theorem placedTableWordRunsNext : Obligations.PlacedTableWordRunsNext := by
  intro s nbits v i h
  have hcompletes : Completes (s.withFetchWord nbits v) := ⟨rfl, rfl, rfl, rfl⟩
  rw [step_of_completes hcompletes, atCompletion_of_none rfl, completeCommand_ok (decode_of_decodeTableWord h)]
  rfl

/-- Settles O41: neither an access without a reset nor a completion clears `SEEDED`, and neither writes the configuration or the
inputs. -/
theorem seededFallsOnlyByReset : Obligations.SeededFallsOnlyByReset := by
  intro s t h
  rcases step_cases h with ⟨hrst, rfl⟩ | ⟨-, -, rfl⟩ | ⟨-, hcomplete⟩
  · exact ⟨fun _ _ => Or.inl hrst, rfl, rfl⟩
  · refine ⟨fun hs ht => ?_, atCompletion_cfg s, atCompletion_sched s⟩
    by_contra hreset
    rw [(atCompletion_frame hreset).seeded, hs] at ht
    cases ht
  · obtain ⟨hcfg, -, -, -, -, -, -, hsched⟩ := completeCommand_frame hcomplete
    refine ⟨fun hs ht => ?_, hcfg.trans (atCompletion_cfg s), hsched.trans (atCompletion_sched s)⟩
    by_contra hreset
    have hseeded := completeCommand_seeded hcomplete ((atCompletion_frame hreset).seeded.trans hs)
    rw [hseeded] at ht
    cases ht

/-- Settles O42: no completion clears `ERR`, so where it falls the access has cleared it; an idle engine has no completion. -/
theorem errIsStickyAndBlocksCommands : Obligations.ErrIsStickyAndBlocksCommands := by
  intro s t h herr hreset
  have hframe := atCompletion_frame hreset
  rcases step_cases h with ⟨hrst, -⟩ | ⟨-, -, rfl⟩ | ⟨hcompletes, hcomplete⟩
  · exact absurd (Or.inl hrst) hreset
  · exact ⟨fun ht => ⟨atCompletion_clears_err hreset herr ht, hframe.errcode, hframe.errcmd⟩,
      atCompletion_idle_of_err hreset herr⟩
  · refine ⟨fun ht => ?_, fun hidle => absurd (hcompletes.busy.symm.trans hidle) (by decide)⟩
    have haccess : s.atCompletion.status.err = false :=
      Bool.eq_false_iff.mpr fun hs => absurd ((completeCommand_err hcomplete hs).symm.trans ht) (by decide)
    obtain ⟨hcode, hcmd⟩ := completeCommand_errRecord hcomplete ht
    exact ⟨atCompletion_clears_err hreset herr haccess, hcode.trans hframe.errcode, hcmd.trans hframe.errcmd⟩

/-- Settles O43: the step of a busy period is the host's access, which moves flags and enables only. -/
theorem busyPeriodKeepsTheState : Obligations.BusyPeriodKeepsTheState := by
  intro s hbusy hfinish hreset
  have hrst : s.edge.rst = false := Bool.eq_false_iff.mpr fun h => hreset (Or.inl h)
  have hnot : ¬ Completes s := fun h => absurd (h.finish.symm.trans hfinish) (by decide)
  obtain ⟨hresets, -⟩ | ⟨c, done, err, drop, hflags, hdone⟩ := atCompletion_of_busy hbusy
  · exact absurd hresets hreset
  · refine ⟨withFlags c done err drop s.popEdge, hflags ▸ step_of_not_completes hrst hnot, rfl, hdone, fun addr haddr => ?_⟩
    rw [busRead_withFlags c done err drop s.popEdge haddr]
    rfl

end Sys2Proof.Machine
end

section
/-! Statements about what the host reads (10_state.md R26, R34, R38, R39, R46, R47). The words are sums of their fields, each at
its power of two. -/

namespace Sys2Proof.Machine

variable {s : State} {addr : BitVec 11}

/-- A bit of a word from its number. -/
theorem getLsbD_of_div_mod {n i : Nat} {w : BitVec n} {b : Bool} (h : w.toNat / 2 ^ i % 2 = b.toNat) : w.getLsbD i = b := by
  rw [BitVec.getLsbD, Nat.testBit_eq_decide_div_mod_eq, h]
  cases b <;> rfl

/-- A field of a word as a number. -/
theorem toNat_extractLsb'_div_mod {n : Nat} (w : BitVec n) (lo len : Nat) :
    (w.extractLsb' lo len).toNat = w.toNat / 2 ^ lo % 2 ^ len := by
  rw [BitVec.extractLsb'_toNat, Nat.shiftRight_eq_div_pow]

theorem extractLsb'_of_div_mod {n lo len : Nat} {w : BitVec n} {v : BitVec len}
    (h : w.toNat / 2 ^ lo % 2 ^ len = v.toNat) : w.extractLsb' lo len = v :=
  BitVec.eq_of_toNat_eq ((toNat_extractLsb'_div_mod w lo len).trans h)

/-- The bits of a word that is small enough are 0 above its fields. -/
theorem ushiftRight_eq_zero_of_lt {n i : Nat} {w : BitVec n} (h : w.toNat < 2 ^ i) : w >>> i = 0 := by
  apply BitVec.eq_of_toNat_eq
  rw [BitVec.toNat_ushiftRight, Nat.shiftRight_eq_div_pow, Nat.div_eq_of_lt h]
  rfl

/-! ### `STATUS` and `CTRL` -/

theorem busRead_status (h : target s.cfg addr = .status) : busRead s addr = s.status.word := by
  simp only [busRead, h]

theorem busRead_ctrl (h : target s.cfg addr = .ctrl) : busRead s addr = s.ctrl.word := by
  simp only [busRead, h]

theorem Status.toNat_word_fields (f : Status) :
    f.word.toNat < 2 ^ 8 ∧
    f.word.toNat / 2 ^ 0 % 2 = f.busy.toNat ∧ f.word.toNat / 2 ^ 1 % 2 = f.done.toNat ∧
    f.word.toNat / 2 ^ 2 % 2 = f.err.toNat ∧ f.word.toNat / 2 ^ 3 % 2 = f.drop.toNat ∧
    f.word.toNat / 2 ^ 4 % 2 = f.seeded.toNat ∧ f.word.toNat / 2 ^ 5 % 2 = f.prime.toNat ∧
    f.word.toNat / 2 ^ 6 % 2 ^ 2 = f.jsym.toNat := by
  have hbusy := f.busy.toNat_le
  have hdone := f.done.toNat_le
  have herr := f.err.toNat_le
  have hdrop := f.drop.toNat_le
  have hseeded := f.seeded.toNat_le
  have hprime := f.prime.toNat_le
  have hjsym := f.jsym.isLt
  rw [Status.word, BitVec.toNat_ofNat]
  omega

theorem Ctrl.toNat_word_fields (c : Ctrl) :
    c.word.toNat < 2 ^ 2 ∧ c.word.toNat / 2 ^ 0 % 2 = c.ieDone.toNat ∧ c.word.toNat / 2 ^ 1 % 2 = c.ieErr.toNat := by
  have hieDone := c.ieDone.toNat_le
  have hieErr := c.ieErr.toNat_le
  rw [Ctrl.word, BitVec.toNat_ofNat]
  omega

/-- Settles O57: every bit of the two words is its field, and `irq` is made of four of them. -/
theorem statusControlAndIrqBits : Obligations.StatusControlAndIrqBits := by
  intro s as ac hstatus hctrl
  dsimp only
  rw [busRead_status hstatus, busRead_ctrl hctrl]
  obtain ⟨hlow, hbusy, hdone, herr, hdrop, hseeded, hprime, hjsym⟩ := s.status.toNat_word_fields
  obtain ⟨hclow, hieDone, hieErr⟩ := s.ctrl.toNat_word_fields
  have done := getLsbD_of_div_mod hdone
  have err := getLsbD_of_div_mod herr
  have ieDone := getLsbD_of_div_mod hieDone
  have ieErr := getLsbD_of_div_mod hieErr
  refine ⟨getLsbD_of_div_mod hbusy, done, err, getLsbD_of_div_mod hdrop, getLsbD_of_div_mod hseeded,
    getLsbD_of_div_mod hprime, extractLsb'_of_div_mod hjsym, ushiftRight_eq_zero_of_lt hlow, ieDone, ieErr,
    ushiftRight_eq_zero_of_lt hclow, ?_⟩
  rw [done, err, ieDone, ieErr, State.irq]

/-! ### `ID` and `PARAM` -/

/-- The bytes of `PARAM` (10_state.md R39). -/
theorem paramWord_bytes {cfg : Config} (h : cfg.legal) :
    (paramWord cfg).toNat / 2 ^ 0 % 2 ^ 8 = cfg.L ∧ (paramWord cfg).toNat / 2 ^ 8 % 2 ^ 8 = cfg.seedMax ∧
    (paramWord cfg).toNat / 2 ^ 16 % 2 ^ 8 = 16 ∧ (paramWord cfg).toNat / 2 ^ 24 % 2 ^ 8 = 1 := by
  obtain ⟨⟨-, hL⟩, -, hseedMax⟩ := h
  rw [paramWord, BitVec.toNat_ofNat, Config.nreg, Config.version]
  omega

/-- Settles O58: the reads by the address map, the bytes of `PARAM` by arithmetic; no write of the map reaches either word. -/
theorem idAndParamAreConstants : Obligations.IdAndParamAreConstants := by
  refine ⟨fun s addr w hlegal => ⟨fun hid => ?_, fun hparam => ?_⟩, by decide⟩
  · exact ⟨by simp only [busRead, hid, Config.idWord], by simp only [busWrite, hid]⟩
  · have hread : busRead s addr = paramWord s.cfg := by simp only [busRead, hparam]
    obtain ⟨hL, hseedMax, hnreg, hversion⟩ := paramWord_bytes hlegal
    rw [hread]
    exact ⟨(toNat_extractLsb'_div_mod _ 0 8).trans hL, (toNat_extractLsb'_div_mod _ 8 8).trans hseedMax,
      extractLsb'_of_div_mod hnreg, extractLsb'_of_div_mod hversion, by simp only [busWrite, hparam]⟩

/-! ### after reset -/

theorem wordOf_zero (i : Nat) : wordOf 0 i = 0 := by rw [wordOf, Nat.zero_div]; rfl

/-- Settles O46: `CONF`, `ID` and `PARAM` read as their constants, every other register of the map has been zeroed. -/
theorem resetReadValues : Obligations.ResetReadValues := by
  intro cfg
  refine ⟨fun addr => ?_, rfl⟩
  unfold busRead
  rw [resetWith_cfg]
  rcases target cfg addr with _ | _ | _ | _ | _ | _ | _ | _ | _ | _ | _ | i | ⟨r, i⟩ | _
  case seed => simp
  case xword => simp [wordOf_zero]
  all_goals rfl

end Sys2Proof.Machine
end

section
/-! What the host cannot learn (10_state.md R25, R43, R47). Two engines that differ in hidden state alone are run side by side: each
step keeps them so or makes them equal, and the outputs do not read the hidden state. -/

namespace Sys2Proof.Machine

variable {s t : State} {g : Prng}

/-! ### two runs side by side -/

/-- A relation that every step keeps is kept by every run. -/
theorem run_simulation {R : State → State → Prop}
    (hstep : ∀ s t, R s t → ∃ s' t', step s = .next s' ∧ step t = .next t' ∧ R s' t') (k : Nat) :
    ∀ s t, R s t → ∃ s' t', Host.Core.run Sys2Proof.core k s = .next s' ∧ Host.Core.run Sys2Proof.core k t = .next t' ∧
      R s' t' := by
  induction k with
  | zero => exact fun s t h => ⟨s, t, rfl, rfl, h⟩
  | succ k ih =>
    intro s t h
    obtain ⟨s₁, t₁, hs, ht, h₁⟩ := hstep s t h
    obtain ⟨s', t', hs', ht', h'⟩ := ih s₁ t₁ h₁
    exact ⟨s', t', (run_next (M := Sys2Proof.core) hs).trans hs', (run_next (M := Sys2Proof.core) ht).trans ht', h'⟩

/-- The state with its hidden parts replaced: the generator (10_state.md R43) and the latch (R25). -/
def withHidden (g : Prng) (c : Word) (s : State) : State := { s with prng := g, cmdreg := c }

@[simp] theorem withHidden_cfg (g : Prng) (c : Word) (s : State) : (withHidden g c s).cfg = s.cfg := rfl

@[simp] theorem withHidden_status (g : Prng) (c : Word) (s : State) : (withHidden g c s).status = s.status := rfl

theorem rdata_withHidden (g : Prng) (c : Word) (s : State) : (withHidden g c s).rdata = s.rdata := rfl

theorem irq_withHidden (g : Prng) (c : Word) (s : State) : (withHidden g c s).irq = s.irq := rfl

/-- What one access makes of `s` with the hidden parts `g` and `c`, where it makes `u` of `s`: the same state after a reset, the same
latch after an acceptance, else the same hidden parts as before. -/
inductive HiddenAccess (g : Prng) (c : Word) (s u : State) : State → Prop where
  | reset : HiddenAccess g c s u u
  | accepted (frame : AccessFrame s u) : HiddenAccess g c s u (withHidden g u.cmdreg u)
  | kept (frame : AccessFrame s u) (cmdreg : u.cmdreg = s.cmdreg) (busy : u.status.busy = s.status.busy) :
      HiddenAccess g c s u (withHidden g c u)

theorem hiddenAccess_markDrop (g : Prng) (c : Word) (s : State) :
    HiddenAccess g c s (markDrop s) (markDrop (withHidden g c s)) :=
  .kept (by constructor <;> rfl) rfl rfl

theorem hiddenAccess_writeUnlessBusy {c : Word} {s' : State} (frame : AccessFrame s s') (cmdreg : s'.cmdreg = s.cmdreg)
    (busy : s'.status.busy = s.status.busy) :
    HiddenAccess g c s (writeUnlessBusy s s') (writeUnlessBusy (withHidden g c s) (withHidden g c s')) := by
  rcases hbusy : s.status.busy with _ | _
  · rw [writeUnlessBusy_idle hbusy, writeUnlessBusy_idle (s := withHidden g c s) hbusy]
    exact .kept frame cmdreg busy
  · rw [writeUnlessBusy_busy hbusy, writeUnlessBusy_busy (s := withHidden g c s) hbusy]
    exact hiddenAccess_markDrop g c s

theorem hiddenAccess_writeCmd (g : Prng) (c w : Word) (s : State) :
    HiddenAccess g c s (writeCmd w s) (writeCmd w (withHidden g c s)) := by
  unfold writeCmd
  rw [withHidden_status]
  split
  · exact hiddenAccess_markDrop g c s
  · exact .accepted (by constructor <;> rfl)

theorem hiddenAccess_writeCtrl (g : Prng) (c w : Word) (s : State) :
    HiddenAccess g c s (writeCtrl w s) (writeCtrl w (withHidden g c s)) := by
  unfold writeCtrl
  split
  · exact .reset
  · exact .kept (by constructor <;> rfl) rfl rfl

theorem hiddenAccess_busWrite (g : Prng) (c : Word) (s : State) (addr : BitVec 11) (w : Word) :
    HiddenAccess g c s (busWrite s addr w) (busWrite (withHidden g c s) addr w) := by
  have unchanged : HiddenAccess g c s s (withHidden g c s) := .kept (by constructor <;> rfl) rfl rfl
  unfold busWrite
  rw [withHidden_cfg]
  rcases target s.cfg addr with _ | _ | _ | _ | _ | _ | _ | _ | _ | _ | _ | i | ⟨r, i⟩ | _ <;> dsimp only
  case cmd => exact hiddenAccess_writeCmd g c w s
  case status => exact .kept (by constructor <;> rfl) rfl rfl
  case ctrl => exact hiddenAccess_writeCtrl g c w s
  case conf => exact hiddenAccess_writeUnlessBusy (s' := { s with conf := w }) (by constructor <;> rfl) rfl rfl
  case limit => exact hiddenAccess_writeUnlessBusy (s' := { s with limit := w }) (by constructor <;> rfl) rfl rfl
  case seed => exact hiddenAccess_writeUnlessBusy (s' := { s with seedbuf := s.seedbuf.set i w }) (by constructor <;> rfl) rfl rfl
  case xword =>
    exact hiddenAccess_writeUnlessBusy (s' := { s with x := s.x.set r.val (putWord (readReg s r) i w) })
      (by constructor <;> rfl) rfl rfl
  all_goals exact unchanged

theorem hiddenAccess_atCompletion (g : Prng) (c : Word) (s : State) :
    HiddenAccess g c s.popEdge s.atCompletion (withHidden g c s).atCompletion := by
  have unchanged : HiddenAccess g c s.popEdge s.popEdge (withHidden g c s).popEdge := .kept (by constructor <;> rfl) rfl rfl
  rcases h : s.edge.access with _ | ⟨addr⟩ | ⟨addr, w⟩
  · rw [atCompletion_of_none h, atCompletion_of_none (s := withHidden g c s) h]
    exact unchanged
  · rw [atCompletion_of_read h, atCompletion_of_read (s := withHidden g c s) h]
    exact unchanged
  · rw [atCompletion_of_write h, atCompletion_of_write (s := withHidden g c s) h]
    exact hiddenAccess_busWrite g c s.popEdge addr w

/-! ### the latch of an idle engine -/

/-- `t` is `s` but for the latch, and no command is in flight. -/
def LatchHidden (s t : State) : Prop := t = s ∨ (s.status.busy = false ∧ ∃ c, t = withHidden s.prng c s)

/-- Without a command in flight a step is a reset or the access, which keeps the latch or writes it anew. -/
theorem step_latchHidden (s t : State) (h : LatchHidden s t) :
    ∃ s' t', step s = .next s' ∧ step t = .next t' ∧ LatchHidden s' t' := by
  rcases h with rfl | ⟨hidle, c, rfl⟩
  · obtain ⟨t', ht'⟩ := step_hasNext t
    exact ⟨t', t', ht', ht', Or.inl rfl⟩
  have hnot : ¬ Completes s := fun hs => absurd (hs.busy.symm.trans hidle) (by decide)
  have hnot' : ¬ Completes (withHidden s.prng c s) := fun hs => absurd (hs.busy.symm.trans hidle) (by decide)
  rcases hrst : s.edge.rst with _ | _
  · refine ⟨_, _, step_of_not_completes hrst hnot, step_of_not_completes hrst hnot', ?_⟩
    have haccess := hiddenAccess_atCompletion s.prng c s
    generalize (withHidden s.prng c s).atCompletion = v at haccess
    cases haccess with
    | reset => exact Or.inl rfl
    | accepted frame =>
      rw [← popEdge_prng, ← frame.prng]
      exact Or.inl rfl
    | kept frame _ busy =>
      rw [← popEdge_prng, ← frame.prng]
      exact Or.inr ⟨busy.trans hidle, c, rfl⟩
  · exact ⟨_, _, step_of_rst hrst, step_of_rst hrst, Or.inl rfl⟩

/-- Settles O60: two idle engines stay equal but for the latch, which neither output reads. -/
theorem idleLatchIsUnobservable : Obligations.IdleLatchIsUnobservable := by
  intro s t hsame hidle k
  obtain ⟨s', t', hs', ht', rfl | ⟨-, c, rfl⟩⟩ :=
    run_simulation step_latchHidden k s t (Or.inr ⟨hidle, t.cmdreg, hsame.symm⟩)
  · exact ⟨t', t', hs', ht', rfl, rfl⟩
  · exact ⟨s', _, hs', ht', (rdata_withHidden _ c s').symm, (irq_withHidden _ c s').symm⟩

/-! ### the generator of an unseeded engine -/

/-- `s` with the generator `g`. -/
def withGenerator (g : Prng) (s : State) : State := { s with prng := g }

/-- An outcome with the generator `g`. -/
def Result.withGenerator (g : Prng) : Result → Result
  | .ok s => .ok (Machine.withGenerator g s)
  | .fault c s => .fault c (Machine.withGenerator g s)
  | .diverge => .diverge

theorem withHidden_cmdreg_self (g : Prng) (s : State) : withHidden g s.cmdreg s = withGenerator g s := rfl

theorem finish_withGenerator (g : Prng) (s : State) {r : Result} (h : finish s r = .next t) :
    finish (withGenerator g s) (r.withGenerator g) = .next (withGenerator g t) := by
  cases r with
  | ok s' => obtain rfl := Host.Outcome.next.inj h; rfl
  | fault c s' => obtain rfl := Host.Outcome.next.inj h; rfl
  | diverge => obtain rfl := Host.Outcome.next.inj h; rfl

theorem finish_guardThen_withGenerator (g : Prng) (s : State) (check : Option FaultCode) (k : Result)
    (h : finish s (guardThen check s k) = .next t) :
    finish (withGenerator g s) (guardThen check (withGenerator g s) (k.withGenerator g)) = .next (withGenerator g t) := by
  have hguard : guardThen check (withGenerator g s) (k.withGenerator g) = (guardThen check s k).withGenerator g := by
    cases check <;> rfl
  rw [hguard]
  exact finish_withGenerator g s h

theorem jacobiResult_withGenerator (rd : Reg) (n : Nat) (s : State) (j : Option Int) :
    jacobiResult rd n (withGenerator g s) j = (jacobiResult rd n s j).withGenerator g := by
  cases j <;> rfl

/-! ### the PRNG class while unseeded (60_exceptions.md R233) -/

theorem finish_guardThen_unseeded (hs : s.status.seeded = false) (k : Result) :
    finish s (guardThen (unseededCheck s) s k) = .next (takeFault .unseeded s) := by
  simp [unseededCheck, hs, guardThen_some]

theorem exec_next_unseeded (rd : Reg) (s : State) (hs : s.status.seeded = false) :
    exec (.next rd) s = .next (takeFault .unseeded s) := finish_guardThen_unseeded hs _

theorem exec_randbits_unseeded (rd : Reg) (k : Nat) (s : State) (hs : s.status.seeded = false) :
    exec (.randbits rd k) s = .next (takeFault .unseeded s) := by
  have hcheck : randbitsCheck s k = unseededCheck s := by simp [randbitsCheck, unseededCheck, hs]
  simp only [exec, execRandbits, hcheck]
  exact finish_guardThen_unseeded hs _

theorem exec_sample_unseeded (rd rs1 rs2 : Reg) (s : State) (hs : s.status.seeded = false) :
    exec (.sample rd rs1 rs2) s = .next (takeFault .unseeded s) := finish_guardThen_unseeded hs _

theorem exec_ptest_unseeded (rd rs3 : Reg) (s : State) (hs : s.status.seeded = false) :
    exec (.ptest rd rs3) s = .next (takeFault .unseeded s) := finish_guardThen_unseeded hs _

/-- A command that faults in every unseeded state faults alike with another generator. -/
theorem withGenerator_of_unseeded {i : Instr}
    (hfault : ∀ u : State, u.status.seeded = false → exec i u = .next (takeFault .unseeded u))
    (hs : s.status.seeded = false) (h : exec i s = .next t) : exec i (withGenerator g s) = .next (withGenerator g t) := by
  obtain rfl := Host.Outcome.next.inj ((hfault s hs).symm.trans h)
  exact hfault (withGenerator g s) hs

/-! ### every command while unseeded -/

/-- While unseeded no command but `SEED` reads or writes the generator. -/
theorem exec_withGenerator {i : Instr} (hi : mnemonicOf i ≠ "SEED") (hs : s.status.seeded = false)
    (h : exec i s = .next t) : exec i (withGenerator g s) = .next (withGenerator g t) := by
  cases i with
  | nop => exact finish_withGenerator g s (r := .ok s) h
  | mov rd rs1 => exact (finish_withGenerator g s (r := .ok (writeReg rd _ s)) h :)
  | ldi rd imm16 => exact (finish_withGenerator g s (r := .ok (writeReg rd _ s)) h :)
  | gcd rd rs1 rs2 => exact (finish_withGenerator g s (r := .ok (writeReg rd _ s)) h :)
  | seed len => exact absurd rfl hi
  | next rd => exact withGenerator_of_unseeded (exec_next_unseeded rd) hs h
  | randbits rd k => exact withGenerator_of_unseeded (exec_randbits_unseeded rd k) hs h
  | sample rd rs1 rs2 => exact withGenerator_of_unseeded (exec_sample_unseeded rd rs1 rs2) hs h
  | ptest rd rs3 => exact withGenerator_of_unseeded (exec_ptest_unseeded rd rs3) hs h
  | montmul rd rs1 rs2 rs3 => exact (finish_guardThen_withGenerator g s _ (.ok (writeReg rd _ s)) h :)
  | tomont rd rs1 rs3 => exact (finish_guardThen_withGenerator g s _ (.ok (writeReg rd _ s)) h :)
  | frommont rd rs1 rs3 => exact (finish_guardThen_withGenerator g s _ (.ok (writeReg rd _ s)) h :)
  | mulmod rd rs1 rs2 rs3 => exact (finish_guardThen_withGenerator g s _ (.ok (writeReg rd _ s)) h :)
  | modexp rd rs1 rs2 rs3 => exact (finish_guardThen_withGenerator g s _ (.ok (writeReg rd _ s)) h :)
  | jacobi rd rs1 rs3 neg =>
    have h' := finish_guardThen_withGenerator g s _ (jacobiResult rd _ s _) h
    rw [← jacobiResult_withGenerator] at h'
    exact h'

/-- `t` is `s` but for the generator, and no generator has been seeded. -/
def GeneratorHidden (s t : State) : Prop := t = s ∨ (s.status.seeded = false ∧ ∃ g, t = withGenerator g s)

/-- `SEED` writes a generator that does not depend on the one before, or faults. -/
theorem exec_seed_generatorHidden (len : Nat) (g : Prng) (hs : s.status.seeded = false) :
    ∃ t t', exec (.seed len) s = .next t ∧ exec (.seed len) (withGenerator g s) = .next t' ∧ GeneratorHidden t t' := by
  have hcheck : seedLenCheck (withGenerator g s) len = seedLenCheck s len := rfl
  simp only [exec, execSeed, hcheck]
  rcases seedLenCheck s len with _ | c
  · exact ⟨_, _, rfl, rfl, Or.inl rfl⟩
  · exact ⟨_, _, rfl, rfl, Or.inr ⟨hs, g, rfl⟩⟩

theorem exec_generatorHidden (i : Instr) (g : Prng) (hs : s.status.seeded = false) :
    ∃ t t', exec i s = .next t ∧ exec i (withGenerator g s) = .next t' ∧ GeneratorHidden t t' := by
  by_cases hi : mnemonicOf i = "SEED"
  · cases i with
    | seed len => exact exec_seed_generatorHidden len g hs
    | _ => exact absurd hi (by simp [mnemonicOf])
  · obtain ⟨t, h⟩ := exec_hasNext i s
    exact ⟨t, _, h, exec_withGenerator hi hs h, Or.inr ⟨(exec_seeded h hi).trans hs, g, rfl⟩⟩

theorem completeCommand_generatorHidden (h : GeneratorHidden s t) :
    ∃ s' t', completeCommand s = .next s' ∧ completeCommand t = .next t' ∧ GeneratorHidden s' t' := by
  rcases h with rfl | ⟨hs, g, rfl⟩
  · obtain ⟨t', ht'⟩ := completeCommand_hasNext t
    exact ⟨t', t', ht', ht', Or.inl rfl⟩
  · rcases hdecode : decode s.cmdreg with e | i
    · exact ⟨_, _, completeCommand_error hdecode, completeCommand_error (s := withGenerator g s) hdecode,
        Or.inr ⟨hs, g, rfl⟩⟩
    · rw [completeCommand_ok hdecode, completeCommand_ok (s := withGenerator g s) hdecode]
      exact exec_generatorHidden i g hs

/-! ### every step while unseeded -/

theorem GeneratorHidden.status (h : GeneratorHidden s t) : t.status = s.status := by
  rcases h with rfl | ⟨-, g, rfl⟩ <;> rfl

theorem atCompletion_generatorHidden (g : Prng) (hs : s.status.seeded = false) :
    GeneratorHidden s.atCompletion (withGenerator g s).atCompletion := by
  have haccess := hiddenAccess_atCompletion g s.cmdreg s
  rw [withHidden_cmdreg_self] at haccess
  generalize (withGenerator g s).atCompletion = v at haccess
  cases haccess with
  | reset => exact Or.inl rfl
  | accepted frame => exact Or.inr ⟨frame.seeded.trans hs, g, rfl⟩
  | kept frame cmdreg _ =>
    rw [← popEdge_cmdreg, ← cmdreg]
    exact Or.inr ⟨frame.seeded.trans hs, g, rfl⟩

theorem completes_withGenerator_iff (hs : s.status.seeded = false) : Completes (withGenerator g s) ↔ Completes s := by
  have hstatus := (atCompletion_generatorHidden g hs).status
  exact ⟨fun ⟨hrst, hfinish, hbusy, hkept⟩ => ⟨hrst, hfinish, hbusy, hstatus ▸ hkept⟩,
    fun ⟨hrst, hfinish, hbusy, hkept⟩ => ⟨hrst, hfinish, hbusy, hstatus ▸ hkept⟩⟩

theorem step_generatorHidden (s t : State) (h : GeneratorHidden s t) :
    ∃ s' t', step s = .next s' ∧ step t = .next t' ∧ GeneratorHidden s' t' := by
  rcases h with rfl | ⟨hs, g, rfl⟩
  · obtain ⟨t', ht'⟩ := step_hasNext t
    exact ⟨t', t', ht', ht', Or.inl rfl⟩
  have haccess := atCompletion_generatorHidden g hs
  rcases hrst : s.edge.rst with _ | _
  · by_cases hc : Completes s
    · rw [step_of_completes hc, step_of_completes ((completes_withGenerator_iff hs).mpr hc)]
      exact completeCommand_generatorHidden haccess
    · exact ⟨_, _, step_of_not_completes hrst hc,
        step_of_not_completes hrst (mt (completes_withGenerator_iff hs).mp hc), haccess⟩
  · exact ⟨_, _, step_of_rst hrst, step_of_rst hrst, Or.inl rfl⟩

/-- Settles O59: two unseeded engines stay equal but for the generator, which neither output reads, until a seed or a reset makes
them equal. -/
theorem unseededGeneratorIsUnobservable : Obligations.UnseededGeneratorIsUnobservable := by
  intro s t hsame hs k
  obtain ⟨s', t', hs', ht', rfl | ⟨-, g, rfl⟩⟩ :=
    run_simulation step_generatorHidden k s t (Or.inr ⟨hs, t.prng, hsame.symm⟩)
  · exact ⟨t', t', hs', ht', rfl, rfl⟩
  · exact ⟨s', _, hs', ht', (rdata_withHidden g s'.cmdreg s').symm, (irq_withHidden g s'.cmdreg s').symm⟩

end Sys2Proof.Machine
end

section
/-! The decoder on an encoded command (30_encoding.md R103), format by format. -/

namespace Sys2Proof

/-- The fields of the packed word are the operands, and those that must be zero are 0 (30_encoding.md R97). `JACOBI`,
whose flag lies in `fn`, and the formats Z and I have cases of their own; the last one is the rest of format R. -/
theorem decode_encode {i : Instr} (h : WellFormed i) : decode (encode i) = .ok i := by
  cases i
  case nop => rfl
  case ldi rd imm16 =>
    have himm : imm16 < 65536 := of_decide_eq_true h
    simp [encode, decode, spelled, opcodeOf_packI, field_zero_packI, rdOf_packI, imm16Of_packI, himm]
  case seed imm16 =>
    have himm : imm16 < 65536 := of_decide_eq_true h
    simp [encode, decode, spelled, opcodeOf_packI, field_rd_packI, field_zero_packI, imm16Of_packI, himm]
  case randbits rd imm16 =>
    have himm : imm16 < 65536 := of_decide_eq_true h
    simp [encode, decode, spelled, opcodeOf_packI, field_zero_packI, rdOf_packI, imm16Of_packI, himm]
  case jacobi rd rs1 rs3 neg =>
    cases neg <;>
      simp [encode, decode, spelled, negOf, opcodeOf_packR, field_rs2_packR, field_fn7_packR, field_fn0_packR,
        rdOf_packR, rs1Of_packR, rs3Of_packR]
  all_goals
    simp [encode, decode, spelled, opcodeOf_packR, field_rs1_packR, field_rs2_packR, field_rs3_packR, field_fn_packR,
      rdOf_packR, rs1Of_packR, rs2Of_packR, rs3Of_packR]

end Sys2Proof
end

section
/-! The address map (20_memory.md R62): the ranges without a register, and the one offset of each register. -/

namespace Sys2Proof.Machine

variable {cfg : Config} {addr : BitVec 11}

theorem target_of_lt_seed (h : addr.toNat < 0x40) : target cfg addr = namedTargets.getD addr.toNat .reserved := by
  rw [target, if_pos h]

theorem target_reserved_after_named (hlow : 11 ≤ addr.toNat) (hhigh : addr.toNat < 0x40) :
    target cfg addr = .reserved := by
  rw [target_of_lt_seed hhigh]
  exact List.getD_eq_default _ _ hlow

theorem target_reserved_after_seed {i : Nat} (haddr : addr.toNat = 0x40 + i) (hlow : cfg.seedMax ≤ i) (hhigh : i < 64) :
    target cfg addr = .reserved := by
  rw [target, if_neg (by omega), if_pos (by omega), seedTarget, if_neg (by omega)]

theorem target_reserved_before_x (hlow : 0x80 ≤ addr.toNat) (hhigh : addr.toNat < 0x400) :
    target cfg addr = .reserved := by
  rw [target, if_neg (by omega), if_neg (by omega), if_pos hhigh]

theorem target_reserved_after_xword {r i : Nat} (haddr : addr.toNat = 0x400 + 64 * r + i) (hlow : cfg.L ≤ i)
    (hhigh : i < 64) : target cfg addr = .reserved := by
  rw [target, if_neg (by omega), if_neg (by omega), if_neg (by omega), xwordTarget, if_neg (by omega)]

/-- Settles O47: the named registers by their list, the seed and operand words by the lemmas that place them, and the gaps. -/
theorem addressMapFollowsTheTable : Obligations.AddressMapFollowsTheTable := by
  rintro cfg ⟨⟨-, hL⟩, -, hseedMax⟩
  refine ⟨rfl, fun addr => ⟨fun hlow hhigh => ?_, fun i haddr hi => ?_, fun i haddr hlow hhigh => ?_,
    fun hlow hhigh => ?_, fun r i haddr hi => ?_, fun r i haddr hlow hhigh => ?_⟩⟩
  · exact target_reserved_after_named (by omega) (by omega)
  · exact (target_seed_iff hseedMax).mpr ⟨by omega, hi⟩
  · exact target_reserved_after_seed (by omega) hlow hhigh
  · exact target_reserved_before_x (by omega) (by omega)
  · exact (target_xword_iff hL).mpr ⟨by omega, hi⟩
  · exact target_reserved_after_xword (r := r.val) (by omega) hlow hhigh

/-- A named register is found at its place in the list. -/
theorem getElem?_namedTargets_of_mem (h : target cfg addr ∈ namedTargets) :
    namedTargets[addr.toNat]? = some (target cfg addr) := by
  unfold target seedTarget xwordTarget at h ⊢
  split_ifs at h ⊢ with hnamed
  · rw [List.getD_eq_getElem?_getD] at h ⊢
    rcases hget : namedTargets[addr.toNat]? with _ | t
    · rw [hget] at h
      exact absurd h (by decide)
    · rfl
  all_goals exact absurd h (by simp [namedTargets])

/-- No register has two offsets. -/
theorem target_injective {a b : BitVec 11} (hcfg : cfg.legal) (h : target cfg a = target cfg b)
    (hb : target cfg b ≠ .reserved) : a = b := by
  obtain ⟨⟨-, hL⟩, -, hseedMax⟩ := hcfg
  have named (hmem : target cfg b ∈ namedTargets) : a = b := by
    have ha := getElem?_namedTargets_of_mem (h ▸ hmem)
    have hget := getElem?_namedTargets_of_mem hmem
    have hlt : a.toNat < namedTargets.length := (List.getElem?_eq_some_iff.mp ha).1
    exact BitVec.eq_of_toNat_eq ((List.getElem?_inj hlt (by decide)).mp (ha.trans (h ▸ hget.symm)))
  rcases ht : target cfg b with _ | _ | _ | _ | _ | _ | _ | _ | _ | _ | _ | i | ⟨r, i⟩ | _
  case seed =>
    obtain ⟨ha, -⟩ := (target_seed_iff hseedMax).mp (h.trans ht)
    obtain ⟨hb, -⟩ := (target_seed_iff hseedMax).mp ht
    exact BitVec.eq_of_toNat_eq (ha.trans hb.symm)
  case xword =>
    obtain ⟨ha, -⟩ := (target_xword_iff hL).mp (h.trans ht)
    obtain ⟨hb, -⟩ := (target_xword_iff hL).mp ht
    exact BitVec.eq_of_toNat_eq (ha.trans hb.symm)
  case reserved => exact absurd ht hb
  all_goals exact named (by rw [ht]; decide)

end Sys2Proof.Machine
end

section
/-! The host's access, register by register (20_memory.md R63, R67 to R71). -/

namespace Sys2Proof.Machine

variable {s : State} {addr : BitVec 11}

/-! ### reads -/

theorem busRead_cmd (h : target s.cfg addr = .cmd) : busRead s addr = 0 := by simp only [busRead, h]

theorem busRead_conf (h : target s.cfg addr = .conf) : busRead s addr = s.conf := by simp only [busRead, h]

theorem busRead_limit (h : target s.cfg addr = .limit) : busRead s addr = s.limit := by simp only [busRead, h]

theorem busRead_seed {i : Nat} (h : target s.cfg addr = .seed i) : busRead s addr = s.seedbuf.getD i 0 := by
  simp only [busRead, h]

theorem busRead_xword {r : Reg} {i : Nat} (h : target s.cfg addr = .xword r i) :
    busRead s addr = wordOf (readReg s r) i := by simp only [busRead, h]

theorem busRead_reserved (h : target s.cfg addr = .reserved) : busRead s addr = 0 := by simp only [busRead, h]

/-! ### writes -/

theorem busWrite_cmd (w : Word) (h : target s.cfg addr = .cmd) : busWrite s addr w = writeCmd w s := by
  simp only [busWrite, h]

theorem busWrite_status (w : Word) (h : target s.cfg addr = .status) : busWrite s addr w = writeStatus w s := by
  simp only [busWrite, h]

theorem busWrite_ctrl (w : Word) (h : target s.cfg addr = .ctrl) : busWrite s addr w = writeCtrl w s := by
  simp only [busWrite, h]

theorem busWrite_conf (w : Word) (h : target s.cfg addr = .conf) :
    busWrite s addr w = writeUnlessBusy s { s with conf := w } := by simp only [busWrite, h]

theorem busWrite_limit (w : Word) (h : target s.cfg addr = .limit) :
    busWrite s addr w = writeUnlessBusy s { s with limit := w } := by simp only [busWrite, h]

theorem busWrite_seed {i : Nat} (w : Word) (h : target s.cfg addr = .seed i) :
    busWrite s addr w = writeUnlessBusy s { s with seedbuf := s.seedbuf.set i w } := by simp only [busWrite, h]

theorem busWrite_xword {r : Reg} {i : Nat} (w : Word) (h : target s.cfg addr = .xword r i) :
    busWrite s addr w = writeUnlessBusy s { s with x := s.x.set r.val (putWord (readReg s r) i w) } := by
  simp only [busWrite, h]

theorem busWrite_reserved (w : Word) (h : target s.cfg addr = .reserved) : busWrite s addr w = s := by
  simp only [busWrite, h]

theorem busWrite_readOnly (w : Word)
    (h : target s.cfg addr ∈ [Target.errcode, .errcmd, .rounds, .prngcnt, .id, .param]) : busWrite s addr w = s := by
  simp only [List.mem_cons, List.not_mem_nil, or_false] at h
  rcases h with h | h | h | h | h | h <;> simp only [busWrite, h]

theorem writeCmd_blocked (w : Word) (h : s.status.busy = true ∨ s.status.err = true) : writeCmd w s = markDrop s := by
  rw [writeCmd, if_pos (by simpa using h)]

theorem writeCmd_accepted (w : Word) (hbusy : s.status.busy = false) (herr : s.status.err = false) :
    writeCmd w s = acceptCommand w s := by
  rw [writeCmd, if_neg (by simp [hbusy, herr])]

/-- While busy the host can write no operand and issue no command. -/
theorem busWrite_of_busy (w : Word) (hbusy : s.status.busy = true)
    (h : (∃ r i, target s.cfg addr = .xword r i) ∨ (∃ i, target s.cfg addr = .seed i) ∨ target s.cfg addr = .conf ∨
      target s.cfg addr = .limit ∨ target s.cfg addr = .cmd) : busWrite s addr w = markDrop s := by
  rcases h with ⟨r, i, h⟩ | ⟨i, h⟩ | h | h | h
  · rw [busWrite_xword w h, writeUnlessBusy_busy hbusy]
  · rw [busWrite_seed w h, writeUnlessBusy_busy hbusy]
  · rw [busWrite_conf w h, writeUnlessBusy_busy hbusy]
  · rw [busWrite_limit w h, writeUnlessBusy_busy hbusy]
  · rw [busWrite_cmd w h, writeCmd_blocked w (Or.inl hbusy)]

/-! ### the write rules -/

/-- Settles O50: `BUSY` decides between the drop and the write of each kind of word. -/
theorem operandWriteRule : Obligations.OperandWriteRule := by
  intro s addr w
  refine ⟨fun h hbusy => busWrite_of_busy w hbusy (h.imp_right (·.imp_right (·.imp_right Or.inl))), fun hidle =>
    ⟨fun r i h => ?_, fun i h => ?_, fun h => ?_, fun h => ?_⟩⟩
  · exact (busWrite_xword w h).trans (writeUnlessBusy_idle hidle)
  · exact (busWrite_seed w h).trans (writeUnlessBusy_idle hidle)
  · exact (busWrite_conf w h).trans (writeUnlessBusy_idle hidle)
  · exact (busWrite_limit w h).trans (writeUnlessBusy_idle hidle)

/-- Settles O51: `BUSY` and `ERR` decide on the acceptance, and only the completion looks at the word. -/
theorem commandWriteRule : Obligations.CommandWriteRule := by
  intro s addr w h
  refine ⟨fun hblocked => ?_, fun hidle herr => ⟨?_, fun e hdecode => ?_⟩, busRead_cmd h⟩
  · exact (busWrite_cmd w h).trans (writeCmd_blocked w hblocked)
  · exact (busWrite_cmd w h).trans (writeCmd_accepted w hidle herr)
  · exact completeCommand_error hdecode

/-- Settles O53: the map leads the write to `writeCtrl`, whose two branches these are. -/
theorem controlWriteRule : Obligations.ControlWriteRule := fun _ _ w h => busWrite_ctrl w h

/-- Settles O54: the map leads these accesses to no register that a write reaches. -/
theorem reservedAndReadOnlyIgnoreWrites : Obligations.ReservedAndReadOnlyIgnoreWrites := fun _ _ w =>
  ⟨fun h => ⟨busRead_reserved h, busWrite_reserved w h⟩, fun h => busWrite_readOnly w h⟩

/-- Settles O55: the access of a read is no access to the step, and `rdata` is the read of the state before the edge. -/
theorem readsHaveNoSideEffects : Obligations.ReadsHaveNoSideEffects := fun _ _ _ _ => ⟨rfl, rfl⟩

end Sys2Proof.Machine
end

section
/-! A written word reads back and no other offset changes (10_state.md R22, 20_memory.md R68). -/

namespace Sys2Proof.Machine

variable {s : State} {addr : BitVec 11}

/-- `s` with the parts that the host writes as operands: the registers, the seed buffer, `CONF` and `LIMIT`. -/
def withOperands (x : Vector Nat 16) (seedbuf : List Word) (conf limit : Word) (s : State) : State :=
  { s with x := x, seedbuf := seedbuf, conf := conf, limit := limit }

/-- A read sees of the operands the one word its offset names. -/
theorem busRead_withOperands {x : Vector Nat 16} {seedbuf : List Word} {c l : Word}
    (conf : target s.cfg addr = .conf → c = s.conf) (limit : target s.cfg addr = .limit → l = s.limit)
    (seed : ∀ i, target s.cfg addr = .seed i → seedbuf.getD i 0 = s.seedbuf.getD i 0)
    (xword : ∀ r i, target s.cfg addr = .xword r i → wordOf x[r.val] i = wordOf (readReg s r) i) :
    busRead (withOperands x seedbuf c l s) addr = busRead s addr := by
  unfold busRead withOperands
  rcases ht : target s.cfg addr with _ | _ | _ | _ | _ | _ | _ | _ | _ | _ | _ | i | ⟨r, i⟩ | _ <;> dsimp only
  · exact conf ht
  · exact limit ht
  · exact seed i ht
  · exact xword r i ht

theorem busRead_setConf_ne (w : Word) (h : target s.cfg addr ≠ .conf) :
    busRead { s with conf := w } addr = busRead s addr :=
  busRead_withOperands (x := s.x) (absurd · h) (fun _ => rfl) (fun _ _ => rfl) fun _ _ _ => rfl

theorem busRead_setLimit_ne (w : Word) (h : target s.cfg addr ≠ .limit) :
    busRead { s with limit := w } addr = busRead s addr :=
  busRead_withOperands (x := s.x) (fun _ => rfl) (absurd · h) (fun _ _ => rfl) fun _ _ _ => rfl

theorem busRead_setSeed_same {i : Nat} (w : Word) (h : target s.cfg addr = .seed i) (hi : i < s.seedbuf.length) :
    busRead { s with seedbuf := s.seedbuf.set i w } addr = w := by
  rw [busRead_seed (i := i), List.getD_eq_getElem?_getD, List.getElem?_set_self hi, Option.getD_some]
  exact h

theorem busRead_setSeed_ne {i : Nat} (w : Word) (h : target s.cfg addr ≠ .seed i) :
    busRead { s with seedbuf := s.seedbuf.set i w } addr = busRead s addr := by
  refine busRead_withOperands (x := s.x) (fun _ => rfl) (fun _ => rfl) (fun j hj => ?_) fun _ _ _ => rfl
  have hne : i ≠ j := fun e => h (e ▸ hj)
  rw [List.getD_eq_getElem?_getD, List.getElem?_set_ne hne, List.getD_eq_getElem?_getD]

theorem busRead_setXword_same {r : Reg} {i : Nat} (w : Word) (h : target s.cfg addr = .xword r i) :
    busRead { s with x := s.x.set r.val (putWord (readReg s r) i w) } addr = w := by
  rw [busRead_xword (r := r) (i := i), readReg, Vector.getElem_set_self, wordOf_putWord_same]
  exact h

theorem busRead_setXword_ne {r : Reg} {i : Nat} (w : Word) (h : target s.cfg addr ≠ .xword r i) :
    busRead { s with x := s.x.set r.val (putWord (readReg s r) i w) } addr = busRead s addr := by
  refine busRead_withOperands (seedbuf := s.seedbuf) (fun _ => rfl) (fun _ => rfl) (fun _ _ => rfl) fun q j hj => ?_
  by_cases hq : q = r
  · subst hq
    have hne : j ≠ i := fun e => h (e ▸ hj)
    rw [Vector.getElem_set_self, wordOf_putWord_ne hne]
  · rw [Vector.getElem_set_ne _ _ fun e => hq (Fin.ext e.symm), readReg]

/-- Settles O48: each kind of word is read back where it was written, and no other offset names the same word. -/
theorem writeThenReadAnyWord : Obligations.WriteThenReadAnyWord := by
  intro s addr w hs hidle h
  have apart {t : Target} (ht : target s.cfg addr = t) (hreserved : t ≠ .reserved) (other : BitVec 11)
      (hother : other ≠ addr) : target s.cfg other ≠ t := fun e =>
    hother (target_injective hs.cfg (e.trans ht.symm) (ht ▸ hreserved))
  rcases h with ⟨r, i, h⟩ | ⟨i, h⟩ | h | h
  · rw [busWrite_xword w h, writeUnlessBusy_idle hidle]
    exact ⟨busRead_setXword_same w h, fun other hother =>
      busRead_setXword_ne w (apart h Target.noConfusion other hother)⟩
  · rw [busWrite_seed w h, writeUnlessBusy_idle hidle]
    have hi : i < s.seedbuf.length := hs.seedbuf ▸ ((target_seed_iff hs.cfg.2.2).mp h).2
    exact ⟨busRead_setSeed_same w h hi, fun other hother =>
      busRead_setSeed_ne w (apart h Target.noConfusion other hother)⟩
  · rw [busWrite_conf w h, writeUnlessBusy_idle hidle]
    exact ⟨busRead_conf h, fun other hother => busRead_setConf_ne w (apart h (by decide) other hother)⟩
  · rw [busWrite_limit w h, writeUnlessBusy_idle hidle]
    exact ⟨busRead_limit h, fun other hother => busRead_setLimit_ne w (apart h (by decide) other hother)⟩

end Sys2Proof.Machine
end

section
/-! A host write at the edge of a completion (20_memory.md R61, R70; 70_reset_and_hazards.md R270). -/

namespace Sys2Proof.Machine

variable {s t : State}

/-- A command that leaves the engine idle has raised the flag of its outcome (10_state.md R28, R29). -/
theorem completeCommand_raises_flag (h : completeCommand s = .next t) (hs : s.status.busy = true)
    (ht : t.status.busy = false) : t.status.done = true ∨ t.status.err = true := by
  rcases completeCommand_next h with ⟨i, -, hexec⟩ | rfl
  · rcases exec_next hexec with ⟨s', rfl, -⟩ | ⟨c, n, rfl, -⟩ | rfl
    · exact Or.inl rfl
    · exact Or.inr rfl
    · exact absurd (hs.symm.trans ht) (by decide)
  · exact Or.inr rfl

/-- Settles O52: the write is `writeStatus`, and the completion of the same edge raises its flag after it. -/
theorem statusWriteRule : Obligations.StatusWriteRule := by
  intro s addr w h
  have clear (b c : Bool) : (b && !c) = if c then false else b := by cases c <;> simp
  refine ⟨?_, fun hs haccess => ?_⟩
  · rw [busWrite_status w h, writeStatus, clear, clear, clear]
  · have hkept := hs.kept
    rw [atCompletion_of_write haccess] at hkept
    exact ⟨(step_of_completes hs).trans (by rw [atCompletion_of_write haccess]), fun t ht hidle =>
      completeCommand_raises_flag ht hkept hidle⟩

/-- Settles O56: the write meets `BUSY` and raises `DROP`, and then the command completes. -/
theorem writeAtTheCompletionEdgeIsDropped : Obligations.WriteAtTheCompletionEdgeIsDropped := by
  intro s addr w hedge hbusy h
  have hdropped : s.atCompletion = markDrop s.popEdge :=
    (atCompletion_of_write (by rw [hedge])).trans (busWrite_of_busy (s := s.popEdge) w hbusy h)
  have hs : Completes s := ⟨by rw [hedge], by rw [hedge], hbusy, by rw [hdropped]; exact hbusy⟩
  rw [step_of_completes hs, hdropped]
  rfl

end Sys2Proof.Machine
end

section
/-! A command as the host issues it and waits for it (20_memory.md R69, R75; 30_encoding.md R102). -/

namespace Sys2Proof.Machine

variable {s : State}

/-- `s` with the pending inputs `edges`. -/
def withSched (edges : List Edge) (s : State) : State := { s with sched := edges }

@[simp] theorem popEdge_withSched (e : Edge) (rest : List Edge) (s : State) :
    (withSched (e :: rest) s).popEdge = withSched rest s := rfl

/-- An idle engine without `ERR` accepts the issued command. -/
theorem step_hostIssue (i : Instr) (rest : List Edge) (hidle : s.status.busy = false) (herr : s.status.err = false) :
    step (withSched (hostIssue i :: rest) s) = .next (withSched rest (acceptCommand (encode i) s)) := by
  have hnot : ¬ Completes (withSched (hostIssue i :: rest) s) := fun h => absurd (hidle.symm.trans h.busy) (by decide)
  rw [step_of_not_completes rfl hnot, atCompletion_of_write rfl, popEdge_withSched, busWrite_cmd _ rfl,
    writeCmd_accepted (s := withSched rest s) _ hidle herr]
  rfl

/-- A command in flight completes at an edge at which the host writes nothing. -/
theorem step_completing {i : Instr} {e : Edge} {rest : List Edge} (hbusy : s.status.busy = true)
    (hdecode : decode s.cmdreg = .ok i) (hrst : e.rst = false) (hfinish : e.finish = true)
    (haccess : ∀ u, busAccess u e.access = u) : step (withSched (e :: rest) s) = exec i (withSched rest s) := by
  have hpop : (withSched (e :: rest) s).atCompletion = withSched rest s := haccess _
  have hs : Completes (withSched (e :: rest) s) := ⟨hrst, hfinish, hbusy, by rw [hpop]; exact hbusy⟩
  rw [step_of_completes hs, hpop, completeCommand_ok (s := withSched rest s) hdecode]

/-- A poll before the completion only takes its input. -/
theorem step_poll (rest : List Edge) (s : State) :
    step (withSched (hostRead 4 :: rest) s) = .next (withSched rest s) :=
  step_of_not_completes rfl fun h => Bool.noConfusion h.finish

theorem run_of_step {t : State} (h : step s = .next t) (k : Nat) :
    Host.Core.run Sys2Proof.core (k + 1) s = Host.Core.run Sys2Proof.core k t := run_next (M := Sys2Proof.core) h

theorem run_polls (m : Nat) (rest : List Edge) (s : State) (k : Nat) :
    Host.Core.run Sys2Proof.core (k + m) (withSched (List.replicate k (hostRead 4) ++ rest) s) =
      Host.Core.run Sys2Proof.core m (withSched rest s) := by
  induction k with
  | zero => rw [Nat.zero_add]; rfl
  | succ k ih =>
    rw [Nat.add_right_comm, List.replicate_succ, List.cons_append]
    exact (run_of_step (step_poll _ s) (k + m)).trans ih

theorem run_one_of_step_eq_exec {i : Instr} {u : State} (h : step s = exec i u) :
    Host.Core.run Sys2Proof.core 1 s = exec i u := by
  obtain ⟨t, ht⟩ := exec_hasNext i u
  rw [ht]
  exact run_of_step (h.trans ht) 0

/-- Before its completion `WAIT` has only polls to come, the first `k` of them at edges without a completion. -/
theorem hostWait_succ_append {k n : Nat} (hk : k ≤ n) (rest : List Edge) :
    hostWait (n + 1) ++ rest = List.replicate k (hostRead 4) ++
      (List.replicate (n - k) (hostRead 4) ++ { hostRead 4 with finish := true } :: hostRead 4 :: rest) := by
  obtain ⟨d, rfl⟩ := Nat.exists_eq_add_of_le hk
  rw [Nat.add_sub_cancel_left, hostWait, List.replicate_add]
  simp only [List.append_assoc, List.cons_append, List.nil_append]

/-- The next input of a wait is a poll, with or without the completion. -/
theorem rdata_of_polls (m : Nat) (rest : List Edge) (s : State) :
    (withSched (List.replicate m (hostRead 4) ++ { hostRead 4 with finish := true } :: rest) s).rdata =
      some s.status.word := by
  cases m with
  | zero => exact rdata_of_poll (finish := true) rfl
  | succ m => exact rdata_of_poll (finish := false) rfl

theorem Status.getLsbD_word_busy (f : Status) : f.word.getLsbD 0 = f.busy := by
  obtain ⟨-, hbusy, -⟩ := f.toNat_word_fields
  exact getLsbD_of_div_mod hbusy

/-- Settles O9: the issue is accepted, each poll before the completion only takes its input, and the poll at the completion edge
sees the state before it. -/
theorem issuedCommandCompletesAsExec : Obligations.IssuedCommandCompletesAsExec := by
  intro s i rest hi hidle herr
  have hissue (rest : List Edge) (k : Nat) := run_of_step (step_hostIssue i rest hidle herr) k
  have hdecode : decode (acceptCommand (encode i) s).cmdreg = .ok i := decode_encode hi
  refine ⟨?_, fun n => ⟨fun k hk => ?_, ?_, fun t ht => ?_⟩⟩
  · exact (hissue _ 1).trans (run_one_of_step_eq_exec (step_completing rfl hdecode rfl rfl fun _ => rfl))
  · refine ⟨_, _, (hissue _ k).trans ?_, rdata_of_polls (n - k) (hostRead 4 :: rest) (acceptCommand (encode i) s),
      Status.getLsbD_word_busy _⟩
    rw [hostWait_succ_append hk]
    exact run_polls 0 _ _ k
  · refine (hissue _ (n + 1)).trans ?_
    rw [hostWait_succ_append le_rfl, run_polls, Nat.sub_self]
    exact run_one_of_step_eq_exec (step_completing rfl hdecode rfl rfl fun _ => rfl)
  · exact ⟨_, rdata_of_poll (finish := false) (exec_frame ht).sched, Status.getLsbD_word_busy _⟩

end Sys2Proof.Machine
end

section
/-! Words written out from the encoding, and the round trip from a command to its word and back (30_encoding.md R96, R101, R103). -/

namespace Sys2Proof

/-- Settles O1: `decode_encode` has the decoder on the packed word of each format. -/
theorem decodeOfEncodeIsTheCommand : Obligations.DecodeOfEncodeIsTheCommand := fun _ => decode_encode

/-- Settles O5: the decoder, run on each word. -/
theorem writtenOutWordsDecode : Obligations.WrittenOutWordsDecode :=
  ⟨rfl, rfl, rfl, rfl, rfl, rfl, rfl, rfl, rfl, rfl, rfl, rfl, rfl, rfl, rfl, rfl⟩

end Sys2Proof
end

section
/-! The decoder against the match/mask table (30_encoding.md R91, R97, R103). A row of the table says that the opcode is the row's
and that the fields the command does not use are 0; the command's operands are the other fields. -/

namespace Sys2Proof

/-! ### a mask, field by field -/

/-- The mask of the field `cw[lo+width-1 : lo]`. -/
def fieldMask (lo width : Nat) : Word := BitVec.ofNat 32 ((2 ^ width - 1) <<< lo)

/-- The mask of the opcode and of the fields in a list. -/
def maskOf : List (Nat × Nat) → Word
  | [] => fieldMask 0 8
  | f :: fs => fieldMask f.1 f.2 ||| maskOf fs

theorem and_two_pow_sub_one_shiftLeft (n lo width : Nat) :
    n &&& ((2 ^ width - 1) <<< lo) = (n / 2 ^ lo % 2 ^ width) <<< lo := by
  apply Nat.eq_of_testBit_eq
  intro i
  rw [Nat.testBit_and, Nat.testBit_shiftLeft, Nat.testBit_shiftLeft, Nat.testBit_mod_two_pow, Nat.testBit_div_two_pow,
    Nat.testBit_two_pow_sub_one]
  rcases Nat.lt_or_ge i lo with hbelow | habove
  · simp [Nat.not_le.mpr hbelow]
  · simp [habove, Bool.and_comm]

theorem toNat_fieldMask {lo width : Nat} (h : lo + width ≤ 32) : (fieldMask lo width).toNat = (2 ^ width - 1) <<< lo := by
  rw [fieldMask, BitVec.toNat_ofNat]
  apply Nat.mod_eq_of_lt
  calc (2 ^ width - 1) <<< lo = (2 ^ width - 1) * 2 ^ lo := Nat.shiftLeft_eq _ _
    _ < 2 ^ width * 2 ^ lo := Nat.mul_lt_mul_of_pos_right (Nat.sub_one_lt (Nat.two_pow_pos _).ne') (Nat.two_pow_pos _)
    _ = 2 ^ (lo + width) := by rw [Nat.add_comm, Nat.pow_add]
    _ ≤ 2 ^ 32 := Nat.pow_le_pow_right (by decide) h

theorem toNat_and_fieldMask {lo width : Nat} (h : lo + width ≤ 32) (cw : Word) :
    (cw &&& fieldMask lo width).toNat = field lo width cw <<< lo := by
  rw [BitVec.toNat_and, toNat_fieldMask h, and_two_pow_sub_one_shiftLeft, field]

theorem and_fieldMask_eq_zero_iff {lo width : Nat} (h : lo + width ≤ 32) (cw : Word) :
    cw &&& fieldMask lo width = 0 ↔ field lo width cw = 0 := by
  rw [← BitVec.toNat_inj, toNat_and_fieldMask h]
  exact Nat.shiftLeft_eq_zero_iff

theorem and_opcodeMask_eq_iff (cw p : Word) : cw &&& fieldMask 0 8 = p ↔ opcodeOf cw = p.toNat := by
  rw [← BitVec.toNat_inj, toNat_and_fieldMask (by decide), Nat.shiftLeft_zero, opcodeOf]

/-- The two parts of a mask are compared apart when the pattern is 0 in the first. -/
theorem and_or_eq_iff {p f m : Word} (h : p &&& f = 0) (cw : Word) :
    cw &&& (f ||| m) = p ↔ cw &&& f = 0 ∧ cw &&& m = p := by
  have hor : cw &&& (f ||| m) = (cw &&& f) ||| (cw &&& m) := BitVec.and_or_distrib_left
  constructor
  · intro e
    have hboth : (cw &&& f &&& f) ||| (cw &&& m &&& f) = 0 := by
      rw [← BitVec.and_or_distrib_right, ← hor, e, h]
    have hf : cw &&& f = 0 := by
      have hself : cw &&& f &&& f = 0 := (BitVec.or_eq_zero_iff.mp hboth).1
      rwa [BitVec.and_assoc, BitVec.and_self] at hself
    exact ⟨hf, by rw [← e, hor, hf]; exact BitVec.zero_or.symm⟩
  · rintro ⟨hf, hm⟩
    rw [hor, hf, hm]
    exact BitVec.zero_or

/-- A word that is the opcode `p` under a mask has `p` as its opcode, and 0 in the fields of the mask above it. -/
theorem and_maskOf_eq_iff {p : Word} (hp : p.toNat < 2 ^ 8) (cw : Word) (fs : List (Nat × Nat))
    (hfs : ∀ f ∈ fs, 8 ≤ f.1 ∧ f.1 + f.2 ≤ 32) :
    cw &&& maskOf fs = p ↔ opcodeOf cw = p.toNat ∧ ∀ f ∈ fs, field f.1 f.2 cw = 0 := by
  induction fs with
  | nil => simp [maskOf, and_opcodeMask_eq_iff]
  | cons f fs ih =>
    obtain ⟨⟨habove, hbound⟩, hfs⟩ := List.forall_mem_cons.mp hfs
    have hzero : p &&& fieldMask f.1 f.2 = 0 := by
      rw [and_fieldMask_eq_zero_iff hbound, field, Nat.div_eq_of_lt, Nat.zero_mod]
      exact hp.trans_le (Nat.pow_le_pow_right (by decide) habove)
    rw [maskOf, and_or_eq_iff hzero, and_fieldMask_eq_zero_iff hbound, ih hfs, List.forall_mem_cons]
    exact and_left_comm

/-! ### the row of a command -/

theorem ctorIdx_lt_opcodeRows (i : Instr) : i.ctorIdx < opcodeRows.length := by cases i <;> exact Nat.le_of_ble_eq_true rfl

/-- The row of a command: the rows of R97 stand in the order of the constructors. -/
def rowOf (i : Instr) : OpcodeRow := opcodeRows[i.ctorIdx]'(ctorIdx_lt_opcodeRows i)

theorem rowOf_mem (i : Instr) : rowOf i ∈ opcodeRows := List.getElem_mem _

theorem mnemonic_rowOf (i : Instr) : (rowOf i).mnemonic = mnemonicOf i := by cases i <;> rfl

theorem opcodeRows_eq_map_rowOf : opcodeRows =
    [.nop, .mov 0 0, .ldi 0 0, .seed 0, .next 0, .randbits 0 0, .sample 0 0 0, .montmul 0 0 0 0, .tomont 0 0 0,
      .frommont 0 0 0, .mulmod 0 0 0 0, .modexp 0 0 0 0, .gcd 0 0 0, .jacobi 0 0 0 false, .ptest 0 0].map rowOf := rfl

theorem exists_rowOf_eq {r : OpcodeRow} (h : r ∈ opcodeRows) : ∃ i, rowOf i = r := by
  rw [opcodeRows_eq_map_rowOf] at h
  obtain ⟨i, -, hi⟩ := List.mem_map.mp h
  exact ⟨i, hi⟩

/-- No two rows have one mnemonic. -/
theorem rowOf_eq_of_mnemonic {r : OpcodeRow} {i : Instr} (hr : r ∈ opcodeRows) (h : mnemonicOf i = r.mnemonic) :
    rowOf i = r :=
  List.inj_on_of_nodup_map (f := OpcodeRow.mnemonic) (by decide) (rowOf_mem i) hr ((mnemonic_rowOf i).trans h)

/-- The fields a command does not use (R97), each as its low bit and its width. -/
def mustBeZero : Instr → List (Nat × Nat)
  | .nop => [(8, 24)]
  | .mov _ _ => [(16, 4), (20, 4), (24, 8)]
  | .ldi _ _ => [(12, 4)]
  | .seed _ => [(8, 4), (12, 4)]
  | .next _ => [(12, 4), (16, 4), (20, 4), (24, 8)]
  | .randbits _ _ => [(12, 4)]
  | .sample _ _ _ => [(20, 4), (24, 8)]
  | .montmul _ _ _ _ => [(24, 8)]
  | .tomont _ _ _ => [(16, 4), (24, 8)]
  | .frommont _ _ _ => [(16, 4), (24, 8)]
  | .mulmod _ _ _ _ => [(24, 8)]
  | .modexp _ _ _ _ => [(24, 8)]
  | .gcd _ _ _ => [(20, 4), (24, 8)]
  | .jacobi _ _ _ _ => [(16, 4), (25, 7)]
  | .ptest _ _ => [(12, 4), (16, 4), (24, 8)]

/-- The mask column of R97 against its must-be-zero column. -/
theorem mask_rowOf (i : Instr) : (rowOf i).mask = maskOf (mustBeZero i) := by cases i <;> rfl

theorem mustBeZero_above_opcode (i : Instr) : ∀ f ∈ mustBeZero i, 8 ≤ f.1 ∧ f.1 + f.2 ≤ 32 := by
  cases i <;> simp [mustBeZero]

theorem pattern_rowOf_lt (i : Instr) : (rowOf i).pattern.toNat < 2 ^ 8 := by cases i <;> exact Nat.le_of_ble_eq_true rfl

/-- The match and mask of a row, read field by field. -/
theorem spells_rowOf_iff (cw : Word) (i : Instr) :
    (rowOf i).spells cw ↔ opcodeOf cw = (rowOf i).pattern.toNat ∧ ∀ f ∈ mustBeZero i, field f.1 f.2 cw = 0 := by
  rw [OpcodeRow.spells, mask_rowOf, and_maskOf_eq_iff (pattern_rowOf_lt i) cw _ (mustBeZero_above_opcode i)]

/-! ### the decoder, row by row -/

/-- A command with its operands replaced by the fields of `cw` (R91). -/
def refill (cw : Word) : Instr → Instr
  | .nop => .nop
  | .mov _ _ => .mov (rdOf cw) (rs1Of cw)
  | .ldi _ _ => .ldi (rdOf cw) (imm16Of cw)
  | .seed _ => .seed (imm16Of cw)
  | .next _ => .next (rdOf cw)
  | .randbits _ _ => .randbits (rdOf cw) (imm16Of cw)
  | .sample _ _ _ => .sample (rdOf cw) (rs1Of cw) (rs2Of cw)
  | .montmul _ _ _ _ => .montmul (rdOf cw) (rs1Of cw) (rs2Of cw) (rs3Of cw)
  | .tomont _ _ _ => .tomont (rdOf cw) (rs1Of cw) (rs3Of cw)
  | .frommont _ _ _ => .frommont (rdOf cw) (rs1Of cw) (rs3Of cw)
  | .mulmod _ _ _ _ => .mulmod (rdOf cw) (rs1Of cw) (rs2Of cw) (rs3Of cw)
  | .modexp _ _ _ _ => .modexp (rdOf cw) (rs1Of cw) (rs2Of cw) (rs3Of cw)
  | .gcd _ _ _ => .gcd (rdOf cw) (rs1Of cw) (rs2Of cw)
  | .jacobi _ _ _ _ => .jacobi (rdOf cw) (rs1Of cw) (rs3Of cw) (negOf cw)
  | .ptest _ _ => .ptest (rdOf cw) (rs3Of cw)

@[simp] theorem rowOf_refill (cw : Word) (i : Instr) : rowOf (refill cw i) = rowOf i := by cases i <;> rfl

@[simp] theorem mustBeZero_refill (cw : Word) (i : Instr) : mustBeZero (refill cw i) = mustBeZero i := by cases i <;> rfl

@[simp] theorem refill_refill (cw : Word) (i : Instr) : refill cw (refill cw i) = refill cw i := by cases i <;> rfl

theorem spelled_eq_ok_iff {cw : Word} {fs : List (Nat × Nat)} {i j : Instr} :
    spelled cw fs j = .ok i ↔ (∀ f ∈ fs, field f.1 f.2 cw = 0) ∧ j = i := by
  have hall : fs.all (fun f => field f.1 f.2 cw == 0) = true ↔ ∀ f ∈ fs, field f.1 f.2 cw = 0 := by
    simp only [List.all_eq_true, beq_iff_eq]
  rw [spelled, ← hall]
  split_ifs with h
  · exact ⟨fun e => ⟨h, Except.ok.inj e⟩, fun ⟨_, e⟩ => congrArg _ e⟩
  · exact ⟨fun e => (nomatch e), fun ⟨e, _⟩ => absurd e h⟩

/-- The branch of the decoder that an opcode of the table selects. -/
theorem decode_of_opcode {cw : Word} (i : Instr) (h : opcodeOf cw = (rowOf i).pattern.toNat) :
    decode cw = spelled cw (mustBeZero i) (refill cw i) := by
  unfold decode
  rw [h]
  cases i <;> rfl

theorem decode_unknownOpcode {cw : Word} (h : ∀ r ∈ opcodeRows, opcodeOf cw ≠ r.pattern.toNat) :
    decode cw = .error (.unknownOpcode (opcodeOf cw)) := by
  simp only [opcodeRows, List.forall_mem_cons, BitVec.reduceToNat] at h
  simp [decode, h]

theorem exists_opcode_of_decode {cw : Word} {i : Instr} (h : decode cw = .ok i) :
    ∃ j, opcodeOf cw = (rowOf j).pattern.toNat := by
  by_contra hnone
  have hunknown : ∀ r ∈ opcodeRows, opcodeOf cw ≠ r.pattern.toNat := by
    intro r hr hop
    obtain ⟨j, rfl⟩ := exists_rowOf_eq hr
    exact hnone ⟨j, hop⟩
  rw [decode_unknownOpcode hunknown] at h
  cases h

/-- A word decodes to a command when it spells the command's row and has the command's operands in its fields. -/
theorem decode_eq_ok_iff {cw : Word} {i : Instr} : decode cw = .ok i ↔ (rowOf i).spells cw ∧ refill cw i = i := by
  rw [spells_rowOf_iff]
  constructor
  · intro h
    obtain ⟨j, hop⟩ := exists_opcode_of_decode h
    rw [decode_of_opcode j hop, spelled_eq_ok_iff] at h
    obtain ⟨hzero, rfl⟩ := h
    exact ⟨by simpa only [rowOf_refill, mustBeZero_refill] using And.intro hop hzero, refill_refill cw j⟩
  · rintro ⟨⟨hop, hzero⟩, hfill⟩
    rw [decode_of_opcode i hop, spelled_eq_ok_iff]
    exact ⟨hzero, hfill⟩

/-- Settles O3: a row is the row of some command, which the word's fields complete; the mnemonic tells the row. -/
theorem decoderAgreesWithTheMatchMaskTable : Obligations.DecoderAgreesWithTheMatchMaskTable := by
  intro cw r hr
  constructor
  · intro hspells
    obtain ⟨j, rfl⟩ := exists_rowOf_eq hr
    have hdecode : decode cw = .ok (refill cw j) := decode_eq_ok_iff.mpr (by simpa using hspells)
    exact ⟨refill cw j, hdecode, by rw [← mnemonic_rowOf, rowOf_refill]⟩
  · rintro ⟨i, hdecode, hmnemonic⟩
    exact rowOf_eq_of_mnemonic hr hmnemonic ▸ (decode_eq_ok_iff.mp hdecode).1

/-! ### the fields and the word -/

theorem fieldsMatch_refill (cw : Word) (i : Instr) : Machine.FieldsMatch cw (refill cw i) := by
  have hreg (lo : Nat) : (cw.extractLsb' lo 4).toNat = (regField lo cw).val := Machine.toNat_extractLsb'_div_mod cw lo 4
  have himm : (cw.extractLsb' 16 16).toNat = imm16Of cw := Machine.toNat_extractLsb'_div_mod cw 16 16
  have hneg : cw[24] = negOf cw := Nat.testBit_eq_decide_div_mod_eq
  cases i <;> simp [refill, Machine.FieldsMatch, rdOf, rs1Of, rs2Of, rs3Of, hreg, himm, hneg]

/-- Settles O4: the operands of a decoded command are fields of the word. -/
theorem decodedCommandHasTheWordsFields : Obligations.DecodedCommandHasTheWordsFields := fun cw i h =>
  (decode_eq_ok_iff.mp h).2 ▸ fieldsMatch_refill cw i

theorem imm16Of_lt (cw : Word) : Imm16Ok (imm16Of cw) := Nat.mod_lt _ (by decide)

theorem wellFormed_refill (cw : Word) (i : Instr) : WellFormed (refill cw i) := by
  cases i <;> simp [refill, WellFormed, wellFormed, imm16Of_lt]

/-- A word is the sum of the fields of format R. -/
theorem packR_eq_of_fields {cw : Word} {op fn : Nat} {rd rs1 rs2 rs3 : Reg} (hop : opcodeOf cw = op)
    (hrd : field 8 4 cw = rd.val) (hrs1 : field 12 4 cw = rs1.val) (hrs2 : field 16 4 cw = rs2.val)
    (hrs3 : field 20 4 cw = rs3.val) (hfn : field 24 8 cw = fn) : packR op rd rs1 rs2 rs3 fn = cw := by
  have hlt := cw.isLt
  unfold opcodeOf field at *
  apply BitVec.eq_of_toNat_eq
  rw [packR_toNat (by omega) (by omega)]
  omega

/-- A word whose bits 15:12 are zero is the sum of the fields of format I. -/
theorem packI_eq_of_fields {cw : Word} {op imm16 : Nat} {rd : Reg} (hop : opcodeOf cw = op) (hrd : field 8 4 cw = rd.val)
    (hzero : field 12 4 cw = 0) (himm : imm16Of cw = imm16) : packI op rd imm16 = cw := by
  have hlt := cw.isLt
  unfold opcodeOf imm16Of field at *
  apply BitVec.eq_of_toNat_eq
  rw [packI_toNat (by omega) (by omega)]
  omega

theorem packZ_eq_of_fields {cw : Word} {op : Nat} (hop : opcodeOf cw = op) (hzero : field 8 24 cw = 0) : packZ op = cw := by
  have hlt := cw.isLt
  unfold opcodeOf field at *
  apply BitVec.eq_of_toNat_eq
  rw [packZ, BitVec.toNat_ofNat]
  omega

/-- With `fn[7:1]` zero the flag byte is the flag. -/
theorem field_fn_eq_neg {cw : Word} (h : field 25 7 cw = 0) : field 24 8 cw = (negOf cw).toNat := by
  have hsplit : field 24 8 cw = field 24 1 cw + 2 * field 25 7 cw := by unfold field; omega
  have hbit : field 24 1 cw = 0 ∨ field 24 1 cw = 1 := Nat.mod_two_eq_zero_or_one _
  rw [hsplit, h, negOf]
  rcases hbit with hbit | hbit <;> rw [hbit] <;> rfl

/-- The encoder puts the fields of the word together again. `NOP`, the three commands of format I, and `JACOBI`, whose flag lies
in `fn`, have cases of their own; the rest is format R with its unused fields 0. -/
theorem encode_refill {cw : Word} {i : Instr} (h : (rowOf i).spells cw) : encode (refill cw i) = cw := by
  obtain ⟨hop, hzero⟩ := (spells_rowOf_iff cw i).mp h
  cases i <;> simp only [mustBeZero, List.forall_mem_cons, List.not_mem_nil, false_imp_iff, implies_true, and_true]
    at hzero
  case nop => exact packZ_eq_of_fields hop hzero
  case ldi => exact packI_eq_of_fields hop rfl hzero rfl
  case randbits => exact packI_eq_of_fields hop rfl hzero rfl
  case seed =>
    obtain ⟨hrd, hrs1⟩ := hzero
    exact packI_eq_of_fields hop hrd hrs1 rfl
  case jacobi =>
    obtain ⟨hrs2, hflags⟩ := hzero
    exact packR_eq_of_fields hop rfl rfl hrs2 rfl (field_fn_eq_neg hflags)
  all_goals apply packR_eq_of_fields hop <;> simp [hzero, rdOf, rs1Of, rs2Of, rs3Of, regField]

/-- Settles O2: the command has the word's fields as its operands, and the word is 0 in the others. -/
theorem encodeOfDecodeIsTheWord : Obligations.EncodeOfDecodeIsTheWord := by
  intro cw i h
  obtain ⟨hspells, hfill⟩ := decode_eq_ok_iff.mp h
  exact hfill ▸ ⟨wellFormed_refill cw i, encode_refill hspells⟩

end Sys2Proof
end

section
/-! An illegal word (30_encoding.md R98): accepted as any other, and the fault `Illegal` at its completion. -/

namespace Sys2Proof.Machine

theorem exists_decode_error {cw : Word} (h : ∀ r ∈ opcodeRows, ¬ r.spells cw) : ∃ e, decode cw = .error e := by
  rcases hdecode : decode cw with e | i
  · exact ⟨e, rfl⟩
  · exact absurd (decode_eq_ok_iff.mp hdecode).1 (h _ (rowOf_mem i))

/-- Settles O6: the acceptance does not look at the word; at the completion the latched word has no command. -/
theorem illegalWordIsAcceptedAndFaults : Obligations.IllegalWordIsAcceptedAndFaults := by
  intro s
  refine ⟨fun addr cw _ hcmd hidle herr => (busWrite_cmd cw hcmd).trans (writeCmd_accepted cw hidle herr),
    fun hs hillegal => ?_⟩
  obtain ⟨e, hdecode⟩ := exists_decode_error hillegal
  rw [← atCompletion_cmdreg hs] at hdecode ⊢
  rw [step_of_completes hs, completeCommand_error hdecode]
  rfl

end Sys2Proof.Machine
end

section
/-! The host loads an operand register (30_encoding.md R102, `LOAD`): one edge a word, each replacing its word of the register. -/

namespace Sys2Proof.Machine

variable {s : State}

/-- The write of word `i` of `value` to word `i` of `x[r]`. -/
def loadEdge (r : Reg) (value i : Nat) : Edge := hostWrite (0x1000 + 0x100 * r.val + 4 * i) (wordOf value i)

/-- `s` with `v` in `x[r]`. -/
def withReg (r : Reg) (v : Nat) (s : State) : State := { s with x := s.x.set r.val v }

@[simp] theorem readReg_withReg_same (r : Reg) (v : Nat) (s : State) : readReg (withReg r v s) r = v := by
  simp [readReg, withReg]

@[simp] theorem withReg_withReg (r : Reg) (v w : Nat) (s : State) : withReg r w (withReg r v s) = withReg r w s := by
  simp [withReg]

@[simp] theorem withReg_readReg (r : Reg) (s : State) : withReg r (readReg s r) s = s := by
  simp [readReg, withReg]

/-- `v` with the words of `value` at the places in a list. -/
def putWords (value : Nat) (places : List Nat) (v : Nat) : Nat :=
  places.foldl (fun v i => putWord v i (wordOf value i)) v

theorem putWords_cons (value i : Nat) (places : List Nat) (v : Nat) :
    putWords value (i :: places) v = putWords value places (putWord v i (wordOf value i)) := rfl

theorem putWords_append_singleton (value i : Nat) (places : List Nat) (v : Nat) :
    putWords value (places ++ [i]) v = putWord (putWords value places v) i (wordOf value i) := List.foldl_concat ..

/-- The first `n` words of `value`, and above them the other words of `v`. -/
theorem putWords_range (value v n : Nat) :
    putWords value (List.range n) v = v / 2 ^ (32 * n) * 2 ^ (32 * n) + value % 2 ^ (32 * n) := by
  induction n with
  | zero => simp [putWords, Nat.mod_one]
  | succ n ih =>
    have hpow : 2 ^ (32 * (n + 1)) = 2 ^ (32 * n) * 2 ^ 32 := by rw [← Nat.pow_add, Nat.mul_succ]
    have hlow : value % 2 ^ (32 * n) < 2 ^ (32 * n) := Nat.mod_lt _ (Nat.two_pow_pos _)
    have hdiv : putWords value (List.range n) v / 2 ^ (32 * n) = v / 2 ^ (32 * n) := by
      rw [ih, Nat.mul_comm, Nat.mul_add_div (Nat.two_pow_pos _), Nat.div_eq_of_lt hlow, Nat.add_zero]
    have hmod : putWords value (List.range n) v % 2 ^ (32 * n) = value % 2 ^ (32 * n) := by
      rw [ih, Nat.mul_add_mod_self_right, Nat.mod_mod]
    rw [List.range_succ, putWords_append_singleton, putWord, wordOf_toNat, hmod, hpow, ← Nat.div_div_eq_div_mul, hdiv,
      Nat.div_div_eq_div_mul, Nat.mod_mul, Nat.add_assoc, Nat.add_comm (value % _), Nat.mul_comm (value / _ % _)]

theorem target_loadEdge {cfg : Config} (hcfg : cfg.legal) (r : Reg) {i : Nat} (hi : i < cfg.L) :
    target cfg (BitVec.ofNat 11 ((0x1000 + 0x100 * r.val + 4 * i) / 4)) = .xword r i := by
  obtain ⟨⟨-, hL⟩, -⟩ := hcfg
  refine (target_xword_iff hL).mpr ⟨?_, hi⟩
  rw [BitVec.toNat_ofNat]
  omega

/-- An idle engine takes one word of `LOAD`. -/
theorem step_loadEdge (hcfg : s.cfg.legal) (hidle : s.status.busy = false) (r : Reg) (value : Nat) {i : Nat} (hi : i < s.cfg.L)
    (rest : List Edge) : step (withSched (loadEdge r value i :: rest) s) =
      .next (withSched rest (withReg r (putWord (readReg s r) i (wordOf value i)) s)) := by
  have hnot : ¬ Completes (withSched (loadEdge r value i :: rest) s) := fun h => Bool.noConfusion h.finish
  rw [step_of_not_completes rfl hnot, atCompletion_of_write rfl, popEdge_withSched,
    busWrite_xword (s := withSched rest s) _ (target_loadEdge hcfg r hi), writeUnlessBusy_idle (s := withSched rest s) hidle]
  rfl

/-- An idle engine takes the words of `value` at any places of the register, in any order. -/
theorem run_loadEdges (r : Reg) (value : Nat) (rest : List Edge) (places : List Nat) (hcfg : s.cfg.legal)
    (hidle : s.status.busy = false) (hplaces : ∀ i ∈ places, i < s.cfg.L) :
    Host.Core.run Sys2Proof.core places.length (withSched (places.map (loadEdge r value) ++ rest) s) =
      .next (withSched rest (withReg r (putWords value places (readReg s r)) s)) := by
  induction places generalizing s with
  | nil => exact congrArg (Host.Outcome.next <| withSched rest ·) (withReg_readReg r s).symm
  | cons i places ih =>
    obtain ⟨hi, hplaces⟩ := List.forall_mem_cons.mp hplaces
    have hrest := ih (s := withReg r (putWord (readReg s r) i (wordOf value i)) s) hcfg hidle hplaces
    rw [readReg_withReg_same, withReg_withReg, ← putWords_cons] at hrest
    exact (run_of_step (step_loadEdge hcfg hidle r value hi _) places.length).trans hrest

/-- Settles O49: the words of a value below `2^XLEN`, least significant first, are the value. -/
theorem hostLoadWritesTheRegister : Obligations.HostLoadWritesTheRegister := by
  intro s r value rest hs hidle hvalue
  have hrun := run_loadEdges r value rest (List.range s.cfg.L) hs.cfg hidle fun i hi => List.mem_range.mp hi
  rw [List.length_range, putWords_range, Nat.div_eq_of_lt (hs.regs r), Nat.mod_eq_of_lt hvalue, Nat.zero_mul, Nat.zero_add]
    at hrun
  exact hrun

end Sys2Proof.Machine
end

section
/-! A guarded completion, by what its check answers (60_exceptions.md R236, R237). -/

namespace Sys2Proof.Machine

variable {s s' : State} {check : Option FaultCode}

/-- The check passes: the outcome is completed. -/
theorem finish_guardThen_passed (h : check = none) : finish s (guardThen check s (.ok s')) = .next (completeOk s') := by
  rw [h, guardThen_none, finish_ok]

/-- The check fails: the fault is recorded, and the rest of the command has no say. -/
theorem finish_guardThen_failed {c : FaultCode} (h : check = some c) (k : Result) :
    finish s (guardThen check s k) = .next (s.withFault c.code) := by
  rw [h, guardThen_some, finish_fault]
  rfl

/-- A register write of a value below `2^XLEN`, completed (10_state.md R22). -/
theorem completeOk_writeReg (s : State) {v : Nat} (h : v < s.cfg.radix) (rd : Reg) :
    completeOk (writeReg rd v s) = s.withResult rd v := by
  rw [writeReg_of_lt s h]
  rfl

theorem seedLenCheck_zero (s : State) : seedLenCheck s 0 = some .seedEmpty := if_pos rfl

theorem seedLenCheck_of_lt {len : Nat} (h : s.cfg.seedMax < len) : seedLenCheck s len = some .seedLen := by
  rw [seedLenCheck, if_neg (Nat.ne_zero_of_lt h), if_pos h]

/-- Settles O12: the check of the length decides between the seeding and the two refusals. -/
theorem seedCommandResults : Obligations.SeedCommandResults := by
  intro s len
  refine ⟨fun hpos hmax => finish_guardThen_passed (seedLenCheck_none.mpr ⟨hpos, hmax⟩), ?_, fun hlong => ?_⟩
  · rintro rfl
    rw [exec, execSeed, finish_guardThen_failed (seedLenCheck_zero s)]
    rfl
  · rw [exec, execSeed, finish_guardThen_failed (seedLenCheck_of_lt hlong)]
    rfl

/-- Settles O13: a seeded engine passes the check, and a word and a draw of at most `XLEN` bits fit in the register. -/
theorem nextAndRandbitsResults : Obligations.NextAndRandbitsResults := by
  intro s hs hseeded
  refine ⟨fun rd => ?_, fun rd k hk => ?_⟩
  · have hfits : (nextU32 s.cfg.prngAlg s.stream).1.toNat < s.cfg.radix := (BitVec.isLt _).trans_le (word_lt_radix hs.cfg)
    have hwrite := completeOk_writeReg (setStream (advance s.cfg.prngAlg 1 s.stream) s) hfits rd
    exact (finish_guardThen_passed (unseededCheck_none.mpr hseeded)).trans (congrArg _ hwrite)
  · have hfits : (drawBits s.cfg.prngAlg k s.stream).1 < s.cfg.radix :=
      (drawBits_lt _ k _).trans_le (Nat.pow_le_pow_right Nat.two_pos hk)
    have hwrite := completeOk_writeReg (setStream (drawBits s.cfg.prngAlg k s.stream).2 s) hfits rd
    rw [← drawBits_stream]
    exact (finish_guardThen_passed (randbitsCheck_none.mpr ⟨hseeded, hk⟩)).trans (congrArg _ hwrite)

end Sys2Proof.Machine
end

section
/-! `next_u32()` (40_prng.md R126) and the words of a draw (R128). -/

namespace Sys2Proof.Machine

theorem nextWord_of_lt {g : Prng} (h : g.mti.val < 624) : nextWord g = takeWord g.mt ⟨g.mti.val, h⟩ := dif_pos h

theorem nextWord_of_used {g : Prng} (h : g.mti.val = 624) : nextWord g = takeWord (twist g.mt) 0 :=
  dif_neg (Nat.not_lt_of_ge h.ge)

/-- Settles O16: the index decides whether the words are twisted first; the count and the tempering are the definitions'. -/
theorem nextWordTakesTheWordAtMti : Obligations.NextWordTakesTheWordAtMti := by
  intro t
  refine ⟨fun h => ?_, fun h => ?_, rfl, ?_⟩
  · simp only [nextU32, generatorNext, nextWord_of_lt h]
    exact ⟨rfl, rfl, rfl⟩
  · simp only [nextU32, generatorNext, nextWord_of_used h]
    exact ⟨rfl, rfl, rfl⟩
  · rintro y _ _ _ rfl rfl rfl
    rfl

/-- How far the last of `n` words is shifted right: to its top `k mod 32` bits. -/
def drawShift (k n i : Nat) : Nat := if i + 1 = n ∧ k % 32 ≠ 0 then 32 - k % 32 else 0

/-- Word `i` of a draw of `n` words. -/
def drawWord (alg : PrngAlg) (k n i : Nat) (t : Stream) : Nat :=
  (nextU32 alg (advance alg i t)).1.toNat / 2 ^ drawShift k n i

theorem drawWord_succ (alg : PrngAlg) (k n i : Nat) (t : Stream) :
    drawWord alg k (n + 1) (i + 1) t = drawWord alg k n i (nextU32 alg t).2 := by
  simp only [drawWord, drawShift, advance_succ, Nat.add_right_cancel_iff]

/-- One pass of the loop adds the shifted word at its place. -/
theorem drawWords_succ (alg : PrngAlg) (k n i v : Nat) (t : Stream) :
    drawWords alg k (n + 1) i v t =
      drawWords alg k n (i + 1) (v + drawWord alg k (n + 1) 0 t * 2 ^ (32 * i)) (nextU32 alg t).2 := by
  have hlast : (n = 0 ∧ k % 32 ≠ 0) ↔ (0 + 1 = n + 1 ∧ k % 32 ≠ 0) := by omega
  simp only [drawWords, drawWord, drawShift, advance_zero, Nat.shiftRight_eq_div_pow, hlast]
  split <;> simp

/-- The loop adds the words still to draw to the value drawn so far, word `j` of them at place `i + j`. -/
theorem drawWords_value (alg : PrngAlg) (k n i v : Nat) (t : Stream) :
    (drawWords alg k n i v t).1 = v + ∑ j ∈ Finset.range n, drawWord alg k n j t * 2 ^ (32 * (i + j)) := by
  induction n generalizing i v t with
  | zero => rfl
  | succ n ih =>
    rw [drawWords_succ, ih, Finset.sum_range_succ', Nat.add_comm (∑ _ ∈ _, _), Nat.add_assoc]
    simp only [Nat.add_zero, drawWord_succ, Nat.add_right_comm i 1, Nat.add_assoc]

theorem drawBits_eq_drawWords (alg : PrngAlg) (k : Nat) (t : Stream) : drawBits alg k t = drawWords alg k (drawCost k) 0 0 t := by
  unfold drawBits
  split
  · next hzero => rw [hzero]; rfl
  · rfl

/-- The draw is the sum of its words, the first the least significant (40_prng.md R128). -/
theorem drawBits_value (alg : PrngAlg) (k : Nat) (t : Stream) :
    (drawBits alg k t).1 = ∑ i ∈ Finset.range (drawCost k), drawWord alg k (drawCost k) i t * 2 ^ (32 * i) := by
  simp only [drawBits_eq_drawWords, drawWords_value, Nat.zero_add]

/-- Settles O14: the value by the loop's sum, the stream, the bound and the empty draw by the generator's laws. -/
theorem drawbitsAssemblesWords : Obligations.DrawbitsAssemblesWords := fun alg k t =>
  ⟨Prod.ext (drawBits_value alg k t) (drawBits_stream alg k t), drawBits_lt alg k t, drawBits_zero alg t⟩

end Sys2Proof.Machine
end

section
/-! The words of the generator by their recurrences (40_prng.md R123 to R125). -/

namespace Sys2Proof.Machine

/-! ### a sweep over the words, upward, one word a pass -/

variable {α : Type} {n N : Nat}

/-- The words after the first `m` of `n` passes; pass `k` writes word `k + offset`, its value made from the words as they then are. -/
def sweep (offset : Nat) (hN : n + offset ≤ N) (value : Fin n → Vector α N → α) (init : Vector α N) (m : Nat) (hm : m ≤ n) :
    Vector α N :=
  Nat.fold m (fun k hk words => words.set (k + offset) (value ⟨k, hk.trans_le hm⟩ words) (by omega)) init

section
variable {offset : Nat} {hN : n + offset ≤ N} {value : Fin n → Vector α N → α} {init : Vector α N}

theorem sweep_succ {m : Nat} (hm : m < n) :
    sweep offset hN value init (m + 1) hm =
      (sweep offset hN value init m hm.le).set (m + offset) (value ⟨m, hm⟩ (sweep offset hN value init m hm.le)) (by omega) :=
  Nat.fold_succ ..

/-- Between two passes of the sweep the words that no pass between them writes stay as they are. -/
theorem getElem_sweep_of_unwritten {m p i : Nat} (hmp : m ≤ p) (hp : p ≤ n) (hi : i < N) (h : i < m + offset ∨ p + offset ≤ i) :
    (sweep offset hN value init p hp)[i] = (sweep offset hN value init m (hmp.trans hp))[i] := by
  induction p, hmp using Nat.le_induction with
  | base => rfl
  | succ p hmp ih => rw [sweep_succ hp, Vector.getElem_set_ne _ _ (by omega), ih (by omega) (by omega)]

/-- The words that no pass has reached are still those at the start. -/
theorem getElem_sweep_unreached {m i : Nat} (hm : m ≤ n) (hi : i < N) (h : i < offset ∨ m + offset ≤ i) :
    (sweep offset hN value init m hm)[i] = init[i] :=
  getElem_sweep_of_unwritten (Nat.zero_le m) hm hi (by omega)

/-- A word stays as its pass has written it. -/
theorem getElem_sweep_written {k : Nat} (hk : k < n) :
    (sweep offset hN value init n le_rfl)[k + offset] = value ⟨k, hk⟩ (sweep offset hN value init k hk.le) := by
  rw [getElem_sweep_of_unwritten (Nat.succ_le_of_lt hk) le_rfl _ (by omega), sweep_succ hk, Vector.getElem_set_self]

end

/-! ### init_genrand (R123) -/

/-- Word `k + 1` of `init_genrand`, from word `k`. -/
def genrandValue (k : Fin 623) (mt : Vector Word 624) : Word :=
  1812433253 * (mt[k.val] ^^^ (mt[k.val] >>> 30)) + BitVec.ofNat 32 (k.val + 1)

theorem initGenrand_eq_sweep (w : Word) :
    initGenrand w = sweep 1 le_rfl genrandValue ((Vector.replicate 624 0).set 0 w) 623 le_rfl := rfl

theorem getElem_initGenrand_zero (w : Word) : (initGenrand w)[0] = w := by
  rw [initGenrand_eq_sweep, getElem_sweep_unreached le_rfl (by decide) (Or.inl Nat.one_pos), Vector.getElem_set_self]

theorem getElem_initGenrand_succ (w : Word) {i : Nat} (h : i + 1 < 624) :
    (initGenrand w)[i + 1] = 1812433253 * ((initGenrand w)[i] ^^^ ((initGenrand w)[i] >>> 30)) + BitVec.ofNat 32 (i + 1) := by
  rw [initGenrand_eq_sweep, getElem_sweep_written (by omega), genrandValue,
    getElem_sweep_of_unwritten (m := i) (by omega) le_rfl (by omega) (Or.inl (Nat.lt_succ_self i))]

/-! ### twist (R125) -/

/-- Word `k` of `twist()`, from the words as they are before pass `k`. -/
def twistValue (k : Fin 624) (mt : Vector Word 624) : Word :=
  let y := (mt[k.val] &&& 0x80000000) ||| (mt[(k.val + 1) % 624]'(Nat.mod_lt _ (by decide)) &&& 0x7FFFFFFF)
  mt[(k.val + 397) % 624]'(Nat.mod_lt _ (by decide)) ^^^ (y >>> 1) ^^^ (if y.getLsbD 0 then 0x9908B0DF else 0)

theorem twist_eq_sweep (mt : Vector Word 624) : twist mt = sweep 0 le_rfl twistValue mt 624 le_rfl := rfl

/-- Before pass `k` a word below `k` is that of the end, and any other is that of the start. -/
theorem getElem_sweep_twist (mt : Vector Word 624) {k i : Nat} (hk : k ≤ 624) (hi : i < 624) :
    (sweep 0 le_rfl twistValue mt k hk)[i] = if i < k then (twist mt)[i] else mt[i] := by
  split
  · next h =>
    rw [twist_eq_sweep]
    exact (getElem_sweep_of_unwritten hk le_rfl hi (Or.inl h)).symm
  · next h => exact getElem_sweep_unreached hk hi (Or.inr (Nat.le_of_not_lt h))

theorem getElem_twist (mt : Vector Word 624) {k : Nat} (hk : k < 624) :
    (twist mt)[k] = twistValue ⟨k, hk⟩ (sweep 0 le_rfl twistValue mt k hk.le) := by
  rw [twist_eq_sweep]
  exact getElem_sweep_written hk

/-- The word read `d` places on from word `k`: an old word, or beyond the last one a new word. -/
theorem getElem_sweep_twist_ahead (mt : Vector Word 624) {k d j : Nat} (hk : k < 624) (hd : d < 624) (hj : j < 624)
    (hwrap : 624 ≤ k + d → k + d = 624 + j) :
    (sweep 0 le_rfl twistValue mt k hk.le)[(k + d) % 624]'(Nat.mod_lt _ (by decide)) =
      if h : k + d < 624 then mt[k + d] else (twist mt)[j] := by
  rw [getElem_sweep_twist]
  by_cases h : k + d < 624
  · have hindex : (k + d) % 624 = k + d := Nat.mod_eq_of_lt h
    rw [dif_pos h, if_neg (by omega)]
    simp only [hindex]
  · have hindex : (k + d) % 624 = j := by omega
    rw [dif_neg h, if_pos (by omega)]
    simp only [hindex]

theorem twist_recurrence (mt : Vector Word 624) {k : Nat} (hk : k < 624) :
    let above : Word := if h : k + 1 < 624 then mt[k + 1] else (twist mt)[0]
    let far : Word := if h : k + 397 < 624 then mt[k + 397] else (twist mt)[k - 227]'(by omega)
    let y : Word := (mt[k] &&& 0x80000000) ||| (above &&& 0x7FFFFFFF)
    (twist mt)[k] = far ^^^ (y >>> 1) ^^^ (if y.getLsbD 0 then 0x9908B0DF else 0) := by
  intro above far y
  have hword : (sweep 0 le_rfl twistValue mt k hk.le)[k] = mt[k] := by
    rw [getElem_sweep_twist mt hk.le hk, if_neg (Nat.lt_irrefl k)]
  rw [getElem_twist mt hk, twistValue, hword,
    getElem_sweep_twist_ahead mt (d := 1) (j := 0) hk (by decide) (by decide) (by omega),
    getElem_sweep_twist_ahead mt (d := 397) (j := k - 227) hk (by decide) (by omega) (by omega)]

/-! ### init_by_array (R124) -/

/-- The step of the index into the key, by the number of the pass. -/
theorem keyIndex_succ {len : Nat} (hlen : 0 < len) (p : Nat) :
    (if p % len + 1 ≥ len then 0 else p % len + 1) = (p + 1) % len := by
  rw [← Nat.mod_add_mod p len 1]
  split
  · next hge =>
    have hend : p % len + 1 = len := le_antisymm (Nat.mod_lt p hlen) hge
    rw [hend, Nat.mod_self]
  · next hlt => exact (Nat.mod_eq_of_lt (Nat.lt_of_not_ge hlt)).symm

/-- The word that pass `p` takes, mixed with the word before it times the loop's factor. -/
def mixedWord (factor : Word) (p : Nat) (mt : Vector Word 624) : Word :=
  let before : Word := mt[p % 623]'(by omega)
  mt[p % 623 + 1]'(by omega) ^^^ ((before ^^^ (before >>> 30)) * factor)

/-- What pass `p` of the first loop writes. -/
def keyPassValue (key : List Word) (p : Nat) (mt : Vector Word 624) : Word :=
  mixedWord 1664525 p mt + key.getD (p % key.length) 0 + BitVec.ofNat 32 (p % key.length)

/-- What pass `p` writes when it is of the second loop. -/
def indexPassValue (p : Nat) (mt : Vector Word 624) : Word :=
  mixedWord 1566083941 p mt - BitVec.ofNat 32 (p % 623 + 1)

/-- The words after pass `p` has written `v`: word 0 takes it too when the pass writes the last word. -/
def passWrite (p : Nat) (v : Word) (mt : Vector Word 624) : Vector Word 624 :=
  if p % 623 + 1 = 623 then (mt.set (p % 623 + 1) v (by omega)).set 0 v else mt.set (p % 623 + 1) v (by omega)

theorem mixedWord_of_index {m : MixState} {p : Nat} (hi : m.i.val = p % 623 + 1) (factor : Word) :
    m.mt[m.i.val] ^^^ (mixPrevious m.mt m.i * factor) = mixedWord factor p m.mt := by
  rw [mixPrevious_pass m.mt m.i p hi, mixedWord]
  simp only [hi]

theorem mixKeyStep_pass {key : List Word} {m : MixState} {p : Nat} (hkey : 0 < key.length) (hi : m.i.val = p % 623 + 1)
    (hj : m.j = p % key.length) :
    (mixKeyStep key m).mt = passWrite p (keyPassValue key p m.mt) m.mt ∧
      (mixKeyStep key m).i.val = (p + 1) % 623 + 1 ∧ (mixKeyStep key m).j = (p + 1) % key.length := by
  obtain ⟨hwords, hindex⟩ := mixAdvance_pass m.mt m.i (keyPassValue key p m.mt) p hi
  rw [mixKeyStep, mixedWord_of_index hi, hj]
  exact ⟨hwords, hindex, keyIndex_succ hkey p⟩

theorem mixIndexStep_pass {m : MixState} {p : Nat} (hi : m.i.val = p % 623 + 1) :
    (mixIndexStep m).mt = passWrite p (indexPassValue p m.mt) m.mt ∧
      (mixIndexStep m).i.val = (p + 1) % 623 + 1 := by
  have hsub : BitVec.ofNat 32 m.i.val = BitVec.ofNat 32 (p % 623 + 1) := congrArg _ hi
  rw [mixIndexStep, mixedWord_of_index hi, hsub]
  exact mixAdvance_pass m.mt m.i (indexPassValue p m.mt) p hi

/-- The working state of `init_by_array` after `p` passes, the first `passes` of them in the first loop. -/
def mixState (key : List Word) (passes p : Nat) : MixState :=
  mixIndexStep^[p - passes] ((mixKeyStep key)^[min p passes] { mt := initGenrand 19650218, i := 1, j := 0 })

theorem mixState_zero (key : List Word) (passes : Nat) :
    mixState key passes 0 = { mt := initGenrand 19650218, i := 1, j := 0 } := by
  rw [mixState, Nat.zero_sub, Nat.zero_min, Function.iterate_zero_apply, Function.iterate_zero_apply]

theorem mixState_succ_of_lt (key : List Word) {passes p : Nat} (h : p < passes) :
    mixState key passes (p + 1) = mixKeyStep key (mixState key passes p) := by
  simp only [mixState, Nat.sub_eq_zero_of_le h, Nat.sub_eq_zero_of_le h.le, Nat.min_eq_left h, Nat.min_eq_left h.le,
    Function.iterate_zero_apply]
  exact Function.iterate_succ_apply' ..

theorem mixState_succ_of_le (key : List Word) {passes p : Nat} (h : passes ≤ p) :
    mixState key passes (p + 1) = mixIndexStep (mixState key passes p) := by
  simp only [mixState, Nat.sub_add_comm h, Nat.min_eq_right h, Nat.min_eq_right (h.trans p.le_succ)]
  exact Function.iterate_succ_apply' ..

theorem initByArray_mt (key : List Word) :
    (initByArray key).mt = (mixState key (max 624 key.length) (max 624 key.length + 623)).mt.set 0 0x80000000 := by
  rw [initByArray, mixState, Nat.add_sub_cancel_left, Nat.min_eq_right (Nat.le_add_right _ _)]

theorem getElem_initByArray_mt_zero (key : List Word) : (initByArray key).mt[0] = 0x80000000 := by
  rw [initByArray_mt, Vector.getElem_set_self]

theorem initByArray_mti (key : List Word) : (initByArray key).mti = 624 := by rw [initByArray]

/-- The indices before pass `p`: `i`, and in the first loop `j`. -/
theorem mixState_indices {key : List Word} (hkey : 0 < key.length) (passes p : Nat) :
    (mixState key passes p).i.val = p % 623 + 1 ∧ (p ≤ passes → (mixState key passes p).j = p % key.length) := by
  induction p with
  | zero =>
    rw [mixState_zero]
    exact ⟨rfl, fun _ => (Nat.zero_mod _).symm⟩
  | succ p ih =>
    obtain ⟨hi, hj⟩ := ih
    rcases Nat.lt_or_ge p passes with h | h
    · rw [mixState_succ_of_lt key h]
      obtain ⟨-, hi', hj'⟩ := mixKeyStep_pass hkey hi (hj h.le)
      exact ⟨hi', fun _ => hj'⟩
    · rw [mixState_succ_of_le key h]
      exact ⟨(mixIndexStep_pass hi).2, fun h' => absurd h' (Nat.not_le_of_lt (Nat.lt_succ_of_le h))⟩

/-- Each pass writes the word of its loop. -/
theorem mixState_succ_mt {key : List Word} (hkey : 0 < key.length) (passes p : Nat) :
    (mixState key passes (p + 1)).mt =
      passWrite p (if p < passes then keyPassValue key p (mixState key passes p).mt
        else indexPassValue p (mixState key passes p).mt) (mixState key passes p).mt := by
  obtain ⟨hi, hj⟩ := mixState_indices hkey passes p
  rcases Nat.lt_or_ge p passes with h | h
  · rw [mixState_succ_of_lt key h, if_pos h]
    exact (mixKeyStep_pass hkey hi (hj h.le)).1
  · rw [mixState_succ_of_le key h, if_neg (Nat.not_lt_of_ge h)]
    exact (mixIndexStep_pass hi).1

/-- Settles O15: `init_genrand` and `twist` as sweeps, `init_by_array` by the working states of its passes. -/
theorem generatorRecurrences : Obligations.GeneratorRecurrences := by
  refine ⟨fun w => ⟨getElem_initGenrand_zero w, fun i h => getElem_initGenrand_succ w h⟩,
    fun key => ⟨getElem_initByArray_mt_zero key, initByArray_mti key⟩, fun key hkey => ?_, fun mt k hk => twist_recurrence mt hk⟩
  exact ⟨fun p => (mixState key (max 624 key.length) p).mt, by simp only [mixState_zero],
    fun p _ => mixState_succ_mt (List.length_pos_of_ne_nil hkey) _ p, initByArray_mt key⟩

end Sys2Proof.Machine
end

section
/-! The ranged sampler (41_sampler.md R141 to R145): which of the draws decides, and `SAMPLE` by it (R147). -/

namespace Sys2Proof.Machine

/-- The first `n` draws of `k` bits are all rejected, the width being `w`. -/
def DrawsRejected (alg : PrngAlg) (w k n : Nat) (t : Stream) : Prop := ∀ i, i < n → w ≤ attemptDraw alg k i t

/-- Draw `j` of `k` bits is the first one accepted, the width being `w`. -/
structure FirstAccepted (alg : PrngAlg) (w k j : Nat) (t : Stream) : Prop where
  rejected : DrawsRejected alg w k j t
  accepted : attemptDraw alg k j t < w

section
variable {alg : PrngAlg} {w k j : Nat} {t : Stream}

/-- An accepted draw is none of the rejected ones. -/
theorem DrawsRejected.le_of_accepted {n : Nat} (hrej : DrawsRejected alg w k n t) (hacc : attemptDraw alg k j t < w) : n ≤ j :=
  Nat.le_of_not_lt fun hj => Nat.not_le_of_lt hacc (hrej j hj)

theorem FirstAccepted.unique {j' : Nat} (h : FirstAccepted alg w k j t) (h' : FirstAccepted alg w k j' t) : j = j' :=
  Nat.le_antisymm (h.rejected.le_of_accepted h'.accepted) (h'.rejected.le_of_accepted h.accepted)

/-- When as many draws as the generator has states are rejected, all are (log 11). -/
theorem DrawsRejected.forever (h : DrawsRejected alg w k (generatorStates alg + 1) t) (i : Nat) : w ≤ attemptDraw alg k i t := by
  induction i using Nat.strong_induction_on with
  | _ i ih => exact Nat.le_of_not_lt fun hacc => Nat.not_le_of_lt hacc (h i (first_accepted_lt alg ih hacc))

end

section
variable {alg : PrngAlg} {limit : Word} {low w j : Nat} {high : Int} {t : Stream}

/-- What `sample` answers for a non-empty interval, and when: the first accepted draw, the cap, or nothing (R141, R144, R145). -/
theorem sample_outcomes (hle : (low : Int) ≤ high) (hw : (high - low + 1).toNat = w) :
    (∃ j, FirstAccepted alg w (bitlen w) j t ∧ (limit = 0 ∨ j < limit.toNat) ∧
      sample alg limit.toNat low high t =
        .value (low + attemptDraw alg (bitlen w) j t) (advance alg ((j + 1) * drawCost (bitlen w)) t)) ∨
    (limit ≠ 0 ∧ DrawsRejected alg w (bitlen w) limit.toNat t ∧
      sample alg limit.toNat low high t = .limit (advance alg (limit.toNat * drawCost (bitlen w)) t)) ∨
    (limit = 0 ∧ (∀ i, w ≤ attemptDraw alg (bitlen w) i t) ∧ sample alg limit.toNat low high t = .never) := by
  have hzero : limit.toNat = 0 ↔ limit = 0 := BitVec.toNat_inj (y := 0)
  have hloop := sampleLoop_cases alg limit.toNat low w (bitlen w) (generatorStates alg + 1) 0 t (Or.inr (Nat.zero_le _))
  rw [sample_nonempty hle, hw]
  simp only [hzero, Nat.sub_zero, Nat.zero_add] at hloop
  rcases hloop with ⟨j, -, hcap, hrej, hacc, heq⟩ | ⟨hcap, -, hrej, heq⟩ | ⟨hcap, hrej, heq⟩
  · exact Or.inl ⟨j, ⟨hrej, hacc⟩, hcap, heq⟩
  · exact Or.inr (Or.inl ⟨hzero.not.mp hcap, hrej, heq⟩)
  · exact Or.inr (Or.inr ⟨hcap.resolve_right (word_lt_generatorStates alg limit), DrawsRejected.forever hrej, heq⟩)

theorem sample_of_firstAccepted (hle : (low : Int) ≤ high) (hw : (high - low + 1).toNat = w)
    (hj : FirstAccepted alg w (bitlen w) j t) (hcap : limit = 0 ∨ j < limit.toNat) :
    sample alg limit.toNat low high t =
      .value (low + attemptDraw alg (bitlen w) j t) (advance alg ((j + 1) * drawCost (bitlen w)) t) := by
  rcases sample_outcomes hle hw with ⟨j', hj', -, heq⟩ | ⟨hne, hrej, -⟩ | ⟨-, hrej, -⟩
  · rw [hj.unique hj']
    exact heq
  · exact absurd (hrej.le_of_accepted hj.accepted) (Nat.not_le_of_lt (hcap.resolve_left hne))
  · exact absurd hj.accepted (Nat.not_lt_of_ge (hrej j))

theorem sample_of_cap_rejected (hle : (low : Int) ≤ high) (hw : (high - low + 1).toNat = w) (hcap : limit ≠ 0)
    (hrej : DrawsRejected alg w (bitlen w) limit.toNat t) :
    sample alg limit.toNat low high t = .limit (advance alg (limit.toNat * drawCost (bitlen w)) t) := by
  rcases sample_outcomes hle hw with ⟨j, hj, hlt, -⟩ | ⟨-, -, heq⟩ | ⟨hzero, -⟩
  · exact absurd (hrej.le_of_accepted hj.accepted) (Nat.not_le_of_lt (hlt.resolve_left hcap))
  · exact heq
  · exact absurd hzero hcap

theorem sample_eq_never_iff (hle : (low : Int) ≤ high) (hw : (high - low + 1).toNat = w) :
    sample alg limit.toNat low high t = .never ↔ limit = 0 ∧ ∀ i, w ≤ attemptDraw alg (bitlen w) i t := by
  rcases sample_outcomes hle hw with ⟨j, hj, -, heq⟩ | ⟨hne, -, heq⟩ | ⟨hzero, hrej, heq⟩
  · exact iff_of_false (by rw [heq]; nofun) fun h => Nat.not_le_of_lt hj.accepted (h.2 j)
  · exact iff_of_false (by rw [heq]; nofun) fun h => hne h.1
  · exact iff_of_true heq ⟨hzero, hrej⟩

end

/-- Settles O19: the conditions of the outcomes of `sample` exclude each other. -/
theorem sampleFunctionOutcomes : Obligations.SampleFunctionOutcomes := by
  intro alg limit low high t
  exact ⟨fun hempty => sample_empty hempty t, fun hle =>
    ⟨fun j hrej hacc hcap => sample_of_firstAccepted hle rfl ⟨hrej, hacc⟩ hcap,
      fun hcap hrej => sample_of_cap_rejected hle rfl hcap hrej, sample_eq_never_iff hle rfl⟩⟩

theorem toNat_intervalWidth {low high : Nat} (h : low ≤ high) :
    ((high : Int) - low + 1).toNat = intervalWidth low high := by
  rw [intervalWidth]
  omega

/-- A seeded engine runs `SAMPLE` as what `sample` answers. -/
theorem exec_sample_seeded {s : State} (hseeded : s.status.seeded = true) (rd rs1 rs2 : Reg) :
    exec (.sample rd rs1 rs2) s =
      finish s (sampleResult rd s (sample s.cfg.prngAlg s.limit.toNat (readReg s rs1) (readReg s rs2) s.stream)) := by
  rw [exec, execSample, unseededCheck_none.mpr hseeded, guardThen_none]

/-- Settles O17: the value is in the interval of the two registers, so it fits in the register written. -/
theorem sampleReturnsTheFirstAcceptedDraw : Obligations.SampleReturnsTheFirstAcceptedDraw := by
  intro s hs hseeded rd rs1 rs2 hle w k j hrej hacc hcap
  have hfits : readReg s rs1 + attemptDraw s.cfg.prngAlg k j s.stream < s.cfg.radix := by
    have hhigh := hs.regs rs2
    simp only [w, intervalWidth] at hacc
    omega
  rw [exec_sample_seeded hseeded,
    sample_of_firstAccepted (Int.ofNat_le.mpr hle) (toNat_intervalWidth hle) ⟨hrej, hacc⟩ hcap, sampleResult, finish_ok]
  exact congrArg _ (completeOk_writeReg (setStream _ s) hfits rd)

/-- Settles O18: the fault is recorded in the state whose stream has moved on. -/
theorem sampleFaultsAtTheCap : Obligations.SampleFaultsAtTheCap := by
  intro s hseeded rd rs1 rs2 hle w k hcap hrej
  rw [exec_sample_seeded hseeded, sample_of_cap_rejected (Int.ofNat_le.mpr hle) (toNat_intervalWidth hle) hcap hrej,
    sampleResult, finish_fault]
  rfl

end Sys2Proof.Machine
end

section
/-! The Montgomery commands (42_montgomery.md R161 to R164): each writes a residue, which fits in the register because its modulus
is itself read from one. -/

namespace Sys2Proof.Machine

variable {s : State} {check : Option FaultCode} {rs3 : Reg}

/-- The check passes, and a residue by the register `rs3` is written. -/
theorem finish_guardThen_residue (hs : Sized s) (hcheck : check = none) (hn : readReg s rs3 ≠ 0) (rd : Reg) (v : Nat) :
    finish s (guardThen check s (.ok (writeReg rd (v % readReg s rs3) s))) = .next (s.withResult rd (v % readReg s rs3)) := by
  have hfits : v % readReg s rs3 < s.cfg.radix := (Nat.mod_lt v (Nat.pos_of_ne_zero hn)).trans (hs.regs rs3)
  rw [finish_guardThen_passed hcheck, completeOk_writeReg s hfits]

/-- Settles O21: a modulus other than 0 passes the check. -/
theorem mulmodResult : Obligations.MulmodResult := fun _ hs rd _ _ _ hn =>
  finish_guardThen_residue hs (zeroModulusCheck_none.mpr hn) hn rd _

/-- Settles O20: `Rinv(n)` is the inverse and the only one, and an odd modulus passes the check of all three commands. -/
theorem montgomeryCommandResults : Obligations.MontgomeryCommandResults := by
  intro s hs rd rs1 rs2 rs3 a b n hodd
  have hn : n ≠ 0 := by omega
  have hwrite := finish_guardThen_residue hs (oddModulusCheck_none.mpr hodd) hn rd
  exact ⟨rinv s.cfg n, ⟨rinv_lt s.cfg (Nat.pos_of_ne_zero hn), radix_mul_rinv s.cfg hodd⟩,
    fun _ hlt hinv => eq_rinv s.cfg hodd hlt hinv,
    hwrite (a * b * rinv s.cfg n), hwrite (a * s.cfg.radix), hwrite (a * rinv s.cfg n)⟩

end Sys2Proof.Machine
end

section
/-! The identities of the Montgomery form (42_montgomery.md section 3). The Montgomery product is `fromMont` of the product, and
`fromMont` takes one factor `R` off its argument, so each identity counts the factors `R`. -/

namespace Sys2Proof.Machine

variable {n : Nat}

theorem toMont_modEq (c : Config) (a n : Nat) : toMont c a n ≡ a * c.radix [MOD n] := Nat.mod_modEq _ n

theorem montProduct_eq_fromMont (c : Config) (a b n : Nat) : montProduct c a b n = fromMont c (a * b) n := rfl

/-- A number congruent to `y * R` is the Montgomery form of `y`. -/
theorem fromMont_of_modEq (c : Config) {x y : Nat} (hodd : n % 2 = 1) (h : x ≡ y * c.radix [MOD n]) :
    fromMont c x n = y % n := by
  have hcancel : x * rinv c n ≡ y [MOD n] := calc
    x * rinv c n ≡ y * c.radix * rinv c n [MOD n] := h.mul_right _
    _ = y * (c.radix * rinv c n) := Nat.mul_assoc ..
    _ ≡ y * 1 [MOD n] := (radix_mul_rinv c hodd).mul_left y
    _ = y := Nat.mul_one y
  exact hcancel

theorem fromMont_toMont (c : Config) (a : Nat) (hodd : n % 2 = 1) : fromMont c (toMont c a n) n = a % n :=
  fromMont_of_modEq c hodd (toMont_modEq c a n)

/-- Of the two factors `R` that the forms bring, the product keeps one. -/
theorem montProduct_toMont_toMont (c : Config) (a b : Nat) (hodd : n % 2 = 1) :
    montProduct c (toMont c a n) (toMont c b n) n = toMont c (a * b) n := by
  refine fromMont_of_modEq c hodd ?_
  calc toMont c a n * toMont c b n ≡ a * c.radix * (b * c.radix) [MOD n] := (toMont_modEq c a n).mul (toMont_modEq c b n)
    _ = a * b * c.radix * c.radix := by ring

/-- The product with `R^2 mod n` converts to the Montgomery form. -/
theorem montProduct_radix_sq (c : Config) (a : Nat) (hodd : n % 2 = 1) :
    montProduct c a (c.radix ^ 2 % n) n = toMont c a n := by
  refine fromMont_of_modEq c hodd ?_
  calc a * (c.radix ^ 2 % n) ≡ a * c.radix ^ 2 [MOD n] := (Nat.mod_modEq _ n).mul_left a
    _ = a * c.radix * c.radix := by ring

theorem radix_sq_mod_eq_toMont_toMont_one (c : Config) (n : Nat) : c.radix ^ 2 % n = toMont c (toMont c 1 n) n := by
  have hform : toMont c (toMont c 1 n) n ≡ c.radix ^ 2 [MOD n] := calc
    toMont c (toMont c 1 n) n ≡ toMont c 1 n * c.radix [MOD n] := toMont_modEq c _ n
    _ ≡ 1 * c.radix * c.radix [MOD n] := (toMont_modEq c 1 n).mul_right _
    _ = c.radix ^ 2 := by ring
  exact Eq.trans hform.symm (Nat.mod_mod _ n)

/-- Settles O22: the identities one by one, the third by the first two. -/
theorem montgomeryIdentities : Obligations.MontgomeryIdentities := by
  intro c a b n hodd
  refine ⟨fromMont_toMont c a hodd, montProduct_toMont_toMont c a b hodd, ?_,
    ⟨montProduct_radix_sq c a hodd, radix_sq_mod_eq_toMont_toMont_one c n⟩, ?_, ?_⟩
  · rw [montProduct_toMont_toMont c a b hodd, fromMont_toMont c _ hodd]
  · rw [montProduct_eq_fromMont, Nat.mul_one]
  · rw [montProduct_eq_fromMont, montProduct_eq_fromMont, Nat.mul_comm]

end Sys2Proof.Machine
end

section
/-! The exponentiation (43_modexp.md R181). Every row of R182 with `n ≠ 0` is a value of the one formula `a^e mod n`. -/

namespace Sys2Proof.Machine

variable {s : State} {rs3 : Reg}

/-- R181: the loop's result is the residue of the power, and it is written. -/
theorem exec_modexp (hs : Sized s) (hn : readReg s rs3 ≠ 0) (rd rs1 rs2 : Reg) :
    exec (.modexp rd rs1 rs2 rs3) s = .next (s.withResult rd (readReg s rs1 ^ readReg s rs2 % readReg s rs3)) := by
  rw [exec, execModexp, powMod_eq]
  exact finish_guardThen_residue hs (zeroModulusCheck_none.mpr hn) hn rd _

theorem zeroModulusCheck_zero : zeroModulusCheck 0 = some .zeroModulus := if_pos rfl

/-- R181: `ZeroModulus` for `n = 0`, whatever `a` and `e`. -/
theorem exec_modexp_zeroModulus (hn : readReg s rs3 = 0) (rd rs1 rs2 : Reg) :
    exec (.modexp rd rs1 rs2 rs3) s = .next (s.withFault 5) := by
  rw [exec, execModexp, hn]
  exact finish_guardThen_failed zeroModulusCheck_zero _

/-- Settles O23: the formula of R181, then each row of R182 as the value that the formula has there. -/
theorem modexpResultAndCorners : Obligations.ModexpResultAndCorners := by
  intro s hs rd rs1 rs2 rs3 a e n result
  have row {v : Nat} (hn : n ≠ 0) (hv : a ^ e % n = v) : result = .next (s.withResult rd v) :=
    hv ▸ exec_modexp hs hn rd rs1 rs2
  have row_one (hn : n = 1) : result = .next (s.withResult rd 0) :=
    row (by omega) (by rw [hn, Nat.mod_one])
  refine ⟨fun hn => row hn rfl, fun he hn => row (by omega) ?_, fun _ => row_one, row_one, fun ha he hn => row hn ?_,
    fun ha hn => row hn ?_, fun he hn => row hn ?_, fun hn _ => row hn (Nat.pow_mod a e n),
    fun hn => exec_modexp_zeroModulus hn rd rs1 rs2⟩
  · rw [he, pow_zero, Nat.mod_eq_of_lt hn]
  · rw [ha, Nat.zero_pow he, Nat.zero_mod]
  · rw [ha, Nat.one_pow]
  · rw [he, pow_one]

end Sys2Proof.Machine
end

section
/-! The clause list of the symbol (44_jacobi_gcd.md R192) against its evaluation. The evaluation tries the clauses in the order of
the list, so a value it finds, at whatever depth, is one of the list; the other way each clause has its equation for `jacobi`. -/

namespace Sys2Proof.Machine

variable {a j : Int} {n : Nat}

/-- Branch by branch: the conditions that failed before a branch are those under which its clause applies. -/
theorem clauseValue_of_jacobiClauses (depth : Nat) : jacobiClauses depth a n = some j → ClauseValue a n j := by
  induction depth generalizing a n j with
  | zero => nofun
  | succ depth ih =>
    intro h
    by_cases named : NamedArg a
    · rcases named with rfl | rfl | rfl | rfl <;> cases h
      · exact .c1
      · exact .c2
      · exact .c3
      · exact .c4
    have ⟨h0, h1, hneg, h2⟩ : a ≠ 0 ∧ a ≠ 1 ∧ a ≠ -1 ∧ a ≠ 2 := by simpa [NamedArg] using named
    rw [jacobiClauses, if_neg h0, if_neg h1, if_neg hneg, if_neg h2] at h
    split_ifs at h with gt even self both
    · exact .c5 named gt (ih h)
    · obtain ⟨k, hk, rfl⟩ := Option.map_eq_some_iff.mp h
      exact .c6 named (Int.not_lt.mp gt) even .c4 (ih hk)
    · obtain ⟨k, hk, rfl⟩ := Option.map_eq_some_iff.mp h
      exact .c7 named (Int.not_lt.mp gt) (Int.emod_two_ne_zero.mp even) both (ih hk)
    · exact .c8 named (Int.not_lt.mp gt) (Int.emod_two_ne_zero.mp even) both (ih h)

/-- An argument that c1 to c4 do not name is at least 3. -/
theorem three_le_of_not_namedArg (ha : -1 ≤ a) (named : ¬ NamedArg a) : 3 ≤ a := by
  simp only [NamedArg] at named
  omega

/-- A call of c7 or c8 that has a value is not the call `J(n, n)` being evaluated, so `a < n` there (R194). -/
theorem lt_of_jacobi_swapped (ha : 3 ≤ a) (le : a ≤ (n : Int)) (odd : a % 2 = 1) (h : jacobi (n : Int) a.toNat = some j) :
    a < (n : Int) := by
  refine lt_of_le_of_ne le ?_
  rintro rfl
  rw [Int.toNat_natCast, jacobi_self (by omega) (by omega)] at h
  cases h

theorem jacobi_eq_of_clauseValue (ha : -1 ≤ a) (hn : 1 ≤ n) (h : ClauseValue a n j) : jacobi a n = some j := by
  induction h with
  | c1 => exact jacobi_zero _
  | c2 => exact jacobi_one _
  | c3 => exact jacobi_neg_one _
  | c4 => exact jacobi_two _
  | @c5 a n j named gt _ ih =>
    have hres : 0 ≤ a % (n : Int) := Int.emod_nonneg a (by omega)
    rw [jacobi_reduce hn (three_le_of_not_namedArg ha named) gt]
    exact ih (by omega) hn
  | c6 named le even _ _ ihTwo ihHalf =>
    have h3 := three_le_of_not_namedArg ha named
    have htwo := Option.some.inj ((jacobi_two _).symm.trans (ihTwo (by decide) hn))
    rw [jacobi_even hn h3 le even, ihHalf (by omega) hn, htwo]
    rfl
  | c7 named le odd both _ ih =>
    have h3 := three_le_of_not_namedArg ha named
    have hval := ih (by omega) (by omega)
    rw [jacobi_swap_neg h3 (lt_of_jacobi_swapped h3 le odd hval) both.1 both.2, hval]
    rfl
  | c8 named le odd other _ ih =>
    have h3 := three_le_of_not_namedArg ha named
    have hval := ih (by omega) (by omega)
    rw [jacobi_swap h3 (lt_of_jacobi_swapped h3 le odd hval) odd other, hval]

/-- What has a value is not the call of R194 without one, so its value is the one that `jacobi_total` gives. -/
theorem jacobi_value_cases (ha : -1 ≤ a) (hn : 1 ≤ n) (h : jacobi a n = some j) : j = 0 ∨ j = 1 ∨ j = -1 := by
  have hne : ¬ (a = (n : Int) ∧ n % 2 = 1 ∧ 3 ≤ n) := by
    rintro ⟨rfl, hodd, h3⟩
    rw [jacobi_self h3 hodd] at h
    cases h
  obtain ⟨j', hj', hval⟩ := jacobi_total _ a n hn ha (Nat.lt_succ_self _) hne
  rwa [Option.some.inj (h.symm.trans hj')]

/-- Settles O25: the evaluation follows the list, and the list the evaluation. -/
theorem jacobiFollowsTheClauseList : Obligations.JacobiFollowsTheClauseList := by
  intro a n ha hn j
  refine ⟨⟨clauseValue_of_jacobiClauses _, jacobi_eq_of_clauseValue ha hn⟩, fun h => ?_⟩
  rcases jacobi_value_cases ha hn (jacobi_eq_of_clauseValue ha hn h) with h0 | h1 | hneg
  · exact Or.inr (Or.inl h0)
  · exact Or.inr (Or.inr h1)
  · exact Or.inl hneg

end Sys2Proof.Machine
end

section
/-! The commands `JACOBI` and `GCD` (44_jacobi_gcd.md R191, R196, R197): a symbol in its two encodings, and a result that is at most
an operand. -/

namespace Sys2Proof.Machine

/-- R197: the residue of a symbol. -/
theorem symbolMod_eq_ite {j : Int} (hj : j = 0 ∨ j = 1 ∨ j = -1) {n : Nat} (hn : n ≠ 0) :
    symbolMod j n = if j = 0 then 0 else if j = 1 then 1 % n else n - 1 := by
  rcases hj with rfl | rfl | rfl
  · exact symbolMod_zero n
  · rfl
  · exact symbolMod_neg_one (Nat.one_le_iff_ne_zero.mpr hn)

/-- 10_state.md R33: a symbol as `JSYM` shows it. -/
theorem jsymBits_eq_ite {j : Int} (hj : j = 0 ∨ j = 1 ∨ j = -1) :
    jsymBits j = if j = 0 then 0b00 else if j = 1 then 0b01 else 0b11 := by
  rcases hj with rfl | rfl | rfl <;> rfl

/-- R196: the check admits no first argument below -1. -/
theorem neg_one_le_symbolArg {neg : Bool} {v : Nat} (h : neg = true → v ≤ 1) : -1 ≤ symbolArg neg v := by
  cases neg with
  | false => exact (by decide : (-1 : Int) ≤ 0).trans (Int.natCast_nonneg v)
  | true => exact Int.neg_le_neg (Int.ofNat_le.mpr (h rfl))

/-- Settles O27: the operands pass the check, the evaluation finds the value of the clause list, and its residue is below the
modulus. -/
theorem jacobiCommandResult : Obligations.JacobiCommandResult := by
  intro s hs rd rs1 rs3 neg j v n hn hv hvalue
  have harg : -1 ≤ symbolArg neg v := neg_one_le_symbolArg hv
  have hpos : 1 ≤ n := Nat.one_le_iff_ne_zero.mpr hn
  have hjacobi : jacobi (symbolArg neg v) n = some j := jacobi_eq_of_clauseValue harg hpos hvalue
  have hj := jacobi_value_cases harg hpos hjacobi
  have hfits : symbolMod j n < s.cfg.radix := (symbolMod_lt j hpos).trans (hs.regs rs3)
  have hwrite := completeOk_writeReg { s with status := { s.status with jsym := jsymBits j } } hfits rd
  rw [← jsymBits_eq_ite hj, ← symbolMod_eq_ite hj hn, ← hwrite, exec, execJacobi, hjacobi, jacobiResult]
  exact finish_guardThen_passed (jacobiCheck_none.mpr ⟨hn, hv⟩)

/-- The divisor is at most an operand other than 0, and is 0 when both operands are (R190). -/
theorem gcd_lt_of_lt {a b m : Nat} (ha : a < m) (hb : b < m) : Nat.gcd a b < m := by
  rcases Nat.eq_zero_or_pos a with rfl | hpos
  · rwa [Nat.gcd_zero_left]
  · exact (Nat.gcd_le_left b hpos).trans_lt ha

/-- Settles O24: the divisor fits in the register. -/
theorem gcdResult : Obligations.GcdResult := by
  intro s hs rd rs1 rs2
  have hfits := gcd_lt_of_lt (hs.regs rs1) (hs.regs rs2)
  refine ⟨Nat.gcd (readReg s rs1) (readReg s rs2), ?_, Nat.gcd_dvd_left _ _, Nat.gcd_dvd_right _ _, fun _ => Nat.dvd_gcd⟩
  rw [exec, execGcd, finish_ok, completeOk_writeReg s hfits]

end Sys2Proof.Machine
end

section
/-! The clause list against the textbook symbol (44_jacobi_gcd.md R195): clause by clause, for odd `n`. -/

namespace Sys2Proof.Machine

variable {a j : Int} {n : Nat}

/-- c4: the second supplement to reciprocity. -/
theorem jacobiTwo_eq_jacobiSym (hodd : n % 2 = 1) : jacobiTwo n = jacobiSym 2 n := by
  rw [jacobiSym.at_two (Nat.odd_iff.mpr hodd), ZMod.χ₈_nat_eq_if_mod_eight, if_neg (by omega), jacobiTwo]
  split_ifs <;> omega

/-- c7 and c8 together are the law of reciprocity, for odd arguments. -/
theorem jacobiSym_swap (ha : 0 ≤ a) (hodd : a % 2 = 1) (hn : n % 2 = 1) :
    jacobiSym a n = if a % 4 = 3 ∧ n % 4 = 3 then -jacobiSym n a.toNat else jacobiSym n a.toNat := by
  lift a to Nat using ha
  rw [Int.toNat_natCast, ← jacobiSym.quadratic_reciprocity_if (by omega) hn]
  norm_cast

/-- A value of the clause list is the textbook symbol: each clause is a law of the symbol. -/
theorem eq_jacobiSym_of_clauseValue (ha : 0 ≤ a) (hn : n % 2 = 1) (h : ClauseValue a n j) : j = jacobiSym a n := by
  induction h with
  | @c1 n =>
    split_ifs with h1
    · rw [h1, jacobiSym.one_right]
    · rw [jacobiSym.zero_left (by omega)]
  | c2 => exact (jacobiSym.one_left _).symm
  | c3 => exact absurd ha (by decide)
  | c4 => exact jacobiTwo_eq_jacobiSym hn
  | c5 _ _ _ ih => rw [jacobiSym.mod_left, ih (Int.emod_nonneg _ (by omega)) hn]
  | @c6 a n j k _ _ even _ _ ihTwo ihHalf =>
    rw [ihTwo (by decide) hn, ihHalf (by omega) hn, ← jacobiSym.mul_left, Int.mul_ediv_cancel' (Int.dvd_of_emod_eq_zero even)]
  | c7 _ _ odd both _ ih => rw [jacobiSym_swap ha odd hn, if_pos both, ih (by omega) (by omega)]
  | c8 _ _ odd other _ ih => rw [jacobiSym_swap ha odd hn, if_neg other, ih (by omega) (by omega)]

/-- R195: away from `a = n` the evaluation ends, with the textbook symbol. -/
theorem jacobi_eq_jacobiSym (ha : 0 ≤ a) (hn : n % 2 = 1) (hne : a ≠ (n : Int)) : jacobi a n = some (jacobiSym a n) := by
  obtain ⟨j, hj, -⟩ := jacobi_total _ a n (by omega) (by omega) (Nat.lt_succ_self _) fun h => hne h.1
  rw [hj, eq_jacobiSym_of_clauseValue ha hn (clauseValue_of_jacobiClauses _ hj)]

end Sys2Proof.Machine
end

section
/-! A round of the tester (45_primality.md R212): the base drawn, the two checks, and what the loop does with them. -/

namespace Sys2Proof.Machine

variable {alg : PrngAlg} {limit a n : Nat} {t t' : Stream}

/-- The model's two checks of a round are those of `RoundPasses`. -/
theorem roundPasses_eq_some_true_iff (hn : 1 ≤ n) : roundPasses a n = some true ↔ RoundPasses a n := by
  have hchecks (j : Int) : symbolMod j n = powMod a ((n - 1) / 2) n ↔ j % (n : Int) = ((a ^ ((n - 1) / 2) % n : Nat) : Int) := by
    rw [powMod_eq, ← symbolMod_cast j hn, Int.natCast_inj]
  have hvalue (j : Int) : jacobi a n = some j ↔ ClauseValue a n j :=
    ⟨clauseValue_of_jacobiClauses _, jacobi_eq_of_clauseValue (by omega) hn⟩
  rw [roundPasses, RoundPasses]
  split_ifs with hgcd
  · simp [hgcd]
  · simp [hgcd, hvalue, hchecks]

/-- Every base drawn is from 1 to `n - 2` (R212). -/
theorem base_mem_of_sample_eq_value (h : sample alg limit 1 ((n : Int) - 2) t = .value a t') : 1 ≤ a ∧ a + 2 ≤ n := by
  rcases sample_cases alg limit 1 ((n : Int) - 2) t with ⟨v, m, heq, hlow, hhigh⟩ | ⟨-, heq⟩ | ⟨-, m, heq⟩ | ⟨-, -, heq⟩
  all_goals rw [heq] at h; cases h
  omega

theorem testRounds_succ_of_passes (todo i : Nat) (h : sample alg limit 1 ((n : Int) - 2) t = .value a t') (hpass : RoundPasses a n) :
    testRounds alg limit n (todo + 1) i t = testRounds alg limit n todo (i + 1) t' := by
  have hbase := base_mem_of_sample_eq_value h
  rw [testRounds, h]
  simp only [(roundPasses_eq_some_true_iff (by omega)).mpr hpass]

theorem testRounds_succ_of_fails (todo i : Nat) (h : sample alg limit 1 ((n : Int) - 2) t = .value a t') (hfail : ¬ RoundPasses a n) :
    testRounds alg limit n (todo + 1) i t = .verdict false i t' := by
  have hbase := base_mem_of_sample_eq_value h
  obtain ⟨b, hb⟩ := roundPasses_isSome (a := a) (n := n) (by omega)
  cases b with
  | true => exact absurd ((roundPasses_eq_some_true_iff (by omega)).mp hb) hfail
  | false =>
    rw [testRounds, h]
    simp only [hb]

theorem testRounds_succ_of_range (todo i : Nat) (h : sample alg limit 1 ((n : Int) - 2) t = .range) :
    testRounds alg limit n (todo + 1) i t = .fault .range t := by
  rw [testRounds, h]

theorem testRounds_succ_of_limit (todo i : Nat) (h : sample alg limit 1 ((n : Int) - 2) t = .limit t') :
    testRounds alg limit n (todo + 1) i t = .fault .limit t' := by
  rw [testRounds, h]

theorem testRounds_succ_of_never (todo i : Nat) (h : sample alg limit 1 ((n : Int) - 2) t = .never) :
    testRounds alg limit n (todo + 1) i t = .never := by
  rw [testRounds, h]

/-- The loop runs through the rounds that pass and goes on from the stream they leave. -/
theorem testRounds_of_passingRounds {s : State} {base : Nat → Nat} {strm : Nat → Stream} (k todo : Nat)
    (h : PassingRounds s n k base strm) :
    testRounds s.cfg.prngAlg s.limit.toNat n (k + todo) 0 s.stream =
      testRounds s.cfg.prngAlg s.limit.toNat n todo k (strm k) := by
  obtain ⟨hstart, hround⟩ := h
  induction k generalizing todo with
  | zero => rw [hstart, Nat.zero_add]
  | succ k ih =>
    obtain ⟨hdraw, hpass⟩ := hround k (Nat.lt_succ_self k)
    rw [Nat.succ_add_eq_add_succ, ih (todo + 1) fun i hi => hround i (hi.trans (Nat.lt_succ_self k)),
      testRounds_succ_of_passes todo k hdraw hpass]

/-- When no base drawn can fail, the only verdict is that all rounds have passed. -/
theorem testRounds_verdict_of_all_pass (hall : ∀ a, 1 ≤ a → a + 2 ≤ n → RoundPasses a n) {todo i r : Nat} {b : Bool}
    (h : testRounds alg limit n todo i t = .verdict b r t') : b = true ∧ r = i + todo := by
  induction todo generalizing i t with
  | zero => cases h; exact ⟨rfl, rfl⟩
  | succ todo ih =>
    cases hs : sample alg limit 1 ((n : Int) - 2) t with
    | value a u =>
      obtain ⟨hlow, hhigh⟩ := base_mem_of_sample_eq_value hs
      rw [testRounds_succ_of_passes todo i hs (hall a hlow hhigh)] at h
      obtain ⟨hb, hr⟩ := ih h
      exact ⟨hb, by omega⟩
    | range => rw [testRounds_succ_of_range todo i hs] at h; cases h
    | limit u => rw [testRounds_succ_of_limit todo i hs] at h; cases h
    | never => rw [testRounds_succ_of_never todo i hs] at h; cases h

end Sys2Proof.Machine
end

section
/-! `PTEST` (45_primality.md R211) by the answer of its round loop. -/

namespace Sys2Proof.Machine

variable {s : State}

/-- A seeded engine runs `PTEST` as what the round loop answers. -/
theorem exec_ptest_seeded (hseeded : s.status.seeded = true) (rd rs3 : Reg) :
    exec (.ptest rd rs3) s = finish s (testResult rd s
      (testRounds s.cfg.prngAlg s.limit.toNat (readReg s rs3) s.conf.toNat 0 s.stream)) := by
  rw [exec, execPtest, unseededCheck_none.mpr hseeded, guardThen_none]

/-- The stream, `PRIME` and `ROUNDS` as a verdict leaves them (R211). -/
def setVerdict (prime : Bool) (rounds : Word) (t : Stream) (s : State) : State :=
  { setStream t s with status := { s.status with prime := prime }, rounds := rounds }

/-- A verdict is written to `x[rd]` too: 0 and 1 fit in every register. -/
theorem finish_testResult_verdict (hs : Sized s) (rd : Reg) (prime : Bool) (rounds : Nat) (t : Stream) :
    finish s (testResult rd s (.verdict prime rounds t)) =
      .next ((setVerdict prime (BitVec.ofNat 32 rounds) t s).withResult rd prime.toNat) := by
  have hfits : prime.toNat < s.cfg.radix := prime.toNat_le.trans_lt (one_lt_radix hs.cfg)
  rw [testResult, finish_ok]
  exact congrArg _ (completeOk_writeReg (setVerdict prime _ t s) hfits rd)

/-- A fault of the loop is recorded in the state whose stream has moved on (R211). -/
theorem finish_testResult_fault (rd : Reg) (s : State) (c : FaultCode) (t : Stream) :
    finish s (testResult rd s (.fault c t)) = .next ((setStream t s).withFault c.code) := by
  rw [testResult, finish_fault]
  rfl

/-- Settles O29: the loop runs through the passing rounds; then none is left, or the next one fails. -/
theorem ptestVerdict : Obligations.PtestVerdict := by
  intro s hs hseeded rd rs3 n k base strm hrounds
  rw [exec_ptest_seeded hseeded]
  refine ⟨fun hall => ?_, fun hsome a t hdraw hfail => ?_⟩
  · have hloop := testRounds_of_passingRounds k 0 hrounds
    rw [Nat.add_zero, hall] at hloop
    rw [hloop, testRounds, finish_testResult_verdict hs, BitVec.ofNat_toNat, BitVec.setWidth_eq, hall]
    rfl
  · obtain ⟨todo, htodo⟩ := Nat.exists_eq_add_of_lt hsome
    rw [htodo, Nat.add_assoc, testRounds_of_passingRounds k (todo + 1) hrounds, testRounds_succ_of_fails todo k hdraw hfail]
    exact finish_testResult_verdict hs rd false k t

/-- Settles O30: the first round draws from an empty interval, or the round after the passing ones meets the cap. -/
theorem ptestFaults : Obligations.PtestFaults := by
  intro s hseeded rd rs3 n
  rw [exec_ptest_seeded hseeded]
  refine ⟨fun hn hconf => ?_, fun k base strm t hrounds hsome hdraw => ?_⟩
  · have hempty := sample_empty (alg := s.cfg.prngAlg) (limit := s.limit.toNat) (low := 1) (high := (n : Int) - 2) (by omega) s.stream
    obtain ⟨todo, htodo⟩ := Nat.exists_eq_succ_of_ne_zero fun h => hconf (BitVec.eq_of_toNat_eq h)
    rw [htodo, testRounds_succ_of_range todo 0 hempty, finish_testResult_fault, setStream_stream]
    rfl
  · obtain ⟨todo, htodo⟩ := Nat.exists_eq_add_of_lt hsome
    rw [htodo, Nat.add_assoc, testRounds_of_passingRounds k (todo + 1) hrounds, testRounds_succ_of_limit todo k hdraw]
    exact finish_testResult_fault rd s .limit t

end Sys2Proof.Machine
end

section
/-! What the verdict means (45_primality.md R214): Euler's criterion, by which a round of a prime passes. -/

namespace Sys2Proof.Machine

/-- Euler's criterion, with the exponent and the residue as R212 writes them. -/
theorem jacobiSym_emod_prime {n : Nat} (hp : n.Prime) (h3 : 3 ≤ n) (a : Nat) :
    jacobiSym a n % (n : Int) = ((a ^ ((n - 1) / 2) % n : Nat) : Int) := by
  have := Fact.mk hp
  have hodd : n % 2 = 1 := hp.eq_two_or_odd.resolve_left (by omega)
  have heuler : ((jacobiSym a n : Int) : ZMod n) = ((a ^ ((n - 1) / 2) : Nat) : Int) := by
    rw [← jacobiSym.legendreSym.to_jacobiSym, legendreSym.eq_pow, show (n - 1) / 2 = n / 2 by omega]
    norm_cast
  rw [Int.natCast_mod]
  exact (ZMod.intCast_eq_intCast_iff' _ _ n).mp heuler

theorem roundPasses_of_prime {a n : Nat} (hp : n.Prime) (hlow : 1 ≤ a) (hhigh : a + 2 ≤ n) : RoundPasses a n := by
  have hodd : n % 2 = 1 := hp.eq_two_or_odd.resolve_left (by omega)
  have hcoprime : Nat.gcd a n = 1 := (Nat.coprime_of_lt_prime (by omega) (by omega) hp).symm
  have hsymbol : jacobi a n = some (jacobiSym a n) := jacobi_eq_jacobiSym (by omega) hodd (by omega)
  exact ⟨by omega, jacobiSym a n, clauseValue_of_jacobiClauses _ hsymbol, jacobiSym_emod_prime hp (by omega) a⟩

/-- Settles O31: without a fault the loop has answered a verdict, and no round of a prime fails. -/
theorem ptestNeverRejectsAPrime : Obligations.PtestNeverRejectsAPrime := by
  intro s hs hseeded hdone rd rs3 hp _
  rw [exec_ptest_seeded hseeded]
  cases hloop : testRounds s.cfg.prngAlg s.limit.toNat (readReg s rs3) s.conf.toNat 0 s.stream with
  | verdict prime rounds t =>
    obtain ⟨rfl, rfl⟩ := testRounds_verdict_of_all_pass (fun a => roundPasses_of_prime hp) hloop
    refine ⟨_, finish_testResult_verdict hs rd _ _ t, fun _ => ⟨?_, rfl, ?_⟩⟩
    · exact Vector.getElem_set_self rd.isLt
    · simp [State.withResult, setVerdict]
  | fault c t => exact ⟨_, finish_testResult_fault rd s c t, fun h => absurd (hdone.symm.trans h) (by decide)⟩
  | never => exact ⟨s, rfl, fun h => absurd (hdone.symm.trans h) (by decide)⟩

end Sys2Proof.Machine
end

section
/-! The system commands (46_system.md R220 to R222): a copied register and a zero-extended immediate fit in the register written. -/

namespace Sys2Proof.Machine

/-- Settles O11: neither `MOV` nor `LDI` loses a bit, because a register holds `XLEN` bits and an immediate 16 of at least 32. -/
theorem systemCommandResults : Obligations.SystemCommandResults := by
  intro s hs
  refine ⟨?_, fun rd rs1 => ?_, fun rd imm16 himm => ?_⟩
  · rw [exec, execNop, finish_ok, completeOk]
  · rw [exec, execMov, finish_ok, completeOk_writeReg s (hs.regs rs1)]
  · have hword : imm16 < 2 ^ 32 := himm.trans (by decide)
    have hfits : imm16 < s.cfg.radix := hword.trans_le (word_lt_radix hs.cfg)
    rw [exec, execLdi, zext, finish_ok, completeOk_writeReg s hfits]

end Sys2Proof.Machine
end

section
/-! The faults (60_exceptions.md R231 to R237): what a faulting completion writes, and which check of a command raises which code. -/

namespace Sys2Proof.Machine

variable {s t : State}

/-! ### the fault record -/

/-- A completion that raises `ERR` is the fault entry of some cause, at the state whose stream has moved on under `Limit` only. -/
theorem completeCommand_fault (h : completeCommand s = .next t) (hs : s.status.err = false) (ht : t.status.err = true) :
    ∃ c n, t = takeFault c (setStream (advance s.cfg.prngAlg n s.stream) s) ∧ (n ≠ 0 → c = .limit) := by
  rcases completeCommand_next h with ⟨i, -, hexec⟩ | rfl
  · rcases exec_next hexec with ⟨s', rfl, hshape⟩ | ⟨c, n, rfl, hn⟩ | rfl
    · exact absurd (hshape.err.symm.trans ht) (by simp [hs])
    · exact ⟨c, n, rfl, fun hne => (hn hne).1⟩
    · exact absurd ht (by simp [hs])
  · exact ⟨.illegal, 0, rfl, fun hne => absurd rfl hne⟩

/-- Settles O33: the record is that of the fault entry, and the codes of R231 are 1 to 9. -/
theorem faultWritesOnlyTheFaultRecord : Obligations.FaultWritesOnlyTheFaultRecord := by
  intro s t h hs ht
  obtain ⟨c, n, rfl, hlimit⟩ := completeCommand_fault h hs ht
  refine ⟨n, rfl, fun hne => ?_, ?_, c.code_le_nine⟩
  · rw [hlimit hne]; rfl
  · exact Nat.one_le_iff_ne_zero.mpr fun hzero => c.code_ne_zero (BitVec.eq_of_toNat_eq hzero)

/-- Settles O34: each of the four commands is guarded by `SEEDED` before all else. -/
theorem unseededIsTestedFirst : Obligations.UnseededIsTestedFirst := fun s hs rd rs1 rs2 =>
  ⟨exec_next_unseeded rd s hs, fun k => exec_randbits_unseeded rd k s hs, exec_sample_unseeded rd rs1 rs2 s hs,
    exec_ptest_unseeded rd rs1 s hs⟩

/-! ### the checks that fail, and in which order (R237) -/

theorem randbitsCheck_of_lt {k : Nat} (hseeded : s.status.seeded = true) (hk : s.cfg.xlen < k) :
    randbitsCheck s k = some .operand := by
  rw [randbitsCheck, unseededCheck_none.mpr hseeded, bitCountCheck, if_pos hk]
  rfl

theorem oddModulusCheck_zero : oddModulusCheck 0 = some .zeroModulus := if_pos rfl

theorem oddModulusCheck_of_even {n : Nat} (hn : n ≠ 0) (heven : n % 2 = 0) : oddModulusCheck n = some .evenModulus := by
  rw [oddModulusCheck, if_neg hn, if_pos heven]

theorem jacobiCheck_zero (neg : Bool) (a : Nat) : jacobiCheck neg a 0 = some .zeroModulus := if_pos rfl

theorem jacobiCheck_neg_of_lt {a n : Nat} (hn : n ≠ 0) (ha : 1 < a) : jacobiCheck true a n = some .operand := by
  rw [jacobiCheck, if_neg hn, if_pos (by simpa using ha)]

/-- The fault `Range` of an empty interval (41_sampler.md R143): no word has been drawn. -/
theorem exec_sample_range {rs1 rs2 : Reg} (hseeded : s.status.seeded = true) (hempty : readReg s rs2 < readReg s rs1) (rd : Reg) :
    exec (.sample rd rs1 rs2) s = .next (s.withFault 7) := by
  rw [exec_sample_seeded hseeded, sample_empty (Int.ofNat_lt.mpr hempty)]
  rfl

/-- Settles O35: each clause by the check that fails there, the checks before it having passed. -/
theorem operandFaultsInOrder : Obligations.OperandFaultsInOrder := by
  intro s rd rs1 rs2 rs3 n
  refine ⟨⟨(seedCommandResults s 0).2.1 rfl, fun len => (seedCommandResults s len).2.2⟩,
    fun hseeded => (ptestFaults s hseeded rd rs3).1, fun k hseeded hk => ?_, fun hseeded hempty => ?_, fun hn => ?_,
    fun hn heven => ?_, fun hn ha => ?_⟩
  · exact finish_guardThen_failed (randbitsCheck_of_lt hseeded hk) _
  · exact exec_sample_range hseeded hempty rd
  · have hodd : oddModulusCheck n = some .zeroModulus := hn ▸ oddModulusCheck_zero
    have hzero : zeroModulusCheck n = some .zeroModulus := hn ▸ zeroModulusCheck_zero
    have hjacobi (neg : Bool) : jacobiCheck neg (readReg s rs1) n = some .zeroModulus := hn ▸ jacobiCheck_zero neg _
    exact ⟨finish_guardThen_failed hodd _, finish_guardThen_failed hodd _, finish_guardThen_failed hodd _,
      finish_guardThen_failed hzero _, finish_guardThen_failed hzero _, fun neg => finish_guardThen_failed (hjacobi neg) _⟩
  · have hodd : oddModulusCheck n = some .evenModulus := oddModulusCheck_of_even hn heven
    exact ⟨finish_guardThen_failed hodd _, finish_guardThen_failed hodd _, finish_guardThen_failed hodd _⟩
  · exact finish_guardThen_failed (jacobiCheck_neg_of_lt hn ha) _

end Sys2Proof.Machine
end

section
/-! Which commands complete (70_reset_and_hazards.md R273), and where the clause list of the symbol ends (44_jacobi_gcd.md R194,
R195). -/

namespace Sys2Proof.Machine

/-- Settles O32: a success and a fault both clear `BUSY`, and there is no third outcome outside the three rows. -/
theorem commandsOutsideTheListComplete : Obligations.CommandsOutsideTheListComplete := by
  intro i s hlist
  rcases exec_cases i s with ⟨s', hok, -⟩ | ⟨c, s', hfault, -⟩ | ⟨-, hrow⟩
  · exact ⟨_, hok, rfl⟩
  · exact ⟨_, hfault, rfl⟩
  · exact absurd hrow hlist

/-- R194: the clause list has a value exactly where the evaluation ends. -/
theorem exists_clauseValue_iff {a : Int} {n : Nat} (ha : -1 ≤ a) (hn : 1 ≤ n) :
    (∃ j, ClauseValue a n j) ↔ ¬ (a = (n : Int) ∧ n % 2 = 1 ∧ 3 ≤ n) := by
  constructor
  · rintro ⟨j, hj⟩ ⟨rfl, hodd, h3⟩
    have hvalue := jacobi_eq_of_clauseValue ha hn hj
    rw [jacobi_self h3 hodd] at hvalue
    cases hvalue
  · intro hne
    obtain ⟨j, hj, -⟩ := jacobi_total _ a n hn ha (Nat.lt_succ_self _) hne
    exact ⟨j, clauseValue_of_jacobiClauses _ hj⟩

/-- R273, first row: the operands pass the check, and the evaluation does not end. -/
theorem exec_jacobi_self {s : State} {rs1 rs3 : Reg} (hself : readReg s rs1 = readReg s rs3) (hodd : readReg s rs1 % 2 = 1)
    (h3 : 3 ≤ readReg s rs1) (rd : Reg) : exec (.jacobi rd rs1 rs3 false) s = .next s := by
  have hcheck : jacobiCheck false (readReg s rs1) (readReg s rs1) = none := jacobiCheck_none.mpr ⟨by omega, nofun⟩
  have hnone : jacobi (symbolArg false (readReg s rs1)) (readReg s rs1) = none := jacobi_self h3 hodd
  rw [exec, execJacobi, ← hself, hcheck, guardThen_none, hnone, jacobiResult, finish_diverge]

/-- Settles O26: the step at a completion edge is `exec` of the latched command, which there keeps the state. -/
theorem clauseListEndsExceptAtSelf : Obligations.ClauseListEndsExceptAtSelf := by
  refine ⟨fun a n ha hn => exists_clauseValue_iff (by omega) hn, ?_⟩
  intro s rd rs1 rs3 hc hdecode a hself hodd h3
  have hstep : step s = exec (.jacobi rd rs1 rs3 false) s.atCompletion := (stepRunsTheDecodedCommand s _ hc hdecode).1
  exact ⟨hstep.trans (exec_jacobi_self hself hodd h3 rd), hc.kept⟩

/-- Settles O28: `jacobi_eq_jacobiSym` has the evaluation end there, each clause being a law of the textbook symbol. -/
theorem jacobiIsTheTextbookSymbol : Obligations.JacobiIsTheTextbookSymbol := fun _ _ => jacobi_eq_jacobiSym

end Sys2Proof.Machine
end

section
/-! Reset by `rst` and by `SRST` (70_reset_and_hazards.md R260 to R263). -/

namespace Sys2Proof.Machine

variable {s : State} {addr : BitVec 11}

/-- The reset takes the edge's input and leaves the rest of the schedule, which is the host's. -/
theorem resetEngine_popEdge (s : State) : resetEngine s.popEdge = { State.resetWith s.cfg with sched := s.sched.tail } := rfl

/-- R260: `rdata` is 0 while `rst` is 1. -/
theorem rdata_of_rst (hrst : s.edge.rst = true) (hread : s.edge.access = some (.read addr)) : s.rdata = some 0 := by
  simp only [State.rdata, hread, hrst, if_true]

/-- Settles O44: `rst` is looked at before the access, by the step and by the read. -/
theorem rstEdgeResets : Obligations.RstEdgeResets := fun s hrst =>
  ⟨resetEngine_popEdge s ▸ step_of_rst hrst, fun _ hread => rdata_of_rst hrst hread⟩

/-- R262: a write of `SRST` is a reset, whatever the other bits. -/
theorem busWrite_srst {w : Word} (h : target s.cfg addr = .ctrl) (hsrst : w.getLsbD 31 = true) :
    busWrite s addr w = resetEngine s := by
  rw [busWrite_ctrl w h, writeCtrl, if_pos hsrst]

/-- R263: the soft reset abandons the command in flight, so its edge is no completion. -/
theorem step_of_srst {w : Word} (hrst : s.edge.rst = false) (hwrite : s.edge.access = some (.write addr w))
    (h : target s.cfg addr = .ctrl) (hsrst : w.getLsbD 31 = true) : step s = .next (resetEngine s.popEdge) := by
  have hreset : s.atCompletion = resetEngine s.popEdge := (atCompletion_of_write hwrite).trans (busWrite_srst h hsrst)
  rw [← hreset]
  refine step_of_not_completes hrst fun hc => ?_
  have hkept := hc.kept
  rw [hreset, resetEngine_status] at hkept
  cases hkept

/-- `SRST` reads 0 (10_state.md R34): `CTRL` has two bits. -/
theorem Ctrl.getLsbD_word_srst (c : Ctrl) : c.word.getLsbD 31 = false :=
  getLsbD_of_div_mod (by rw [Nat.div_eq_of_lt (c.toNat_word_fields.1.trans (by decide))]; rfl)

/-- R262: while busy a write past `STATUS` and `CTRL` is ignored or dropped. -/
theorem busWrite_ignored_or_dropped (w : Word) (hbusy : s.status.busy = true) (h : target s.cfg addr ∉ [Target.status, .ctrl]) :
    busWrite s addr w = s ∨ busWrite s addr w = markDrop s := by
  have ⟨hstatus, hctrl⟩ : target s.cfg addr ≠ .status ∧ target s.cfg addr ≠ .ctrl := by simpa using h
  have heffect := busWrite_effect s addr w
  generalize busWrite s addr w = t at heffect
  cases heffect with
  | ignored => exact Or.inl rfl
  | dropped => exact Or.inr rfl
  | cleared at_ => exact absurd at_ hstatus
  | reset at_ | enables at_ => exact absurd at_ hctrl
  | accepted _ idle | conf _ idle | limit _ idle | seed _ _ idle | xword _ _ _ idle => exact absurd hbusy (by simp [idle])

/-- Settles O45: the write of `SRST` is the reset, the read has no such bit, and `BUSY` blocks the other writes. -/
theorem softReset : Obligations.SoftReset := fun s _ w =>
  ⟨fun hrst hwrite h hsrst => resetEngine_popEdge s ▸ step_of_srst hrst hwrite h hsrst,
    fun h => (congrArg (BitVec.getLsbD · 31) (busRead_ctrl h)).trans s.ctrl.getLsbD_word_srst,
    busWrite_ignored_or_dropped w⟩

end Sys2Proof.Machine
end
